-- ==== Sys2Proof/Word.lean ====
section
/-! DEFINITION. The word types of DEPKLITE-CORE (00_scope.md R5, 10_state.md R11 and R19, 41_prefix_decoder.md R84) and the
list form of its two byte memories. Bit vectors are used only where the spec gives a width in bits and shifts, masks or
XORs the value; cursors, lengths and counters are natural numbers (log 10). -/

namespace Sys2Proof

/-- One addressable unit of IN and OUT (R5: BYTE_BITS = 8). -/
abbrev Byte := BitVec 8

/-- The bit window WIN (R5: WIN_BITS = 16). -/
abbrev Window := BitVec 16

/-- One word of a tree ROM (R84). -/
abbrev RomWord := BitVec 13

/-- A leaf value of a code tree: SYM and MSB (R19, R84: bits 4 to 0 of a leaf word). -/
abbrev Sym := BitVec 5

/-- A copy count CC (R19, R57). -/
abbrev Count := BitVec 9

/-- An offset OFF (R19, R57, R105). -/
abbrev Offset := BitVec 13

/-- A byte memory: the cells written so far, addresses strictly rising (`Memory.wf`). An address that is not listed holds
no value the model knows (R24, R32: contents unspecified); log 8 and log 9 say what a read of one gives. -/
abbrev Memory := List Host.Cell

end Sys2Proof
end

