-- ==== Sys2Proof/Machine/Memory.lean ====
section
/-! DEFINITION. The byte memories IN and OUT as lists of cells in one canonical form (20_memory.md R30 to R32, R38): reading a
byte, writing a byte, laying a list of bytes out. -/

namespace Sys2Proof

/-- Addresses strictly rising, the first at least `lo`. -/
def Memory.wfFrom : Nat → Memory → Bool
  | _, [] => true
  | lo, (a, _) :: m => decide (lo ≤ a) && Memory.wfFrom (a + 1) m

/-- The canonical form: addresses strictly rising. An unlisted address reads as no value, so no listed byte can equal what
an unlisted address reads as. -/
def Memory.wf (m : Memory) : Bool := Memory.wfFrom 0 m

/-- The byte listed at address `x`, if any. -/
def Memory.read : Memory → Nat → Option Byte
  | [], _ => none
  | (a, b) :: m, x => if a = x then some b else Memory.read m x

/-- Write one byte, keeping the canonical form. -/
def Memory.write : Memory → Nat → Byte → Memory
  | [], x, v => [(x, v)]
  | (a, b) :: m, x, v =>
    if x < a then (x, v) :: (a, b) :: m
    else if x = a then (x, v) :: m
    else (a, b) :: Memory.write m x v

/-- The memory that holds the bytes at `a`, `a + 1`, ... and nothing else. -/
def Memory.ofBytes : Nat → List Byte → Memory
  | _, [] => []
  | a, b :: bs => (a, b) :: Memory.ofBytes (a + 1) bs

end Sys2Proof
end

