-- ==== Sys2Proof/Config.lean ====
section
/-! DEFINITION. What the spec leaves open: the free values (no body, so nothing can evaluate them), and the data types of the
tree parameters LTREE and OTREE (R5, R22, R83). The parameters' default contents, which trees may be used (R86), and the
constants of 00_scope.md R5 stand in Sys2Proof/Machine/Tables.lean. CUR_BITS is modelled as unbounded (log 10). -/

namespace Sys2Proof

/-- The arbitrary bytes an offset-0 duplication copies, one independent draw per read (R109, D13, U1; log 7): the n-th
byte drawn since power-on. It has no body. -/
opaque Config.freeByte : Nat → Byte

/-- What a cell of IN below INLEN holds when the host has not placed a byte there (R24, R31: the contents of IN are the
host's; log 8). A memory cell keeps its content, so the value depends on the address alone. It has no body. -/
opaque Config.unplacedByte : Nat → Byte

/-- One row of a prefix-code table (R80, R81): the code is the `len` low bits of `word`, read from the left as the spec
prints it, and it decodes to `value`. -/
structure Code where
  value : Nat
  len   : Nat
  word  : Nat
  deriving DecidableEq, Repr

/-- The abstract form of a prefix tree (R83): a leaf with its value, or an internal node with one reference per bit value;
a reference may be absent. A value of this type is finite, and no path in it revisits a node (R86 a, b). -/
inductive PrefixTree where
  | absent
  | leaf (value : Sym)
  | internal (onZero onOne : PrefixTree)
  deriving DecidableEq, Repr

/-- The tree parameters of a block: the length tree LTREE and the offset tree OTREE (R5, R22). -/
structure Trees where
  L : PrefixTree
  O : PrefixTree
  deriving DecidableEq, Repr

end Sys2Proof
end

