-- ==== Sys2Proof/Machine/Operands.lean ====
section
/-! DEFINITION. Operand assembly (30_encoding.md R57): the copy count of an escape byte, the offset, the decryption key. All
operands are unsigned; nothing is sign-extended. -/

namespace Sys2Proof.Machine

/-- CC of formats D2 and D: the length symbol itself (R53, R57). -/
def countOfSym (sym : Sym) : Count := sym.setWidth 9

/-- CC of format X: `zext_9(b) + 25` (R57, R104; R5: EXT_BIAS = 25). The sum is exact for every byte (log 17 says which bytes
are well formed). -/
def countOfEscape (b : Byte) : Count := b.setWidth 9 + 25#9

/-- `OFF = zext_13(LSB) | (zext_13(MSB) << 8)` (R57, R105). -/
def assembleOffset (msb : Sym) (lsb : Byte) : Offset := lsb.setWidth 13 ||| (msb.setWidth 13 <<< 8)

/-- `KEY = (16 - CNT) & 0xFF`, CNT as it stands after the control bit (R57, R93; R5: KEY_BASE = 16). -/
def literalKey (cnt : Fin 16) : Byte := BitVec.ofNat 8 (16 - cnt.val) &&& 0xFF#8

end Sys2Proof.Machine
end

