-- ==== Sys2Proof/Machine/Tables.lean ====
section
/-! DEFINITION. The parameters of the block (00_scope.md R5), the two static code tables as codes (41_prefix_decoder.md R80, R81;
30_encoding.md R55, R56), as trees (R80, R83) and as ROM words (R84, R85), which trees a block may use (R86), and the ROM
image of a tree (R84).

PRESUMED (log 1): the codes are the spec's defaults, supplied "from general knowledge, not in source". The decoder of
Sys2Proof/Decode.lean walks whatever trees it is given (R22, R82); the encoder writes the codes of the default tables; the
ROM words are the form of a hardware build, which the statements relate to the trees. -/

namespace Sys2Proof.Machine

/-- The length symbol that announces an escape byte (R5: SENTINEL). -/
def sentinel : Sym := 25#5

/-- The copy count that has no offset code (R5: SHORT_COUNT), as a length symbol. -/
def shortSym : Sym := 2#5

/-- The escape byte of SKIP (R5: ESC_SKIP). -/
def escSkip : Byte := 0xFE#8

/-- The escape byte of END (R5: ESC_END). -/
def escEnd : Byte := 0xFF#8

/-- The largest copy count (R5: MAX_COUNT). -/
def maxCount : Nat := 278

/-- The `len` low bits of `word`, most significant first: a code in consumption order as the spec prints it (R6). -/
def codeBits : Nat → Nat → List Bool
  | 0, _ => []
  | n + 1, word => word.testBit n :: codeBits n word

/-- The bits of a table row, in consumption order. -/
def rowBits (c : Code) : List Bool := codeBits c.len c.word

/-- The length codes (R55, R80): value, code length, code. -/
def lengthCodes : List Code :=
  [⟨2, 2, 0b10⟩, ⟨3, 2, 0b11⟩, ⟨4, 3, 0b000⟩, ⟨5, 4, 0b0010⟩] ++
  [⟨6, 4, 0b0011⟩, ⟨7, 4, 0b0100⟩, ⟨8, 5, 0b01010⟩, ⟨9, 5, 0b01011⟩] ++
  [⟨10, 5, 0b01100⟩, ⟨11, 6, 0b011010⟩, ⟨12, 6, 0b011011⟩, ⟨25, 6, 0b011100⟩] ++
  [⟨13, 7, 0b0111010⟩, ⟨14, 7, 0b0111011⟩, ⟨15, 7, 0b0111100⟩, ⟨16, 8, 0b01111010⟩] ++
  [⟨17, 8, 0b01111011⟩, ⟨18, 8, 0b01111100⟩, ⟨19, 9, 0b011111010⟩, ⟨20, 9, 0b011111011⟩] ++
  [⟨21, 9, 0b011111100⟩, ⟨22, 9, 0b011111101⟩, ⟨23, 9, 0b011111110⟩, ⟨24, 9, 0b011111111⟩]

/-- The offset codes (R56, R81): value, code length, code. -/
def offsetCodes : List Code :=
  [⟨0, 1, 0b1⟩, ⟨1, 4, 0b0000⟩, ⟨2, 4, 0b0001⟩, ⟨3, 5, 0b00100⟩] ++
  [⟨4, 5, 0b00101⟩, ⟨5, 5, 0b00110⟩, ⟨6, 5, 0b00111⟩, ⟨7, 6, 0b010000⟩] ++
  [⟨8, 6, 0b010001⟩, ⟨9, 6, 0b010010⟩, ⟨10, 6, 0b010011⟩, ⟨11, 6, 0b010100⟩] ++
  [⟨12, 6, 0b010101⟩, ⟨13, 6, 0b010110⟩, ⟨14, 7, 0b0101110⟩, ⟨15, 7, 0b0101111⟩] ++
  [⟨16, 7, 0b0110000⟩, ⟨17, 7, 0b0110001⟩, ⟨18, 7, 0b0110010⟩, ⟨19, 7, 0b0110011⟩] ++
  [⟨20, 7, 0b0110100⟩, ⟨21, 7, 0b0110101⟩, ⟨22, 7, 0b0110110⟩, ⟨23, 7, 0b0110111⟩] ++
  [⟨24, 7, 0b0111000⟩, ⟨25, 7, 0b0111001⟩, ⟨26, 7, 0b0111010⟩, ⟨27, 7, 0b0111011⟩] ++
  [⟨28, 7, 0b0111100⟩, ⟨29, 7, 0b0111101⟩, ⟨30, 7, 0b0111110⟩, ⟨31, 7, 0b0111111⟩]

/-- The code of a value in a table, in consumption order (empty for a value the table lacks). -/
def codeOf (table : List Code) (value : Nat) : List Bool :=
  match table.find? (fun c => c.value == value) with
  | some c => rowBits c
  | none => []

/-- LTREE in the ROM form (R85), 47 words. -/
def LTREE : List RomWord :=
  [0x0B01#13, 0x0181#13, 0x0081#13, 0x1004#13, 0x0081#13, 0x1005#13, 0x1006#13, 0x0181#13] ++
  [0x0081#13, 0x1007#13, 0x0081#13, 0x1008#13, 0x1009#13, 0x0181#13, 0x0081#13, 0x100A#13] ++
  [0x0081#13, 0x100B#13, 0x100C#13, 0x0181#13, 0x0081#13, 0x1019#13, 0x0081#13, 0x100D#13] ++
  [0x100E#13, 0x0181#13, 0x0081#13, 0x100F#13, 0x0081#13, 0x1010#13, 0x1011#13, 0x0181#13] ++
  [0x0081#13, 0x1012#13, 0x0081#13, 0x1013#13, 0x1014#13, 0x0101#13, 0x0081#13, 0x1015#13] ++
  [0x1016#13, 0x0081#13, 0x1017#13, 0x1018#13, 0x0081#13, 0x1002#13, 0x1003#13]

/-- OTREE in the ROM form (R85), 63 words. -/
def OTREE : List RomWord :=
  [0x0F81#13, 0x0301#13, 0x0101#13, 0x0081#13, 0x1001#13, 0x1002#13, 0x0101#13, 0x0081#13] ++
  [0x1003#13, 0x1004#13, 0x0081#13, 0x1005#13, 0x1006#13, 0x0481#13, 0x0201#13, 0x0101#13] ++
  [0x0081#13, 0x1007#13, 0x1008#13, 0x0081#13, 0x1009#13, 0x100A#13, 0x0101#13, 0x0081#13] ++
  [0x100B#13, 0x100C#13, 0x0081#13, 0x100D#13, 0x0081#13, 0x100E#13, 0x100F#13, 0x0401#13] ++
  [0x0201#13, 0x0101#13, 0x0081#13, 0x1010#13, 0x1011#13, 0x0081#13, 0x1012#13, 0x1013#13] ++
  [0x0101#13, 0x0081#13, 0x1014#13, 0x1015#13, 0x0081#13, 0x1016#13, 0x1017#13, 0x0201#13] ++
  [0x0101#13, 0x0081#13, 0x1018#13, 0x1019#13, 0x0081#13, 0x101A#13, 0x101B#13, 0x0101#13] ++
  [0x0081#13, 0x101C#13, 0x101D#13, 0x0081#13, 0x101E#13, 0x101F#13, 0x1000#13]

/-- Bit 12 of a ROM word marks a leaf (R84). -/
def romIsLeaf (w : RomWord) : Bool := w.getLsbD 12

/-- Bits 4 to 0 of a leaf word hold its value (R84). -/
def romValue (w : RomWord) : Sym := w.extractLsb' 0 5

/-- The relative reference a bit selects: `d0` in bits 5 to 0, `d1` in bits 11 to 6 (R84). No swap at any node (R87). -/
def romDisplacement (w : RomWord) (b : Bool) : Nat :=
  if b then (w.extractLsb' 6 6).toNat else (w.extractLsb' 0 6).toNat

/-- The node a bit selects from node `i`; a displacement of 0 means the reference is absent (R84). -/
def romChild (w : RomWord) (i : Nat) (b : Bool) : Option Nat :=
  if romDisplacement w b = 0 then none else some (i + romDisplacement w b)

/-- A leaf word (R84). -/
def leafWord (v : Sym) : RomWord := 0x1000#13 ||| v.setWidth 13

/-- An internal word with the two displacements (R84). -/
def internalWord (d0 d1 : Nat) : RomWord := BitVec.ofNat 13 (d0 + 64 * d1)

/-- How many nodes a tree has (an absent reference is no node). -/
def treeSize : PrefixTree → Nat
  | .absent => 0
  | .leaf _ => 1
  | .internal z o => 1 + treeSize z + treeSize o

/-- The displacement of a child that stands `d` nodes further: 0 if the child is absent (R84). -/
def childDisplacement (child : PrefixTree) (d : Nat) : Nat :=
  match child with
  | .absent => 0
  | .leaf _ => d
  | .internal _ _ => d

/-- The ROM image of a tree: preorder, each node before its onZero subtree before its onOne subtree (R84). -/
def treeRom : PrefixTree → List RomWord
  | .absent => []
  | .leaf v => [leafWord v]
  | .internal z o =>
    internalWord (childDisplacement z 1) (childDisplacement o (1 + treeSize z)) :: (treeRom z ++ treeRom o)

/-- Add the code `bits` with its value to a tree (the binary trie of the codes, R80). -/
def treeInsert (v : Sym) : List Bool → PrefixTree → PrefixTree
  | [], _ => .leaf v
  | b :: bs, .internal z o => if b then .internal z (treeInsert v bs o) else .internal (treeInsert v bs z) o
  | b :: bs, .absent => if b then .internal .absent (treeInsert v bs .absent) else .internal (treeInsert v bs .absent) .absent
  | b :: bs, .leaf _ => if b then .internal .absent (treeInsert v bs .absent) else .internal (treeInsert v bs .absent) .absent

/-- The binary trie of a code table (R80: "the tree is the binary trie of the codes"). -/
def treeOfCodes (table : List Code) : PrefixTree :=
  table.foldl (fun t c => treeInsert (BitVec.ofNat 5 c.value) (rowBits c) t) .absent

/-- The default trees (R80, R81; log 1). -/
def defaultTrees : Trees := ⟨treeOfCodes lengthCodes, treeOfCodes offsetCodes⟩

/-! ## Which trees a block may use (R86) -/

/-- The codes of a tree with their values, in preorder: one for each leaf. -/
def treePaths : PrefixTree → List (List Bool × Sym)
  | .absent => []
  | .leaf v => [([], v)]
  | .internal z o =>
    (treePaths z).map (fun x => (false :: x.1, x.2)) ++ (treePaths o).map (fun x => (true :: x.1, x.2))

/-- The root is an internal node (R86 c). -/
def rootInternal : PrefixTree → Bool
  | .absent => false
  | .leaf _ => false
  | .internal _ _ => true

/-- Leaf values a length tree may hold (R86 d). -/
def lengthValueOk (v : Sym) : Bool := decide (2 ≤ v.toNat) && decide (v.toNat ≤ 25)

/-- Leaf values an offset tree may hold (R86 d). -/
def offsetValueOk (v : Sym) : Bool := decide (v.toNat ≤ 31)

/-- A tree the block may use as LTREE (R86): the root is internal, leaf values lie in 2 to 25, exactly one leaf holds 25. That
the tree is finite and no graph (a, b) is its type's. An absent reference is allowed (R88). -/
def lengthTreeUsable (t : PrefixTree) : Bool :=
  rootInternal t && (treePaths t).all (fun x => lengthValueOk x.2) &&
    decide (((treePaths t).filter (fun x => decide (x.2 = sentinel))).length = 1)

/-- A tree the block may use as OTREE (R86): the root is internal, leaf values lie in 0 to 31. -/
def offsetTreeUsable (t : PrefixTree) : Bool := rootInternal t && (treePaths t).all (fun x => offsetValueOk x.2)

/-- Both tree parameters may be used by the block (R86). -/
def treesUsable (T : Trees) : Bool := lengthTreeUsable T.L && offsetTreeUsable T.O

end Sys2Proof.Machine
end

