-- ==== Sys2Proof/Syntax.lean ====
section
/-! DEFINITION. The stream instructions of opcode_table.json, one constructor per row (30_encoding.md R51, R63, R64). The 32 rows
OFFHI_0 to OFFHI_31 are the codes of the `off` operand item of formats D and X; they have constructors because the table
lists them, and the stream decoder never gives one as a stream instruction (log 13). -/

namespace Sys2Proof

inductive Instr where
  /-- LIT, format L, DECRYPT = 0 (R92). -/
  | lit (e : Byte)
  /-- LITX, format L, DECRYPT = 1 (R93). -/
  | litx (e : Byte)
  /-- DUP2, format D2 (R101). -/
  | dup2 (lsb : Byte)
  /-- DUP3, format D (R102). -/
  | dup3 (msb : Sym) (lsb : Byte)
  /-- DUP4, format D (R102). -/
  | dup4 (msb : Sym) (lsb : Byte)
  /-- DUP5, format D (R102). -/
  | dup5 (msb : Sym) (lsb : Byte)
  /-- DUP6, format D (R102). -/
  | dup6 (msb : Sym) (lsb : Byte)
  /-- DUP7, format D (R102). -/
  | dup7 (msb : Sym) (lsb : Byte)
  /-- DUP8, format D (R102). -/
  | dup8 (msb : Sym) (lsb : Byte)
  /-- DUP9, format D (R102). -/
  | dup9 (msb : Sym) (lsb : Byte)
  /-- DUP10, format D (R102). -/
  | dup10 (msb : Sym) (lsb : Byte)
  /-- DUP11, format D (R102). -/
  | dup11 (msb : Sym) (lsb : Byte)
  /-- DUP12, format D (R102). -/
  | dup12 (msb : Sym) (lsb : Byte)
  /-- DUP13, format D (R102). -/
  | dup13 (msb : Sym) (lsb : Byte)
  /-- DUP14, format D (R102). -/
  | dup14 (msb : Sym) (lsb : Byte)
  /-- DUP15, format D (R102). -/
  | dup15 (msb : Sym) (lsb : Byte)
  /-- DUP16, format D (R102). -/
  | dup16 (msb : Sym) (lsb : Byte)
  /-- DUP17, format D (R102). -/
  | dup17 (msb : Sym) (lsb : Byte)
  /-- DUP18, format D (R102). -/
  | dup18 (msb : Sym) (lsb : Byte)
  /-- DUP19, format D (R102). -/
  | dup19 (msb : Sym) (lsb : Byte)
  /-- DUP20, format D (R102). -/
  | dup20 (msb : Sym) (lsb : Byte)
  /-- DUP21, format D (R102). -/
  | dup21 (msb : Sym) (lsb : Byte)
  /-- DUP22, format D (R102). -/
  | dup22 (msb : Sym) (lsb : Byte)
  /-- DUP23, format D (R102). -/
  | dup23 (msb : Sym) (lsb : Byte)
  /-- DUP24, format D (R102). -/
  | dup24 (msb : Sym) (lsb : Byte)
  /-- DUPX, format X: escape byte `b`, 0x00 to 0xFD (R104). -/
  | dupx (b : Byte) (msb : Sym) (lsb : Byte)
  /-- SKIP, format E, escape byte 0xFE (R110). -/
  | skip
  /-- END, format E, escape byte 0xFF (R111). -/
  | endMark
  /-- OFFHI_0, the offset code whose value is 0 (R81). -/
  | offhi0
  /-- OFFHI_1, the offset code whose value is 1 (R81). -/
  | offhi1
  /-- OFFHI_2, the offset code whose value is 2 (R81). -/
  | offhi2
  /-- OFFHI_3, the offset code whose value is 3 (R81). -/
  | offhi3
  /-- OFFHI_4, the offset code whose value is 4 (R81). -/
  | offhi4
  /-- OFFHI_5, the offset code whose value is 5 (R81). -/
  | offhi5
  /-- OFFHI_6, the offset code whose value is 6 (R81). -/
  | offhi6
  /-- OFFHI_7, the offset code whose value is 7 (R81). -/
  | offhi7
  /-- OFFHI_8, the offset code whose value is 8 (R81). -/
  | offhi8
  /-- OFFHI_9, the offset code whose value is 9 (R81). -/
  | offhi9
  /-- OFFHI_10, the offset code whose value is 10 (R81). -/
  | offhi10
  /-- OFFHI_11, the offset code whose value is 11 (R81). -/
  | offhi11
  /-- OFFHI_12, the offset code whose value is 12 (R81). -/
  | offhi12
  /-- OFFHI_13, the offset code whose value is 13 (R81). -/
  | offhi13
  /-- OFFHI_14, the offset code whose value is 14 (R81). -/
  | offhi14
  /-- OFFHI_15, the offset code whose value is 15 (R81). -/
  | offhi15
  /-- OFFHI_16, the offset code whose value is 16 (R81). -/
  | offhi16
  /-- OFFHI_17, the offset code whose value is 17 (R81). -/
  | offhi17
  /-- OFFHI_18, the offset code whose value is 18 (R81). -/
  | offhi18
  /-- OFFHI_19, the offset code whose value is 19 (R81). -/
  | offhi19
  /-- OFFHI_20, the offset code whose value is 20 (R81). -/
  | offhi20
  /-- OFFHI_21, the offset code whose value is 21 (R81). -/
  | offhi21
  /-- OFFHI_22, the offset code whose value is 22 (R81). -/
  | offhi22
  /-- OFFHI_23, the offset code whose value is 23 (R81). -/
  | offhi23
  /-- OFFHI_24, the offset code whose value is 24 (R81). -/
  | offhi24
  /-- OFFHI_25, the offset code whose value is 25 (R81). -/
  | offhi25
  /-- OFFHI_26, the offset code whose value is 26 (R81). -/
  | offhi26
  /-- OFFHI_27, the offset code whose value is 27 (R81). -/
  | offhi27
  /-- OFFHI_28, the offset code whose value is 28 (R81). -/
  | offhi28
  /-- OFFHI_29, the offset code whose value is 29 (R81). -/
  | offhi29
  /-- OFFHI_30, the offset code whose value is 30 (R81). -/
  | offhi30
  /-- OFFHI_31, the offset code whose value is 31 (R81). -/
  | offhi31
  deriving DecidableEq, Repr

end Sys2Proof
end

