-- ==== Sys2Proof/WellFormed.lean ====
section
/-! DEFINITION. Well-formed instructions: what an instruction's encoding admits (30_encoding.md R51, R60, R64). Operand widths are
carried by the types; the one check left is DUPX's escape byte, which is at most 0xFD because 0xFE and 0xFF select SKIP
and END (R103). Beside it: which rows are stream instructions, and which DECRYPT value a row needs (R62, R63). -/

namespace Sys2Proof

/-- The row's operands are ones its encoding admits. -/
def Instr.wf : Instr → Bool
  | .lit _ => true
  | .litx _ => true
  | .dup2 _ => true
  | .dup3 _ _ => true
  | .dup4 _ _ => true
  | .dup5 _ _ => true
  | .dup6 _ _ => true
  | .dup7 _ _ => true
  | .dup8 _ _ => true
  | .dup9 _ _ => true
  | .dup10 _ _ => true
  | .dup11 _ _ => true
  | .dup12 _ _ => true
  | .dup13 _ _ => true
  | .dup14 _ _ => true
  | .dup15 _ _ => true
  | .dup16 _ _ => true
  | .dup17 _ _ => true
  | .dup18 _ _ => true
  | .dup19 _ _ => true
  | .dup20 _ _ => true
  | .dup21 _ _ => true
  | .dup22 _ _ => true
  | .dup23 _ _ => true
  | .dup24 _ _ => true
  | .dupx b _ _ => decide (b.toNat ≤ 0xFD)
  | .skip => true
  | .endMark => true
  | .offhi0 => true
  | .offhi1 => true
  | .offhi2 => true
  | .offhi3 => true
  | .offhi4 => true
  | .offhi5 => true
  | .offhi6 => true
  | .offhi7 => true
  | .offhi8 => true
  | .offhi9 => true
  | .offhi10 => true
  | .offhi11 => true
  | .offhi12 => true
  | .offhi13 => true
  | .offhi14 => true
  | .offhi15 => true
  | .offhi16 => true
  | .offhi17 => true
  | .offhi18 => true
  | .offhi19 => true
  | .offhi20 => true
  | .offhi21 => true
  | .offhi22 => true
  | .offhi23 => true
  | .offhi24 => true
  | .offhi25 => true
  | .offhi26 => true
  | .offhi27 => true
  | .offhi28 => true
  | .offhi29 => true
  | .offhi30 => true
  | .offhi31 => true

/-- The value of MSB that an offset-code row delivers (R81: offset_high); none for a stream instruction. -/
def Instr.offHigh : Instr → Option Sym
  | .lit _ => none
  | .litx _ => none
  | .dup2 _ => none
  | .dup3 _ _ => none
  | .dup4 _ _ => none
  | .dup5 _ _ => none
  | .dup6 _ _ => none
  | .dup7 _ _ => none
  | .dup8 _ _ => none
  | .dup9 _ _ => none
  | .dup10 _ _ => none
  | .dup11 _ _ => none
  | .dup12 _ _ => none
  | .dup13 _ _ => none
  | .dup14 _ _ => none
  | .dup15 _ _ => none
  | .dup16 _ _ => none
  | .dup17 _ _ => none
  | .dup18 _ _ => none
  | .dup19 _ _ => none
  | .dup20 _ _ => none
  | .dup21 _ _ => none
  | .dup22 _ _ => none
  | .dup23 _ _ => none
  | .dup24 _ _ => none
  | .dupx _ _ _ => none
  | .skip => none
  | .endMark => none
  | .offhi0 => some 0#5
  | .offhi1 => some 1#5
  | .offhi2 => some 2#5
  | .offhi3 => some 3#5
  | .offhi4 => some 4#5
  | .offhi5 => some 5#5
  | .offhi6 => some 6#5
  | .offhi7 => some 7#5
  | .offhi8 => some 8#5
  | .offhi9 => some 9#5
  | .offhi10 => some 10#5
  | .offhi11 => some 11#5
  | .offhi12 => some 12#5
  | .offhi13 => some 13#5
  | .offhi14 => some 14#5
  | .offhi15 => some 15#5
  | .offhi16 => some 16#5
  | .offhi17 => some 17#5
  | .offhi18 => some 18#5
  | .offhi19 => some 19#5
  | .offhi20 => some 20#5
  | .offhi21 => some 21#5
  | .offhi22 => some 22#5
  | .offhi23 => some 23#5
  | .offhi24 => some 24#5
  | .offhi25 => some 25#5
  | .offhi26 => some 26#5
  | .offhi27 => some 27#5
  | .offhi28 => some 28#5
  | .offhi29 => some 29#5
  | .offhi30 => some 30#5
  | .offhi31 => some 31#5

/-- The row is a stream instruction, not an offset-code operand row (R63). -/
def Instr.isStream (i : Instr) : Bool := i.offHigh.isNone

/-- The row may be executed in a call with this DECRYPT (R62, R63: mode): only LIT and LITX depend on it. -/
def Instr.modeOk (decrypt : Bool) : Instr → Bool
  | .lit _ => !decrypt
  | .litx _ => decrypt
  | .dup2 _ => true
  | .dup3 _ _ => true
  | .dup4 _ _ => true
  | .dup5 _ _ => true
  | .dup6 _ _ => true
  | .dup7 _ _ => true
  | .dup8 _ _ => true
  | .dup9 _ _ => true
  | .dup10 _ _ => true
  | .dup11 _ _ => true
  | .dup12 _ _ => true
  | .dup13 _ _ => true
  | .dup14 _ _ => true
  | .dup15 _ _ => true
  | .dup16 _ _ => true
  | .dup17 _ _ => true
  | .dup18 _ _ => true
  | .dup19 _ _ => true
  | .dup20 _ _ => true
  | .dup21 _ _ => true
  | .dup22 _ _ => true
  | .dup23 _ _ => true
  | .dup24 _ _ => true
  | .dupx _ _ _ => true
  | .skip => true
  | .endMark => true
  | .offhi0 => true
  | .offhi1 => true
  | .offhi2 => true
  | .offhi3 => true
  | .offhi4 => true
  | .offhi5 => true
  | .offhi6 => true
  | .offhi7 => true
  | .offhi8 => true
  | .offhi9 => true
  | .offhi10 => true
  | .offhi11 => true
  | .offhi12 => true
  | .offhi13 => true
  | .offhi14 => true
  | .offhi15 => true
  | .offhi16 => true
  | .offhi17 => true
  | .offhi18 => true
  | .offhi19 => true
  | .offhi20 => true
  | .offhi21 => true
  | .offhi22 => true
  | .offhi23 => true
  | .offhi24 => true
  | .offhi25 => true
  | .offhi26 => true
  | .offhi27 => true
  | .offhi28 => true
  | .offhi29 => true
  | .offhi30 => true
  | .offhi31 => true

end Sys2Proof
end

