-- ==== Sys2Proof/Decode.lean ====
section
/-! DEFINITION. The bitstream reader (40_bitstream_reader.md), the prefix-tree decoder (41_prefix_decoder.md) and the decoder of stream
instructions (30_encoding.md R50 to R54, the reads of R90, R92, R93 and R100); after them the encoder (R51, R55, R56) and
the assembler (R66).

A stream instruction is no contiguous run of bytes: it is a sequence of bit-channel and byte-channel items (R50), so the
decoder reads a stream through a cursor and a window, as the block does. It is total on any input: it answers an
instruction, or rejects by name with the registers as the failing read left them. Every read of an instruction precedes
every other effect of it (R92, R100, R113), so reading all operands first and executing then is the spec's order (log 18). -/

namespace Sys2Proof

/-- Why a stream does not decode. -/
inductive Reject where
  /-- A bit or byte was requested past the end of the input (R74, R121). -/
  | endOfInput
  /-- A tree walk met an absent reference (R82, R88), or, which R86 rules out, a length value no instruction has (log 16). -/
  | absentNode
  deriving DecidableEq, Repr

/-- The compressed input of a call: its bytes and INLEN (R31). -/
structure Input where
  cells : Memory
  len   : Nat
  deriving DecidableEq, Repr

/-- The registers the reading front end writes: the stream position (R11, R13) and the transient registers that hold what
was read (R19). -/
structure Reader where
  /-- The bit window (R11). -/
  WIN  : Window
  /-- How many bits of WIN are consumed (R11). -/
  CNT  : Fin 16
  /-- Index in IN of the next byte (R11). -/
  ICUR : Nat
  /-- The node a tree walk stands at (R19). -/
  NODE : Nat
  /-- The decoded length symbol (R19). -/
  SYM  : Sym
  /-- The escape byte (R19). -/
  ESC  : Byte
  /-- The copy count (R19). -/
  CC   : Count
  /-- The high byte of the offset (R19). -/
  MSB  : Sym
  /-- The low byte of the offset (R19). -/
  LSB  : Byte
  /-- The decryption key (R19). -/
  KEY  : Byte
  /-- The raw literal byte (R19). -/
  EB   : Byte
  deriving DecidableEq, Repr

/-- What a read answers: a value, or a rejection; both with the registers after it. -/
inductive ReadResult (α : Type) where
  | got (a : α) (r : Reader)
  | stop (e : Reject) (r : Reader)
  deriving DecidableEq, Repr

/-- Go on from a read; a rejection ends everything (R124). -/
def ReadResult.andThen {α β : Type} (x : ReadResult α) (f : α → Reader → ReadResult β) : ReadResult β :=
  match x with
  | .got a r => f a r
  | .stop e r => .stop e r

/-- `MemRead(IN, a, 1)`; a cell below INLEN that the host has not placed holds a free value (log 8). -/
def Input.byte (m : Input) (a : Nat) : Byte := (Memory.read m.cells a).getD (Config.unplacedByte a)

/-- The window at index `a`: little-endian (R34). -/
def Input.window (m : Input) (a : Nat) : Window := (m.byte a).setWidth 16 ||| ((m.byte (a + 1)).setWidth 16 <<< 8)

/-- The input that holds just these bytes. -/
def Input.ofBytes (bs : List Byte) : Input := ⟨Memory.ofBytes 0 bs, bs.length⟩

/-- NextBit (R71): the next bit of the window, with the eager reload. -/
def nextBit (m : Input) (r : Reader) : ReadResult Bool :=
  if r.CNT = 15 then
    if r.ICUR + 2 > m.len then .stop .endOfInput r
    else .got (r.WIN.getLsbD r.CNT.val) { r with WIN := m.window r.ICUR, ICUR := r.ICUR + 2, CNT := 0 }
  else .got (r.WIN.getLsbD r.CNT.val) { r with CNT := r.CNT + 1 }

/-- NextByte (R72). -/
def nextByte (m : Input) (r : Reader) : ReadResult Byte :=
  if r.ICUR ≥ m.len then .stop .endOfInput r
  else .got (m.byte r.ICUR) { r with ICUR := r.ICUR + 1 }

/-- The walk of Decode(T) (R82) from a node, whose index in preorder (R84) is `n`: NODE is the node the walk stands at. -/
def walkTree (m : Input) : PrefixTree → Nat → Reader → ReadResult Sym
  | .absent, _, r => .stop .absentNode r
  | .leaf v, n, r => .got v { r with NODE := n }
  | .internal z o, n, r =>
    (nextBit m { r with NODE := n }).andThen fun b r1 =>
      if b then walkTree m o (n + 1 + Machine.treeSize z) r1 else walkTree m z (n + 1) r1

/-- Decode(T) (R82): the walk from the root, node 0. -/
def decodeSym (T : PrefixTree) (m : Input) (r : Reader) : ReadResult Sym := walkTree m T 0 { r with NODE := 0 }

/-- The same walk over a ROM, the form of a hardware build (R84), from the node NODE. The number bounds the nodes visited: no
walk of a tree visits more nodes than it has. The model's decoder does not use it ("needs no ROM", R83). -/
def walkRom (T : List RomWord) (m : Input) : Nat → Reader → ReadResult Sym
  | 0, r => .stop .absentNode r
  | k + 1, r =>
    match T[r.NODE]? with
    | none => .stop .absentNode r
    | some w =>
      if Machine.romIsLeaf w then .got (Machine.romValue w) r
      else
        (nextBit m r).andThen fun b r1 =>
          match Machine.romChild w r.NODE b with
          | none => .stop .absentNode r1
          | some n => walkRom T m k { r1 with NODE := n }

/-- Decode(T) on a ROM: the walk from the root, node 0. -/
def decodeRom (T : List RomWord) (m : Input) (r : Reader) : ReadResult Sym :=
  walkRom T m (T.length + 1) { r with NODE := 0 }

/-- The offset-code row of a value (R56, R81). -/
def offsetRow (v : Sym) : Instr :=
  match v.toNat with
  | 0 => .offhi0
  | 1 => .offhi1
  | 2 => .offhi2
  | 3 => .offhi3
  | 4 => .offhi4
  | 5 => .offhi5
  | 6 => .offhi6
  | 7 => .offhi7
  | 8 => .offhi8
  | 9 => .offhi9
  | 10 => .offhi10
  | 11 => .offhi11
  | 12 => .offhi12
  | 13 => .offhi13
  | 14 => .offhi14
  | 15 => .offhi15
  | 16 => .offhi16
  | 17 => .offhi17
  | 18 => .offhi18
  | 19 => .offhi19
  | 20 => .offhi20
  | 21 => .offhi21
  | 22 => .offhi22
  | 23 => .offhi23
  | 24 => .offhi24
  | 25 => .offhi25
  | 26 => .offhi26
  | 27 => .offhi27
  | 28 => .offhi28
  | 29 => .offhi29
  | 30 => .offhi30
  | _ => .offhi31

/-- One `off` item: the offset-code row the stream holds next (R51, R63). -/
def decodeOffset (T : Trees) (m : Input) (r : Reader) : ReadResult Instr :=
  (decodeSym T.O m r).andThen fun v r1 => .got (offsetRow v) r1

/-- The format-D instruction of a length symbol (R53, R102); none for a symbol no such row has. -/
def dupRow (sym msb : Sym) (lsb : Byte) : Option Instr :=
  match sym.toNat with
  | 3 => some (.dup3 msb lsb)
  | 4 => some (.dup4 msb lsb)
  | 5 => some (.dup5 msb lsb)
  | 6 => some (.dup6 msb lsb)
  | 7 => some (.dup7 msb lsb)
  | 8 => some (.dup8 msb lsb)
  | 9 => some (.dup9 msb lsb)
  | 10 => some (.dup10 msb lsb)
  | 11 => some (.dup11 msb lsb)
  | 12 => some (.dup12 msb lsb)
  | 13 => some (.dup13 msb lsb)
  | 14 => some (.dup14 msb lsb)
  | 15 => some (.dup15 msb lsb)
  | 16 => some (.dup16 msb lsb)
  | 17 => some (.dup17 msb lsb)
  | 18 => some (.dup18 msb lsb)
  | 19 => some (.dup19 msb lsb)
  | 20 => some (.dup20 msb lsb)
  | 21 => some (.dup21 msb lsb)
  | 22 => some (.dup22 msb lsb)
  | 23 => some (.dup23 msb lsb)
  | 24 => some (.dup24 msb lsb)
  | _ => none

/-- Steps d and e of DUP: an offset code into MSB, then the low byte into LSB (R100). -/
def readOffset (T : Trees) (m : Input) (r : Reader) : ReadResult (Sym × Byte) :=
  (decodeSym T.O m r).andThen fun msb r1 =>
    (nextByte m { r1 with MSB := msb }).andThen fun lsb r2 => .got (msb, lsb) { r2 with LSB := lsb }

/-- Format L after its control bit (R52, R92, R93): the key of LITX is formed before the byte is read. -/
def decodeLiteral (decrypt : Bool) (m : Input) (r : Reader) : ReadResult Instr :=
  if decrypt then
    (nextByte m { r with KEY := Machine.literalKey r.CNT }).andThen fun e r1 => .got (.litx e) { r1 with EB := e }
  else (nextByte m r).andThen fun e r1 => .got (.lit e) { r1 with EB := e }

/-- Formats X and E after the sentinel symbol: the escape dispatch (R54, R103). -/
def decodeEscape (T : Trees) (m : Input) (r : Reader) : ReadResult Instr :=
  (nextByte m r).andThen fun b r1 =>
    if b = Machine.escSkip then .got .skip { r1 with ESC := b }
    else if b = Machine.escEnd then .got .endMark { r1 with ESC := b }
    else
      (readOffset T m { r1 with ESC := b, CC := Machine.countOfEscape b }).andThen fun o r2 => .got (.dupx b o.1 o.2) r2

/-- Format D2 after its length code: MSB is 0, then the low byte (R53, R101). -/
def decodeShort (m : Input) (r : Reader) : ReadResult Instr :=
  (nextByte m { r with CC := Machine.countOfSym Machine.shortSym, MSB := 0 }).andThen fun lsb r1 =>
    .got (.dup2 lsb) { r1 with LSB := lsb }

/-- Format D after its length code (R53, R102). A length value that no row has is rejected before anything more is read. -/
def decodePlain (T : Trees) (m : Input) (sym : Sym) (r : Reader) : ReadResult Instr :=
  match dupRow sym 0 0 with
  | none => .stop .absentNode r
  | some _ =>
    (readOffset T m { r with CC := Machine.countOfSym sym }).andThen fun o r1 =>
      match dupRow sym o.1 o.2 with
      | none => .stop .absentNode r1
      | some i => .got i r1

/-- What follows a control bit of 1: the reads of DUP (R100). -/
def decodeDup (T : Trees) (m : Input) (r : Reader) : ReadResult Instr :=
  (decodeSym T.L m r).andThen fun sym r1 =>
    if sym = Machine.sentinel then decodeEscape T m { r1 with SYM := sym }
    else if sym = Machine.shortSym then decodeShort m { r1 with SYM := sym }
    else decodePlain T m sym { r1 with SYM := sym }

/-- One stream instruction, for any trees: control bit, then literal or duplication (R51, R90). -/
def decodeWith (T : Trees) (decrypt : Bool) (m : Input) (r : Reader) : ReadResult Instr :=
  (nextBit m r).andThen fun c r1 => if c then decodeDup T m r1 else decodeLiteral decrypt m r1

/-- One stream instruction, with the default trees. -/
def decode (decrypt : Bool) (m : Input) (r : Reader) : ReadResult Instr := decodeWith Machine.defaultTrees decrypt m r

/-- The reader right after Init() on an input, its transient registers 0 (R70). -/
def Reader.start (m : Input) : Reader :=
  { WIN := m.window 0, CNT := 0, ICUR := 2, NODE := 0, SYM := 0, ESC := 0, CC := 0, MSB := 0, LSB := 0, KEY := 0, EB := 0 }

/-- The two readers stand at the same stream position (R13). -/
def Reader.samePosition (r q : Reader) : Prop := r.WIN = q.WIN ∧ r.CNT = q.CNT ∧ r.ICUR = q.ICUR

/-! ## The encoder -/

/-- One item of a stream (R50, R51): a bit of the bit channel or a byte of the byte channel. -/
inductive Item where
  | bit (b : Bool)
  | byte (v : Byte)
  deriving DecidableEq, Repr

/-- A code as bit-channel items. -/
def bitItems (bs : List Bool) : List Item := bs.map .bit

/-- The items of a format-D instruction: `1` `len` `off` `[lsb]` (R51). -/
def itemsD (n : Nat) (msb : Sym) (lsb : Byte) : List Item :=
  .bit true :: bitItems (Machine.codeOf Machine.lengthCodes n) ++ bitItems (Machine.codeOf Machine.offsetCodes msb.toNat) ++
    [.byte lsb]

/-- The control bit and the sentinel's length code: `1` `011100` (R51). -/
def itemsSentinel : List Item := .bit true :: bitItems (Machine.codeOf Machine.lengthCodes 25)

/-- The items of an instruction in consumption order (R51, R55, R56); an offset-code row is its code. -/
def encode : Instr → List Item
  | .lit e => [.bit false, .byte e]
  | .litx e => [.bit false, .byte e]
  | .dup2 lsb => .bit true :: bitItems (Machine.codeOf Machine.lengthCodes 2) ++ [.byte lsb]
  | .dup3 msb lsb => itemsD 3 msb lsb
  | .dup4 msb lsb => itemsD 4 msb lsb
  | .dup5 msb lsb => itemsD 5 msb lsb
  | .dup6 msb lsb => itemsD 6 msb lsb
  | .dup7 msb lsb => itemsD 7 msb lsb
  | .dup8 msb lsb => itemsD 8 msb lsb
  | .dup9 msb lsb => itemsD 9 msb lsb
  | .dup10 msb lsb => itemsD 10 msb lsb
  | .dup11 msb lsb => itemsD 11 msb lsb
  | .dup12 msb lsb => itemsD 12 msb lsb
  | .dup13 msb lsb => itemsD 13 msb lsb
  | .dup14 msb lsb => itemsD 14 msb lsb
  | .dup15 msb lsb => itemsD 15 msb lsb
  | .dup16 msb lsb => itemsD 16 msb lsb
  | .dup17 msb lsb => itemsD 17 msb lsb
  | .dup18 msb lsb => itemsD 18 msb lsb
  | .dup19 msb lsb => itemsD 19 msb lsb
  | .dup20 msb lsb => itemsD 20 msb lsb
  | .dup21 msb lsb => itemsD 21 msb lsb
  | .dup22 msb lsb => itemsD 22 msb lsb
  | .dup23 msb lsb => itemsD 23 msb lsb
  | .dup24 msb lsb => itemsD 24 msb lsb
  | .dupx b msb lsb =>
    itemsSentinel ++ [.byte b] ++ bitItems (Machine.codeOf Machine.offsetCodes msb.toNat) ++ [.byte lsb]
  | .skip => itemsSentinel ++ [.byte Machine.escSkip]
  | .endMark => itemsSentinel ++ [.byte Machine.escEnd]
  | .offhi0 => bitItems (Machine.codeOf Machine.offsetCodes 0)
  | .offhi1 => bitItems (Machine.codeOf Machine.offsetCodes 1)
  | .offhi2 => bitItems (Machine.codeOf Machine.offsetCodes 2)
  | .offhi3 => bitItems (Machine.codeOf Machine.offsetCodes 3)
  | .offhi4 => bitItems (Machine.codeOf Machine.offsetCodes 4)
  | .offhi5 => bitItems (Machine.codeOf Machine.offsetCodes 5)
  | .offhi6 => bitItems (Machine.codeOf Machine.offsetCodes 6)
  | .offhi7 => bitItems (Machine.codeOf Machine.offsetCodes 7)
  | .offhi8 => bitItems (Machine.codeOf Machine.offsetCodes 8)
  | .offhi9 => bitItems (Machine.codeOf Machine.offsetCodes 9)
  | .offhi10 => bitItems (Machine.codeOf Machine.offsetCodes 10)
  | .offhi11 => bitItems (Machine.codeOf Machine.offsetCodes 11)
  | .offhi12 => bitItems (Machine.codeOf Machine.offsetCodes 12)
  | .offhi13 => bitItems (Machine.codeOf Machine.offsetCodes 13)
  | .offhi14 => bitItems (Machine.codeOf Machine.offsetCodes 14)
  | .offhi15 => bitItems (Machine.codeOf Machine.offsetCodes 15)
  | .offhi16 => bitItems (Machine.codeOf Machine.offsetCodes 16)
  | .offhi17 => bitItems (Machine.codeOf Machine.offsetCodes 17)
  | .offhi18 => bitItems (Machine.codeOf Machine.offsetCodes 18)
  | .offhi19 => bitItems (Machine.codeOf Machine.offsetCodes 19)
  | .offhi20 => bitItems (Machine.codeOf Machine.offsetCodes 20)
  | .offhi21 => bitItems (Machine.codeOf Machine.offsetCodes 21)
  | .offhi22 => bitItems (Machine.codeOf Machine.offsetCodes 22)
  | .offhi23 => bitItems (Machine.codeOf Machine.offsetCodes 23)
  | .offhi24 => bitItems (Machine.codeOf Machine.offsetCodes 24)
  | .offhi25 => bitItems (Machine.codeOf Machine.offsetCodes 25)
  | .offhi26 => bitItems (Machine.codeOf Machine.offsetCodes 26)
  | .offhi27 => bitItems (Machine.codeOf Machine.offsetCodes 27)
  | .offhi28 => bitItems (Machine.codeOf Machine.offsetCodes 28)
  | .offhi29 => bitItems (Machine.codeOf Machine.offsetCodes 29)
  | .offhi30 => bitItems (Machine.codeOf Machine.offsetCodes 30)
  | .offhi31 => bitItems (Machine.codeOf Machine.offsetCodes 31)

/-- How many bit-channel bits and byte-channel bytes a list of items holds (R51, R58). -/
def countItems : List Item → Nat × Nat
  | [] => (0, 0)
  | .bit _ :: is => ((countItems is).1 + 1, (countItems is).2)
  | .byte _ :: is => ((countItems is).1, (countItems is).2 + 1)

/-- Read items one after another: the reader after them if the stream delivers exactly these, none if it delivers another
value or ends (R50). -/
def feed (m : Input) : List Item → Reader → Option Reader
  | [], r => some r
  | .bit b :: is, r =>
    match nextBit m r with
    | .got c q => if c = b then feed m is q else none
    | .stop _ _ => none
  | .byte v :: is, r =>
    match nextByte m r with
    | .got c q => if c = v then feed m is q else none
    | .stop _ _ => none

/-- The state of the assembler (R66): the bytes so far, the index of the window being filled, the bits placed in it. -/
structure Layout where
  out  : List Byte
  slot : Nat
  c    : Nat
  deriving DecidableEq, Repr

/-- The assembler's start: the first window occupies bytes 0 and 1 (R66). -/
def layoutStart : Layout := ⟨[0, 0], 0, 0⟩

/-- The bytes with bit `c` of the window at `slot` set (R66). -/
def setWindowBit (out : List Byte) (slot c : Nat) : List Byte :=
  if c < 8 then out.modify slot (· ||| (1#8 <<< c)) else out.modify (slot + 1) (· ||| (1#8 <<< (c - 8)))

/-- PutBit (R66): place a bit; a full window makes room for the next one at once. -/
def putBit (b : Bool) (a : Layout) : Layout :=
  let out := if b then setWindowBit a.out a.slot a.c else a.out
  if a.c + 1 = 16 then ⟨out ++ [0, 0], out.length, 0⟩ else ⟨out, a.slot, a.c + 1⟩

/-- PutByte (R66). -/
def putByte (v : Byte) (a : Layout) : Layout := { a with out := a.out ++ [v] }

/-- Place items in order (R66). -/
def putItems : List Item → Layout → Layout
  | [], a => a
  | .bit b :: is, a => putItems is (putBit b a)
  | .byte v :: is, a => putItems is (putByte v a)

/-- The bytes of IN that hold these items (R66). -/
def assemble (items : List Item) : List Byte := (putItems items layoutStart).out

/-! ## A word of the opcode table -/

/-- Byte `k` of a bit list, first bit lowest (R35). -/
def packByte (bits : List Bool) (k : Nat) : Byte :=
  BitVec.ofNat 8 ((List.range 8).foldl (fun acc j => acc + (if bits.getD (8 * k + j) false then 2 ^ j else 0)) 0)

/-- The stream of a table word: its `nbits` bits, the table's leftmost first (log 14), in windows from IN[0] on, all later
window bits and all raw bytes 0. Only format D can reach a second window from here, and its window precedes its byte. -/
def tableStream (nbits w : Nat) : List Byte :=
  let bits := Machine.codeBits nbits w
  (List.range (2 * ((nbits + 15) / 16) + 8)).map (packByte bits)

/-- The instruction the decoder reads from a table word, in a call with DECRYPT = 0 of a block with the default trees, whose
codes the table's words are (R63; log 1). -/
def decodeTableWord (nbits w : Nat) : Option Instr :=
  let m := Input.ofBytes (tableStream nbits w)
  match decode false m (Reader.start m) with
  | .got i _ => some i
  | .stop _ _ => none

end Sys2Proof
end

