-- ==== Sys2Proof/Machine/State.lean ====
section
/-! DEFINITION. The state of the block as plain data: every register and memory of 10_state.md and 20_memory.md, the pending START
command, and the counter of the free values; the reasons a step can stop; the state at power-on (R24, R140). The stream
position and the transient registers the reading front end writes come from `Reader` (Sys2Proof/Decode.lean). What
R22 calls arguments of the step, the trees and IN, INLEN, OUTCAP, DECRYPT, are fields that no step writes: the step takes
one state and finds them there. -/

namespace Sys2Proof.Machine

/-- The call status ST (R16, R17). -/
inductive Status where
  /-- No session exists. -/
  | idle
  /-- A call is executing. -/
  | run
  /-- The call ended with success. -/
  | done
  /-- The call ended with an error. -/
  | err
  deriving DecidableEq, Repr

/-- The error kinds (R120); the register ERR is an optional one, none for NONE (R16, R17). -/
inductive ErrKind where
  /-- UnexpectedEndOfInput (R121). -/
  | eoi
  /-- CorruptStream (R122). -/
  | corrupt
  /-- BufferOverflow (R123). -/
  | ovf
  deriving DecidableEq, Repr

/-- The machine stops with a fault. The spec's own errors are no faults: they are taken (R124), see `abort` in Ops. -/
inductive Fault where
  /-- Raised by DUPX's meaning on an ill-formed term, one whose escape byte is 0xFE or 0xFF: those bytes select SKIP and
  END, so the stream format has no such instruction (R60, R103) and no decoded instruction is one. Safe: the decoder
  never gives such a term (log 17). -/
  | reservedEscape
  deriving DecidableEq, Repr

/-- No meaning. -/
inductive Refusal where
  /-- An instruction without a meaning yet; none is left. Safe. -/
  | notModelled (mnemonic : String)
  /-- Raised by the step when START is issued while ST = RUN, which is outside the contract (R18, R150, D25, U5).
  Safe: the model says nothing of such a host (log 5). -/
  | startWhileRunning
  /-- Raised by the step when START is issued with OUTCAP = 0, which is outside the contract (R15, D12, U4). Safe: the
  model says nothing of such a call (log 6). -/
  | zeroCapacity
  /-- Raised by the step when START is issued on a block whose tree parameters do not meet R86, which such a block may not
  use. Safe: the model says nothing of such a block (log 22). -/
  | unusableTrees
  deriving DecidableEq, Repr

/-- Everything the block holds. -/
structure State extends Reader where
  /-- The tree parameters LTREE and OTREE (R5, R22): fixed for a block, never written. -/
  trees     : Trees
  /-- The compressed input: the bytes the host has placed (R31). -/
  IN        : Memory
  /-- Number of bytes of IN (R15). -/
  INLEN     : Nat
  /-- Capacity of OUT (R15). -/
  OUTCAP    : Nat
  /-- Literals are decrypted (R15, R62). -/
  DECRYPT   : Bool
  /-- Call status (R16). -/
  ST        : Status
  /-- The error that ended the call; none is NONE (R16). -/
  ERR       : Option ErrKind
  /-- Number of bytes produced, valid when ST = DONE (R16). -/
  BYTECOUNT : Nat
  /-- Write cursor of OUT (R11). -/
  OPOS      : Nat
  /-- The output buffer: the bytes written so far, by this call or an earlier one (R32). -/
  OUT       : Memory
  /-- Backward distance (R19). -/
  OFF       : Offset
  /-- Read position of a copy (R19). -/
  SRC       : Nat
  /-- Bytes left to copy (R19). -/
  REM       : Nat
  /-- The host's START command, issued and not yet performed (R18; the model's own field, log 3). -/
  START     : Bool
  /-- How many free bytes have been drawn (the model's own field, log 7). -/
  draws     : Nat
  deriving DecidableEq, Repr

/-- Power-on of a block with these trees: ST = IDLE and ERR = NONE (R24, R140); every other register is unspecified there and
0 here (DESIGN CHOICE, log 2); no byte of IN or OUT is listed. -/
def State.powerOn (T : Trees) : State :=
  { trees := T, WIN := 0, CNT := 0, ICUR := 0, NODE := 0, SYM := 0, ESC := 0, CC := 0, MSB := 0, LSB := 0, KEY := 0, EB := 0
    IN := [], INLEN := 0, OUTCAP := 0, DECRYPT := false, ST := .idle, ERR := none, BYTECOUNT := 0, OPOS := 0, OUT := []
    OFF := 0, SRC := 0, REM := 0, START := false, draws := 0 }

/-- Power-on of the block with the default trees (R5; log 1). -/
def State.reset : State := State.powerOn defaultTrees

end Sys2Proof.Machine
end

