-- ==== Sys2Proof/Machine/Flags.lean ====
section
/-! DEFINITION. The block has no flags and no condition codes (10_state.md R14). What it tests instead: the capacity of OUT (R108),
the offset check (R106), and the status; and the numeric codes of ST and ERR (R17), with which no rule computes. -/

namespace Sys2Proof.Machine

/-- The test of Emit: no cell of OUT is left (R108). -/
def outFull (s : State) : Bool := decide (s.OPOS ≥ s.OUTCAP)

/-- The offset check: the source would precede the start of the output (R106). -/
def offsetTooFar (off : Offset) (s : State) : Bool := decide (off.toNat > s.OPOS)

/-- The number of ST (R17). -/
def statusCode : Status → BitVec 2
  | .idle => 0
  | .run => 1
  | .done => 2
  | .err => 3

/-- The number of ERR (R17). -/
def errCode : Option ErrKind → BitVec 2
  | none => 0
  | some .eoi => 1
  | some .corrupt => 2
  | some .ovf => 3

end Sys2Proof.Machine
end

