-- ==== Sys2Proof/Machine/Ops.lean ====
section
/-! DEFINITION. The shared operations: reading an output cell, Emit (R108), Copy (R107), taking an error (R124) and, beside it, START
with Init (R70, R141), which is the only way on from an ended call; fetching one stream instruction (R90). -/

namespace Sys2Proof.Machine

/-- What an operation inside a stream instruction answers: it completes, or it raises an error kind; both with the state
after it. -/
inductive Effect where
  | ok (s : State)
  | raise (k : ErrKind) (s : State)
  deriving DecidableEq, Repr

/-- Taking an error (R124): ERR <- K, ST <- ERR; whatever the instruction had done stands, and nothing else changes. There
is no handler, no saved state and no return (R127). -/
def abort (k : ErrKind) (s : State) : State := { s with ST := .err, ERR := some k }

/-- An instruction's outcome: an error that was raised is taken, in the same step. -/
def settle : Effect → Host.Outcome State Fault Refusal
  | .ok s => .next s
  | .raise k s => .next (abort k s)

/-- The input of the call in progress. -/
def inputOf (s : State) : Input := ⟨s.IN, s.INLEN⟩

/-- Put the front end's registers into the state. -/
def putReader (r : Reader) (s : State) : State := { s with toReader := r }

/-! ## START and Init -/

/-- Init() (R70): EOI when INLEN < 2, else the first window, ICUR 2, CNT 0, OPOS 0. OUT is not cleared (R24, D16). -/
def sessionInit (s : State) : Effect :=
  if s.INLEN < 2 then .raise .eoi s
  else .ok { s with WIN := (inputOf s).window 0, ICUR := 2, CNT := 0, OPOS := 0 }

/-- START (R18, R141): ST <- RUN, ERR <- NONE, then Init(). The command is used up. -/
def startCall (s : State) : Host.Outcome State Fault Refusal :=
  settle (sessionInit { s with ST := .run, ERR := none, START := false })

/-- A START that a block accepts by its status (R18): refused with OUTCAP = 0 (R15, U4, log 6) and with trees the block may
not use (R86, log 22), both outside the contract; else it is performed. -/
def acceptStart (s : State) : Host.Outcome State Fault Refusal :=
  if s.OUTCAP = 0 then .refused .zeroCapacity
  else if treesUsable s.trees then startCall s else .refused .unusableTrees

/-! ## The output buffer -/

/-- `MemRead(OUT, a, 1)` of a copy (R107): the byte written at `a` in this call. A cell at or above OPOS is not written in
this call, and what it holds is a free value, a fresh one at each read, whatever an earlier call left there (R23, R32,
R109, D13; log 7, log 9). -/
def readOut (a : Nat) (s : State) : Byte × State :=
  match if a < s.OPOS then Memory.read s.OUT a else none with
  | some b => (b, s)
  | none => (Config.freeByte s.draws, { s with draws := s.draws + 1 })

/-- Emit(v) (R108): the one place OUT is written and the capacity is checked. -/
def emit (v : Byte) (s : State) : Effect :=
  if outFull s then .raise .ovf s
  else .ok { s with OUT := Memory.write s.OUT s.OPOS v, OPOS := s.OPOS + 1 }

/-- One round of Copy's loop (R107). -/
def copyByte (s : State) : Effect :=
  match emit (readOut s.SRC s).1 (readOut s.SRC s).2 with
  | .ok t => .ok { t with SRC := t.SRC + 1, REM := t.REM - 1 }
  | .raise k t => .raise k t

/-- `n` rounds of Copy's loop: byte by byte and forward, each read after every earlier write (R42, R107). -/
def copyLoop : Nat → State → Effect
  | 0, s => .ok s
  | n + 1, s =>
    match copyByte s with
    | .ok t => copyLoop n t
    | .raise k t => .raise k t

/-- Copy(count, offset) (R107). -/
def copy (count offset : Nat) (s : State) : Effect :=
  copyLoop count { s with SRC := s.OPOS - offset, REM := count }

/-! ## What the duplication instructions share -/

/-- An offset code's value arrives in MSB (R100 step d). -/
def latchOffsetHigh (msb : Sym) (s : State) : State := { s with MSB := msb }

/-- The operands of a duplication in their registers: SYM, CC, MSB, LSB, OFF (R100 steps a to f). -/
def latchDup (sym : Sym) (cc : Count) (msb : Sym) (lsb : Byte) (s : State) : State :=
  { latchOffsetHigh msb s with SYM := sym, CC := cc, LSB := lsb, OFF := assembleOffset msb lsb }

/-- Steps g and h of DUP (R100): the offset check (R106), then the copy. -/
def checkAndCopy (s : State) : Effect :=
  if offsetTooFar s.OFF s then .raise .corrupt s else copy s.CC.toNat s.OFF.toNat s

/-- A duplication after its reads (R100 steps c to h). -/
def duplicate (sym : Sym) (cc : Count) (msb : Sym) (lsb : Byte) (s : State) : Host.Outcome State Fault Refusal :=
  settle (checkAndCopy (latchDup sym cc msb lsb s))

/-- The sentinel symbol and an escape byte in their registers (R100 step b). -/
def latchEscape (b : Byte) (s : State) : State := { s with SYM := sentinel, ESC := b }

/-! ## Fetch -/

/-- What fetching answers: an instruction and the state with its items consumed, or the error of a read and the state as
the failing read left it (R124). -/
inductive Fetched where
  | got (i : Instr) (s : State)
  | raised (k : ErrKind) (s : State)
  deriving DecidableEq, Repr

/-- The error kind of a rejection (R120 to R122). -/
def rejectKind : Reject → ErrKind
  | .endOfInput => .eoi
  | .absentNode => .corrupt

/-- Read one stream instruction at the stream position with the block's trees (R22, R90): its control bit and every operand. -/
def fetch (s : State) : Fetched :=
  match decodeWith s.trees s.DECRYPT (inputOf s) s.toReader with
  | .got i r => .got i (putReader r s)
  | .stop e r => .raised (rejectKind e) (putReader r s)

/-- Read one `off` item at the stream position: the operand row the stream holds next (R63, R82). -/
def fetchOffset (s : State) : Fetched :=
  match decodeOffset s.trees (inputOf s) s.toReader with
  | .got i r => .got i (putReader r s)
  | .stop e r => .raised (rejectKind e) (putReader r s)

/-! ## Loading a table word -/

/-- The state that runs the stream `bs` from its first instruction: the bytes in IN, their number in INLEN, a capacity that
meets the launch premise (R15, R143) and holds any one instruction's output, the default trees, whose codes the table's
words are, and the session as START leaves it (R24, R141). The host's load and the step that performs START, in one
(log 15). -/
def loadedRun (bs : List Byte) (s : State) : State :=
  { s with
    trees := defaultTrees
    IN := Memory.ofBytes 0 bs, INLEN := bs.length, OUTCAP := max s.OUTCAP maxCount, ST := .run, ERR := none, START := false
    WIN := (Input.ofBytes bs).window 0, ICUR := 2, CNT := 0, OPOS := 0 }

end Sys2Proof.Machine
end

