-- ==== Sys2Proof/Machine/Duplication.lean ====
section
/-! DEFINITION. The duplication family (43_duplication_and_copy.md R100 to R109): DUP2, DUP3 to DUP24, DUPX once their operands are
read. Each is the shared operation `duplicate` with its own symbol and count. -/

namespace Sys2Proof.Machine

/-- DUP2 (R101): count 2, MSB 0. -/
def execDup2 (lsb : Byte) (s : State) : Host.Outcome State Fault Refusal := duplicate 2#5 2#9 0#5 lsb s

/-- DUP3 (R102). -/
def execDup3 (msb : Sym) (lsb : Byte) (s : State) : Host.Outcome State Fault Refusal := duplicate 3#5 3#9 msb lsb s

/-- DUP4 (R102). -/
def execDup4 (msb : Sym) (lsb : Byte) (s : State) : Host.Outcome State Fault Refusal := duplicate 4#5 4#9 msb lsb s

/-- DUP5 (R102). -/
def execDup5 (msb : Sym) (lsb : Byte) (s : State) : Host.Outcome State Fault Refusal := duplicate 5#5 5#9 msb lsb s

/-- DUP6 (R102). -/
def execDup6 (msb : Sym) (lsb : Byte) (s : State) : Host.Outcome State Fault Refusal := duplicate 6#5 6#9 msb lsb s

/-- DUP7 (R102). -/
def execDup7 (msb : Sym) (lsb : Byte) (s : State) : Host.Outcome State Fault Refusal := duplicate 7#5 7#9 msb lsb s

/-- DUP8 (R102). -/
def execDup8 (msb : Sym) (lsb : Byte) (s : State) : Host.Outcome State Fault Refusal := duplicate 8#5 8#9 msb lsb s

/-- DUP9 (R102). -/
def execDup9 (msb : Sym) (lsb : Byte) (s : State) : Host.Outcome State Fault Refusal := duplicate 9#5 9#9 msb lsb s

/-- DUP10 (R102). -/
def execDup10 (msb : Sym) (lsb : Byte) (s : State) : Host.Outcome State Fault Refusal := duplicate 10#5 10#9 msb lsb s

/-- DUP11 (R102). -/
def execDup11 (msb : Sym) (lsb : Byte) (s : State) : Host.Outcome State Fault Refusal := duplicate 11#5 11#9 msb lsb s

/-- DUP12 (R102). -/
def execDup12 (msb : Sym) (lsb : Byte) (s : State) : Host.Outcome State Fault Refusal := duplicate 12#5 12#9 msb lsb s

/-- DUP13 (R102). -/
def execDup13 (msb : Sym) (lsb : Byte) (s : State) : Host.Outcome State Fault Refusal := duplicate 13#5 13#9 msb lsb s

/-- DUP14 (R102). -/
def execDup14 (msb : Sym) (lsb : Byte) (s : State) : Host.Outcome State Fault Refusal := duplicate 14#5 14#9 msb lsb s

/-- DUP15 (R102). -/
def execDup15 (msb : Sym) (lsb : Byte) (s : State) : Host.Outcome State Fault Refusal := duplicate 15#5 15#9 msb lsb s

/-- DUP16 (R102). -/
def execDup16 (msb : Sym) (lsb : Byte) (s : State) : Host.Outcome State Fault Refusal := duplicate 16#5 16#9 msb lsb s

/-- DUP17 (R102). -/
def execDup17 (msb : Sym) (lsb : Byte) (s : State) : Host.Outcome State Fault Refusal := duplicate 17#5 17#9 msb lsb s

/-- DUP18 (R102). -/
def execDup18 (msb : Sym) (lsb : Byte) (s : State) : Host.Outcome State Fault Refusal := duplicate 18#5 18#9 msb lsb s

/-- DUP19 (R102). -/
def execDup19 (msb : Sym) (lsb : Byte) (s : State) : Host.Outcome State Fault Refusal := duplicate 19#5 19#9 msb lsb s

/-- DUP20 (R102). -/
def execDup20 (msb : Sym) (lsb : Byte) (s : State) : Host.Outcome State Fault Refusal := duplicate 20#5 20#9 msb lsb s

/-- DUP21 (R102). -/
def execDup21 (msb : Sym) (lsb : Byte) (s : State) : Host.Outcome State Fault Refusal := duplicate 21#5 21#9 msb lsb s

/-- DUP22 (R102). -/
def execDup22 (msb : Sym) (lsb : Byte) (s : State) : Host.Outcome State Fault Refusal := duplicate 22#5 22#9 msb lsb s

/-- DUP23 (R102). -/
def execDup23 (msb : Sym) (lsb : Byte) (s : State) : Host.Outcome State Fault Refusal := duplicate 23#5 23#9 msb lsb s

/-- DUP24 (R102). -/
def execDup24 (msb : Sym) (lsb : Byte) (s : State) : Host.Outcome State Fault Refusal := duplicate 24#5 24#9 msb lsb s

/-- DUPX (R104): count `b + 25`. A term whose byte is 0xFE or 0xFF is no instruction of the format (R103, log 17). -/
def execDupx (b : Byte) (msb : Sym) (lsb : Byte) (s : State) : Host.Outcome State Fault Refusal :=
  if b.toNat ≤ 0xFD then duplicate sentinel (countOfEscape b) msb lsb (latchEscape b s)
  else .fault .reservedEscape

end Sys2Proof.Machine
end

