-- ==== Sys2Proof/Machine/Escape.lean ====
section
/-! DEFINITION. The escapes (43_duplication_and_copy.md R103, R110, R111): SKIP and END once their escape byte is read. -/

namespace Sys2Proof.Machine

/-- SKIP (R110): its bits and its byte stay consumed, nothing else happens. The source itself doubts this meaning (U3,
log 21). -/
def execSkip (s : State) : Host.Outcome State Fault Refusal := .next (latchEscape escSkip s)

/-- END (R111): BYTECOUNT <- OPOS, ST <- DONE. -/
def execEndMark (s : State) : Host.Outcome State Fault Refusal :=
  .next { latchEscape escEnd s with BYTECOUNT := s.OPOS, ST := .done }

end Sys2Proof.Machine
end

