-- ==== Sys2Proof/Machine/Literal.lean ====
section
/-! DEFINITION. The literal family (42_control_and_literal.md): what LIT and LITX do once their byte is read. -/

namespace Sys2Proof.Machine

/-- LIT (R92): write the byte unchanged. -/
def execLit (e : Byte) (s : State) : Host.Outcome State Fault Refusal :=
  settle (emit e { s with EB := e })

/-- LITX (R93): write the byte XOR the key; CNT is as the control bit left it, since reading the byte does not change it. -/
def execLitx (e : Byte) (s : State) : Host.Outcome State Fault Refusal :=
  settle (emit (e ^^^ literalKey s.CNT) { s with KEY := literalKey s.CNT, EB := e })

end Sys2Proof.Machine
end

