-- ==== Sys2Proof/Machine/OffsetCode.lean ====
section
/-! DEFINITION. The offset-code rows OFFHI_0 to OFFHI_31 of opcode_table.json (41_prefix_decoder.md R81, 30_encoding.md R63): operand
items of formats D and X. What one does once its code is read is step d of DUP (R100): its value goes into MSB (log 13). -/

namespace Sys2Proof.Machine

/-- OFFHI_0: MSB <- 0 (R81, R100). -/
def execOffhi0 (s : State) : Host.Outcome State Fault Refusal := .next (latchOffsetHigh 0#5 s)

/-- OFFHI_1: MSB <- 1 (R81, R100). -/
def execOffhi1 (s : State) : Host.Outcome State Fault Refusal := .next (latchOffsetHigh 1#5 s)

/-- OFFHI_2: MSB <- 2 (R81, R100). -/
def execOffhi2 (s : State) : Host.Outcome State Fault Refusal := .next (latchOffsetHigh 2#5 s)

/-- OFFHI_3: MSB <- 3 (R81, R100). -/
def execOffhi3 (s : State) : Host.Outcome State Fault Refusal := .next (latchOffsetHigh 3#5 s)

/-- OFFHI_4: MSB <- 4 (R81, R100). -/
def execOffhi4 (s : State) : Host.Outcome State Fault Refusal := .next (latchOffsetHigh 4#5 s)

/-- OFFHI_5: MSB <- 5 (R81, R100). -/
def execOffhi5 (s : State) : Host.Outcome State Fault Refusal := .next (latchOffsetHigh 5#5 s)

/-- OFFHI_6: MSB <- 6 (R81, R100). -/
def execOffhi6 (s : State) : Host.Outcome State Fault Refusal := .next (latchOffsetHigh 6#5 s)

/-- OFFHI_7: MSB <- 7 (R81, R100). -/
def execOffhi7 (s : State) : Host.Outcome State Fault Refusal := .next (latchOffsetHigh 7#5 s)

/-- OFFHI_8: MSB <- 8 (R81, R100). -/
def execOffhi8 (s : State) : Host.Outcome State Fault Refusal := .next (latchOffsetHigh 8#5 s)

/-- OFFHI_9: MSB <- 9 (R81, R100). -/
def execOffhi9 (s : State) : Host.Outcome State Fault Refusal := .next (latchOffsetHigh 9#5 s)

/-- OFFHI_10: MSB <- 10 (R81, R100). -/
def execOffhi10 (s : State) : Host.Outcome State Fault Refusal := .next (latchOffsetHigh 10#5 s)

/-- OFFHI_11: MSB <- 11 (R81, R100). -/
def execOffhi11 (s : State) : Host.Outcome State Fault Refusal := .next (latchOffsetHigh 11#5 s)

/-- OFFHI_12: MSB <- 12 (R81, R100). -/
def execOffhi12 (s : State) : Host.Outcome State Fault Refusal := .next (latchOffsetHigh 12#5 s)

/-- OFFHI_13: MSB <- 13 (R81, R100). -/
def execOffhi13 (s : State) : Host.Outcome State Fault Refusal := .next (latchOffsetHigh 13#5 s)

/-- OFFHI_14: MSB <- 14 (R81, R100). -/
def execOffhi14 (s : State) : Host.Outcome State Fault Refusal := .next (latchOffsetHigh 14#5 s)

/-- OFFHI_15: MSB <- 15 (R81, R100). -/
def execOffhi15 (s : State) : Host.Outcome State Fault Refusal := .next (latchOffsetHigh 15#5 s)

/-- OFFHI_16: MSB <- 16 (R81, R100). -/
def execOffhi16 (s : State) : Host.Outcome State Fault Refusal := .next (latchOffsetHigh 16#5 s)

/-- OFFHI_17: MSB <- 17 (R81, R100). -/
def execOffhi17 (s : State) : Host.Outcome State Fault Refusal := .next (latchOffsetHigh 17#5 s)

/-- OFFHI_18: MSB <- 18 (R81, R100). -/
def execOffhi18 (s : State) : Host.Outcome State Fault Refusal := .next (latchOffsetHigh 18#5 s)

/-- OFFHI_19: MSB <- 19 (R81, R100). -/
def execOffhi19 (s : State) : Host.Outcome State Fault Refusal := .next (latchOffsetHigh 19#5 s)

/-- OFFHI_20: MSB <- 20 (R81, R100). -/
def execOffhi20 (s : State) : Host.Outcome State Fault Refusal := .next (latchOffsetHigh 20#5 s)

/-- OFFHI_21: MSB <- 21 (R81, R100). -/
def execOffhi21 (s : State) : Host.Outcome State Fault Refusal := .next (latchOffsetHigh 21#5 s)

/-- OFFHI_22: MSB <- 22 (R81, R100). -/
def execOffhi22 (s : State) : Host.Outcome State Fault Refusal := .next (latchOffsetHigh 22#5 s)

/-- OFFHI_23: MSB <- 23 (R81, R100). -/
def execOffhi23 (s : State) : Host.Outcome State Fault Refusal := .next (latchOffsetHigh 23#5 s)

/-- OFFHI_24: MSB <- 24 (R81, R100). -/
def execOffhi24 (s : State) : Host.Outcome State Fault Refusal := .next (latchOffsetHigh 24#5 s)

/-- OFFHI_25: MSB <- 25 (R81, R100). -/
def execOffhi25 (s : State) : Host.Outcome State Fault Refusal := .next (latchOffsetHigh 25#5 s)

/-- OFFHI_26: MSB <- 26 (R81, R100). -/
def execOffhi26 (s : State) : Host.Outcome State Fault Refusal := .next (latchOffsetHigh 26#5 s)

/-- OFFHI_27: MSB <- 27 (R81, R100). -/
def execOffhi27 (s : State) : Host.Outcome State Fault Refusal := .next (latchOffsetHigh 27#5 s)

/-- OFFHI_28: MSB <- 28 (R81, R100). -/
def execOffhi28 (s : State) : Host.Outcome State Fault Refusal := .next (latchOffsetHigh 28#5 s)

/-- OFFHI_29: MSB <- 29 (R81, R100). -/
def execOffhi29 (s : State) : Host.Outcome State Fault Refusal := .next (latchOffsetHigh 29#5 s)

/-- OFFHI_30: MSB <- 30 (R81, R100). -/
def execOffhi30 (s : State) : Host.Outcome State Fault Refusal := .next (latchOffsetHigh 30#5 s)

/-- OFFHI_31: MSB <- 31 (R81, R100). -/
def execOffhi31 (s : State) : Host.Outcome State Fault Refusal := .next (latchOffsetHigh 31#5 s)

end Sys2Proof.Machine
end

