-- ==== Sys2Proof/Machine/Dispatch.lean ====
section
/-! DEFINITION. The meaning of every row of opcode_table.json, one arm each. -/

namespace Sys2Proof.Machine

def exec (i : Instr) (s : State) : Host.Outcome State Fault Refusal :=
  match i with
  | .lit e => Sys2Proof.Machine.execLit e s
  | .litx e => Sys2Proof.Machine.execLitx e s
  | .dup2 lsb => Sys2Proof.Machine.execDup2 lsb s
  | .dup3 msb lsb => Sys2Proof.Machine.execDup3 msb lsb s
  | .dup4 msb lsb => Sys2Proof.Machine.execDup4 msb lsb s
  | .dup5 msb lsb => Sys2Proof.Machine.execDup5 msb lsb s
  | .dup6 msb lsb => Sys2Proof.Machine.execDup6 msb lsb s
  | .dup7 msb lsb => Sys2Proof.Machine.execDup7 msb lsb s
  | .dup8 msb lsb => Sys2Proof.Machine.execDup8 msb lsb s
  | .dup9 msb lsb => Sys2Proof.Machine.execDup9 msb lsb s
  | .dup10 msb lsb => Sys2Proof.Machine.execDup10 msb lsb s
  | .dup11 msb lsb => Sys2Proof.Machine.execDup11 msb lsb s
  | .dup12 msb lsb => Sys2Proof.Machine.execDup12 msb lsb s
  | .dup13 msb lsb => Sys2Proof.Machine.execDup13 msb lsb s
  | .dup14 msb lsb => Sys2Proof.Machine.execDup14 msb lsb s
  | .dup15 msb lsb => Sys2Proof.Machine.execDup15 msb lsb s
  | .dup16 msb lsb => Sys2Proof.Machine.execDup16 msb lsb s
  | .dup17 msb lsb => Sys2Proof.Machine.execDup17 msb lsb s
  | .dup18 msb lsb => Sys2Proof.Machine.execDup18 msb lsb s
  | .dup19 msb lsb => Sys2Proof.Machine.execDup19 msb lsb s
  | .dup20 msb lsb => Sys2Proof.Machine.execDup20 msb lsb s
  | .dup21 msb lsb => Sys2Proof.Machine.execDup21 msb lsb s
  | .dup22 msb lsb => Sys2Proof.Machine.execDup22 msb lsb s
  | .dup23 msb lsb => Sys2Proof.Machine.execDup23 msb lsb s
  | .dup24 msb lsb => Sys2Proof.Machine.execDup24 msb lsb s
  | .dupx b msb lsb => Sys2Proof.Machine.execDupx b msb lsb s
  | .skip => Sys2Proof.Machine.execSkip s
  | .endMark => Sys2Proof.Machine.execEndMark s
  | .offhi0 => Sys2Proof.Machine.execOffhi0 s
  | .offhi1 => Sys2Proof.Machine.execOffhi1 s
  | .offhi2 => Sys2Proof.Machine.execOffhi2 s
  | .offhi3 => Sys2Proof.Machine.execOffhi3 s
  | .offhi4 => Sys2Proof.Machine.execOffhi4 s
  | .offhi5 => Sys2Proof.Machine.execOffhi5 s
  | .offhi6 => Sys2Proof.Machine.execOffhi6 s
  | .offhi7 => Sys2Proof.Machine.execOffhi7 s
  | .offhi8 => Sys2Proof.Machine.execOffhi8 s
  | .offhi9 => Sys2Proof.Machine.execOffhi9 s
  | .offhi10 => Sys2Proof.Machine.execOffhi10 s
  | .offhi11 => Sys2Proof.Machine.execOffhi11 s
  | .offhi12 => Sys2Proof.Machine.execOffhi12 s
  | .offhi13 => Sys2Proof.Machine.execOffhi13 s
  | .offhi14 => Sys2Proof.Machine.execOffhi14 s
  | .offhi15 => Sys2Proof.Machine.execOffhi15 s
  | .offhi16 => Sys2Proof.Machine.execOffhi16 s
  | .offhi17 => Sys2Proof.Machine.execOffhi17 s
  | .offhi18 => Sys2Proof.Machine.execOffhi18 s
  | .offhi19 => Sys2Proof.Machine.execOffhi19 s
  | .offhi20 => Sys2Proof.Machine.execOffhi20 s
  | .offhi21 => Sys2Proof.Machine.execOffhi21 s
  | .offhi22 => Sys2Proof.Machine.execOffhi22 s
  | .offhi23 => Sys2Proof.Machine.execOffhi23 s
  | .offhi24 => Sys2Proof.Machine.execOffhi24 s
  | .offhi25 => Sys2Proof.Machine.execOffhi25 s
  | .offhi26 => Sys2Proof.Machine.execOffhi26 s
  | .offhi27 => Sys2Proof.Machine.execOffhi27 s
  | .offhi28 => Sys2Proof.Machine.execOffhi28 s
  | .offhi29 => Sys2Proof.Machine.execOffhi29 s
  | .offhi30 => Sys2Proof.Machine.execOffhi30 s
  | .offhi31 => Sys2Proof.Machine.execOffhi31 s

end Sys2Proof.Machine
end

