-- ==== Sys2Proof/Machine/HostMoves.lean ====
section
/-! DEFINITION. The moves the spec gives the host (70_reset_and_hazards.md R141 (1), (2), R143, R150). They are no steps of the
block: a run from power-on is hostLoad, then hostStart, then steps. The first step performs START, each later one a
stream instruction. -/

namespace Sys2Proof.Machine

/-- The host places the compressed region in IN and writes INLEN, OUTCAP and DECRYPT (R143). -/
def hostLoad (bytes : List Byte) (outcap : Nat) (decrypt : Bool) (s : State) : State :=
  { s with IN := Memory.ofBytes 0 bytes, INLEN := bytes.length, OUTCAP := outcap, DECRYPT := decrypt }

/-- The host issues START (R18). -/
def hostStart (s : State) : State := { s with START := true }

end Sys2Proof.Machine
end

