-- ==== Sys2Proof/Machine/Step.lean ====
section
/-! DEFINITION. One step of the block (42_control_and_literal.md R90, R91; 70_reset_and_hazards.md R141): while ST = RUN, one stream
instruction; otherwise a pending START, and with none the block is quiescent (R128). -/

namespace Sys2Proof.Machine

/-- Execute what was fetched; the error of a failing read is taken (R124). -/
def execFetched : Fetched → Host.Outcome State Fault Refusal
  | .got i s => exec i s
  | .raised k s => .next (abort k s)

/-- Step() (R90): one stream instruction. -/
def runInstr (s : State) : Host.Outcome State Fault Refusal := execFetched (fetch s)

/-- One `off` item read and performed by itself (R63, R100 step d): the part of a duplication its offset-code row stands
for. It is no step of the block. -/
def runOffsetItem (s : State) : Host.Outcome State Fault Refusal := execFetched (fetchOffset s)

/-- A step of a block that is not running (R18, R128, R140): START if it is pending, else nothing changes (log 4). -/
def stepIdle (s : State) : Host.Outcome State Fault Refusal :=
  if s.START then acceptStart s else .next s

/-- A step of a running block (R90): a START now is outside the contract (R18, U5, log 5). -/
def stepRun (s : State) : Host.Outcome State Fault Refusal :=
  if s.START then .refused .startWhileRunning else runInstr s

/-- One step. -/
def step (s : State) : Host.Outcome State Fault Refusal :=
  match s.ST with
  | .run => stepRun s
  | .idle => stepIdle s
  | .done => stepIdle s
  | .err => stepIdle s

/-- The state whose very next step runs the instruction of this table word (log 14, log 15). -/
def State.withFetchWord (s : State) (nbits w : Nat) : State := loadedRun (tableStream nbits w) s

end Sys2Proof.Machine
end

