-- ==== Sys2Proof/Safety.lean ====
section
/-! DEFINITION. The terms claims are stated in: what the host may read of a state (R16, R144, R150), the invariant (R12, R16, R32), what
a step may change, the two relations between states of a call, and the reference readings the statements compare the
model with (a tree's depth and completeness, R57 for a duplication's operands). After an error only ST and ERR are defined (R124,
U2, log 11): no relation or invariant here says anything of a session register, BYTECOUNT or OUT when ST = ERR. -/

namespace Sys2Proof.Machine

/-- The state of a `next` outcome. -/
def nextOf : Host.Outcome State Fault Refusal → Option State
  | .next s => some s
  | .fault _ => none
  | .refused _ => none

/-- A safe outcome: the machine goes on and no error has ended the call (R128: ST = ERR is a fault state, never final). -/
def SafeOutcome (o : Host.Outcome State Fault Refusal) : Prop := ∃ t, o = .next t ∧ t.ST ≠ .err

/-- A final state: the successful end of a run (R128). -/
def finalState (s : State) : Bool := decide (s.ST = .done)

/-- What the host may read (R16, R144, R150). -/
inductive HostView where
  | idle
  | running
  | success (bytes : List (Option Byte)) (count : Nat)
  | failure (kind : Option ErrKind)
  deriving DecidableEq, Repr

/-- The host's view of a state: after DONE the bytes OUT[0 .. BYTECOUNT-1] and their number, after ERR the kind alone. -/
def hostView (s : State) : HostView :=
  match s.ST with
  | .idle => .idle
  | .run => .running
  | .done => .success ((List.range s.BYTECOUNT).map (Memory.read s.OUT)) s.BYTECOUNT
  | .err => .failure s.ERR

/-! ## The invariant -/

/-- Every cell of OUT below OPOS has been written (R32). -/
abbrev OutputWritten (s : State) : Prop := ∀ a, a < s.OPOS → (Memory.read s.OUT a).isSome = true

/-- The invariants of the session registers (R12 a, c, d; b is CNT's type) and of OUT (R32). -/
abbrev SessionInv (s : State) : Prop := 2 ≤ s.ICUR ∧ s.ICUR ≤ s.INLEN ∧ s.OPOS ≤ s.OUTCAP ∧ OutputWritten s

/-- The invariant of the model: the trees may be used (R86); both memories in canonical form; ERR is NONE exactly when ST is not ERR (R16); the session
invariants while a call runs; after DONE, BYTECOUNT is OPOS (R16) and every cell below it is written. It says nothing of
INLEN and OUTCAP after DONE, which the host may then write for another call (R150). -/
abbrev Invariant (s : State) : Prop :=
  treesUsable s.trees = true ∧
  Memory.wf s.IN = true ∧ Memory.wf s.OUT = true ∧ (s.ERR = none ↔ s.ST ≠ .err) ∧
  (s.ST = .run → SessionInv s) ∧ (s.ST = .done → s.BYTECOUNT = s.OPOS ∧ OutputWritten s)

/-! ## Frames -/

/-- The block's trees and the host's side, IN, the call parameters and the pending command, are unchanged (R15, R22, R31). -/
abbrev KeepsHostSide (s t : State) : Prop :=
  t.trees = s.trees ∧ t.IN = s.IN ∧ t.INLEN = s.INLEN ∧ t.OUTCAP = s.OUTCAP ∧ t.DECRYPT = s.DECRYPT ∧ t.START = s.START

/-- The stream position and the walk register are unchanged. -/
abbrev KeepsPosition (s t : State) : Prop := t.WIN = s.WIN ∧ t.CNT = s.CNT ∧ t.ICUR = s.ICUR ∧ t.NODE = s.NODE

/-- The result registers are unchanged. -/
abbrev KeepsResult (s t : State) : Prop := t.ST = s.ST ∧ t.ERR = s.ERR ∧ t.BYTECOUNT = s.BYTECOUNT

/-- The registers only a duplication writes are unchanged. -/
abbrev KeepsCopyRegs (s t : State) : Prop :=
  t.CC = s.CC ∧ t.MSB = s.MSB ∧ t.LSB = s.LSB ∧ t.OFF = s.OFF ∧ t.SRC = s.SRC ∧ t.REM = s.REM ∧ t.draws = s.draws

/-- Every byte of OUT outside `lo` to `hi - 1` reads as before. -/
abbrev KeepsOutOutside (lo hi : Nat) (s t : State) : Prop :=
  ∀ a, (a < lo ∨ hi ≤ a) → Memory.read t.OUT a = Memory.read s.OUT a

/-- An error of this kind has ended the call; the host's side is unchanged. Nothing more is said (R124). -/
def EndsInError (k : ErrKind) (s : State) (o : Host.Outcome State Fault Refusal) : Prop :=
  ∃ t, o = .next t ∧ t.ST = .err ∧ t.ERR = some k ∧ KeepsHostSide s t

/-! ## Relations between states -/

/-- The two states agree on the trees, on IN and on every parameter but DECRYPT, on the status, and, while a call runs or after it ended
well, on the stream position and OPOS; on BYTECOUNT after DONE, where it is valid (R16). They may differ in DECRYPT, in the
bytes of OUT, in the transient registers and in the free values drawn. -/
abbrev SameControl (s t : State) : Prop :=
  t.trees = s.trees ∧ t.IN = s.IN ∧ t.INLEN = s.INLEN ∧ t.OUTCAP = s.OUTCAP ∧ t.START = s.START ∧ t.ST = s.ST ∧ t.ERR = s.ERR ∧
  (s.ST = .run ∨ s.ST = .done → t.WIN = s.WIN ∧ t.CNT = s.CNT ∧ t.ICUR = s.ICUR ∧ t.OPOS = s.OPOS) ∧
  (s.ST = .done → t.BYTECOUNT = s.BYTECOUNT)

/-- The two states have the same call before them: the trees, IN, all parameters, and the free values still to come. -/
abbrev SameCall (s t : State) : Prop :=
  t.trees = s.trees ∧ t.IN = s.IN ∧ t.INLEN = s.INLEN ∧ t.OUTCAP = s.OUTCAP ∧ t.DECRYPT = s.DECRYPT ∧ t.draws = s.draws

/-- The two states are the same point of the same call: the same call, the same status, and, while it runs or after it
ended well, the same stream position and the same output written so far. They may differ in the transient registers,
in OUT at and above OPOS, and (before DONE) in BYTECOUNT. -/
abbrev SameSession (s t : State) : Prop :=
  SameCall s t ∧ t.START = s.START ∧ t.ST = s.ST ∧ t.ERR = s.ERR ∧
  (s.ST = .run ∨ s.ST = .done → t.WIN = s.WIN ∧ t.CNT = s.CNT ∧ t.ICUR = s.ICUR ∧ t.OPOS = s.OPOS ∧
    ∀ a, a < s.OPOS → Memory.read t.OUT a = Memory.read s.OUT a) ∧
  (s.ST = .done → t.BYTECOUNT = s.BYTECOUNT)

/-! ## Reference readings -/

/-- The operands of a duplication row: count, MSB, LSB (R57, R101, R102, R104); none for any other row and for an ill-formed
DUPX. -/
def dupForm : Instr → Option (Nat × Sym × Byte)
  | .lit _ => none
  | .litx _ => none
  | .dup2 lsb => some (2, 0#5, lsb)
  | .dup3 msb lsb => some (3, msb, lsb)
  | .dup4 msb lsb => some (4, msb, lsb)
  | .dup5 msb lsb => some (5, msb, lsb)
  | .dup6 msb lsb => some (6, msb, lsb)
  | .dup7 msb lsb => some (7, msb, lsb)
  | .dup8 msb lsb => some (8, msb, lsb)
  | .dup9 msb lsb => some (9, msb, lsb)
  | .dup10 msb lsb => some (10, msb, lsb)
  | .dup11 msb lsb => some (11, msb, lsb)
  | .dup12 msb lsb => some (12, msb, lsb)
  | .dup13 msb lsb => some (13, msb, lsb)
  | .dup14 msb lsb => some (14, msb, lsb)
  | .dup15 msb lsb => some (15, msb, lsb)
  | .dup16 msb lsb => some (16, msb, lsb)
  | .dup17 msb lsb => some (17, msb, lsb)
  | .dup18 msb lsb => some (18, msb, lsb)
  | .dup19 msb lsb => some (19, msb, lsb)
  | .dup20 msb lsb => some (20, msb, lsb)
  | .dup21 msb lsb => some (21, msb, lsb)
  | .dup22 msb lsb => some (22, msb, lsb)
  | .dup23 msb lsb => some (23, msb, lsb)
  | .dup24 msb lsb => some (24, msb, lsb)
  | .dupx b msb lsb => if b.toNat ≤ 0xFD then some (b.toNat + 25, msb, lsb) else none
  | .skip => none
  | .endMark => none
  | .offhi0 => none
  | .offhi1 => none
  | .offhi2 => none
  | .offhi3 => none
  | .offhi4 => none
  | .offhi5 => none
  | .offhi6 => none
  | .offhi7 => none
  | .offhi8 => none
  | .offhi9 => none
  | .offhi10 => none
  | .offhi11 => none
  | .offhi12 => none
  | .offhi13 => none
  | .offhi14 => none
  | .offhi15 => none
  | .offhi16 => none
  | .offhi17 => none
  | .offhi18 => none
  | .offhi19 => none
  | .offhi20 => none
  | .offhi21 => none
  | .offhi22 => none
  | .offhi23 => none
  | .offhi24 => none
  | .offhi25 => none
  | .offhi26 => none
  | .offhi27 => none
  | .offhi28 => none
  | .offhi29 => none
  | .offhi30 => none
  | .offhi31 => none

/-- The distance of two offset bytes (R105). -/
def distance (msb : Sym) (lsb : Byte) : Nat := lsb.toNat + 256 * msb.toNat

/-- The length of a tree's longest path, in bits (R86: "bounded number of bits"). -/
def treeDepth : PrefixTree → Nat
  | .absent => 0
  | .leaf _ => 0
  | .internal z o => 1 + max (treeDepth z) (treeDepth o)

/-- The paths of a tree that end at an absent reference, the bit that selects it included (R82, R88). -/
def treeGaps : PrefixTree → List (List Bool)
  | .absent => [[]]
  | .leaf _ => []
  | .internal z o => (treeGaps z).map (false :: ·) ++ (treeGaps o).map (true :: ·)

/-- No reference of the tree is absent (R88). -/
def treeComplete : PrefixTree → Bool
  | .absent => false
  | .leaf _ => true
  | .internal z o => treeComplete z && treeComplete o

/-- Every relative reference of the tree's ROM image fits its 6 bits (R84). -/
def treeFits : PrefixTree → Bool
  | .absent => true
  | .leaf _ => true
  | .internal z o => decide (1 + treeSize z < 64) && treeFits z && treeFits o

/-- The two reads answer alike: the same value, or the same rejection, at the same stream position. -/
def SameAnswer {α : Type} (x y : ReadResult α) : Prop :=
  match x, y with
  | .got a r, .got b q => a = b ∧ r.samePosition q
  | .stop e r, .stop f q => e = f ∧ r.samePosition q
  | _, _ => False

/-- Decode `n` stream instructions one after another. -/
def decodeMany (decrypt : Bool) (m : Input) : Nat → Reader → Option (List Instr)
  | 0, _ => some []
  | n + 1, r =>
    match decode decrypt m r with
    | .got i q => (decodeMany decrypt m n q).map (i :: ·)
    | .stop _ _ => none

/-- `k` steps of the machine (R91). -/
def runSteps (k : Nat) (s : State) : Host.Outcome State Fault Refusal := Host.Core.run Sys2Proof.core k s

end Sys2Proof.Machine
end

