-- ==== Sys2Proof/Certificates/Slice0/Obligations.lean ====
section
/-! DEFINITION. The statements for the provers. Each docstring names the rule of spec/ it rests on. "DUP2, DUP3 to DUP24, DUPX" below
means the 24 constructors dup2, dup3, dup4, dup5, dup6, dup7, dup8, dup9, dup10, dup11, dup12, dup13, dup14, dup15, dup16,
dup17, dup18, dup19, dup20, dup21, dup22, dup23, dup24 and dupx (those `dupForm` gives operands for); "OFFHI_0 to OFFHI_31"
means the 32 constructors offhi0 to offhi31 (those `Instr.offHigh` gives a value for). -/

section

open Sys2Proof Sys2Proof.Machine

/-! ## Power-on, START, the host -/

/-- R140: before any START, ST = IDLE and ERR = NONE. -/
def Obligations.PowerOnIsIdleWithoutError : Prop :=
  State.reset.ST = .idle ∧ State.reset.ERR = none

/-- R70: Init() loads WIN with the first two bytes, little-endian, and sets ICUR to 2, CNT and OPOS to 0; with INLEN below 2
it raises EOI. It writes nothing else. -/
def Obligations.InitLoadsTheFirstWindow : Prop :=
  ∀ s : State,
    (2 ≤ s.INLEN → sessionInit s = .ok { s with
      WIN := ((inputOf s).byte 0).setWidth 16 ||| (((inputOf s).byte 1).setWidth 16 <<< 8), ICUR := 2, CNT := 0, OPOS := 0 }) ∧
    (s.INLEN < 2 → ∃ t, sessionInit s = .raise .eoi t)

/-- START (R18, R141; that it is one step and that the command is then used up is the model's form, log 3): the call runs, ERR
is NONE, and Init() has been performed; with INLEN below 2 the call ends in EOI. START needs OUTCAP at least 1 (R15, D12) and
trees the block may use (R86; log 22). The call's parameters and OUT are as they were. -/
def Obligations.StartCreatesTheSession : Prop :=
  ∀ s : State, s.ST ≠ .run → s.START = true → 1 ≤ s.OUTCAP → treesUsable s.trees = true →
    (2 ≤ s.INLEN → ∃ t, step s = .next t ∧ t.ST = .run ∧ t.ERR = none ∧ t.START = false ∧
      t.WIN = ((inputOf s).byte 0).setWidth 16 ||| (((inputOf s).byte 1).setWidth 16 <<< 8) ∧
      t.ICUR = 2 ∧ t.CNT = 0 ∧ t.OPOS = 0 ∧ t.OUT = s.OUT ∧ SameCall s t) ∧
    (s.INLEN < 2 → ∃ t, step s = .next t ∧ t.ST = .err ∧ t.ERR = some .eoi ∧ t.START = false ∧ SameCall s t)

/-- D12, D25, U4, U5 and R86 (log 5, log 6, log 22: the model's choice of how to refuse): a START while a call runs, a START
with OUTCAP = 0, and one on a block with trees it may not use, are refused by name. -/
def Obligations.StartOutsideTheContractIsRefused : Prop :=
  ∀ s : State, s.START = true →
    (s.ST = .run → step s = .refused .startWhileRunning) ∧
    (s.ST ≠ .run → s.OUTCAP = 0 → step s = .refused .zeroCapacity) ∧
    (s.ST ≠ .run → 1 ≤ s.OUTCAP → treesUsable s.trees = false → step s = .refused .unusableTrees)

/-- An ended call is quiescent, and so is a block before START, until START is issued (log 4: that a step leaves the state as
it is, and the IDLE case, are the model's choice). -/
def Obligations.BlockIsQuiescentUntilStart : Prop :=
  ∀ s : State, s.ST ≠ .run → s.START = false → step s = .next s

/-- R17: the numeric codes of ST and ERR. -/
def Obligations.StatusAndErrorCodes : Prop :=
  statusCode .idle = 0 ∧ statusCode .run = 1 ∧ statusCode .done = 2 ∧ statusCode .err = 3 ∧
  errCode none = 0 ∧ errCode (some .eoi) = 1 ∧ errCode (some .corrupt) = 2 ∧ errCode (some .ovf) = 3

/-! ## The bitstream reader -/

/-- R71: NextBit returns bit CNT of WIN; the sixteenth bit reloads the window at once from the two bytes at ICUR, or raises
EOI with no register changed when fewer than two bytes remain. -/
def Obligations.NextBitReturnsAndReloads : Prop :=
  ∀ (m : Input) (r : Reader),
    (r.CNT.val < 15 → nextBit m r = .got (r.WIN.getLsbD r.CNT.val) { r with CNT := r.CNT + 1 }) ∧
    (r.CNT.val = 15 → r.ICUR + 2 ≤ m.len → nextBit m r = .got (r.WIN.getLsbD 15)
      { r with WIN := (m.byte r.ICUR).setWidth 16 ||| ((m.byte (r.ICUR + 1)).setWidth 16 <<< 8),
               ICUR := r.ICUR + 2, CNT := 0 }) ∧
    (r.CNT.val = 15 → m.len < r.ICUR + 2 → nextBit m r = .stop .endOfInput r)

/-- R72: NextByte returns the byte at ICUR and advances ICUR by one, or raises EOI with no register changed. -/
def Obligations.NextByteReturnsTheByteAtTheCursor : Prop :=
  ∀ (m : Input) (r : Reader),
    (r.ICUR < m.len → nextByte m r = .got (m.byte r.ICUR) { r with ICUR := r.ICUR + 1 }) ∧
    (m.len ≤ r.ICUR → nextByte m r = .stop .endOfInput r)

/-- R74: the three EOI conditions, and that no byte at or beyond INLEN is ever read: two inputs of one length that agree below
it have the same first window, and answer every read, and every decoding of an instruction, alike. -/
def Obligations.EndOfInputExactlyWhenNoByteIsLeft : Prop :=
  (∀ s : State, (∃ q, sessionInit s = .raise .eoi q) ↔ s.INLEN < 2) ∧
  (∀ (m : Input) (r : Reader), (∃ e q, nextBit m r = .stop e q) ↔ (r.CNT.val = 15 ∧ m.len < r.ICUR + 2)) ∧
  (∀ (m : Input) (r : Reader), (∃ e q, nextByte m r = .stop e q) ↔ m.len ≤ r.ICUR) ∧
  (∀ (m n : Input) (r : Reader) (T : Trees) (d : Bool), m.len = n.len → (∀ a, a < m.len → m.byte a = n.byte a) →
    (2 ≤ m.len → m.window 0 = n.window 0) ∧ nextBit m r = nextBit n r ∧ nextByte m r = nextByte n r ∧ decodeWith T d m r = decodeWith T d n r)

/-! ## The prefix-tree decoder -/

/-- Decode(T) (R82) for any tree: a stream that delivers the path of a leaf gives the leaf's value, one that delivers a path to
an absent reference is rejected, the bit that selects it consumed; each consumes exactly the path; and there is no other way
to a value or to that rejection. -/
def Obligations.DecodeFollowsOnePath : Prop :=
  ∀ (T : PrefixTree) (m : Input) (r : Reader),
    (∀ bs v q, (bs, v) ∈ treePaths T → feed m (bitItems bs) r = some q →
      ∃ p, decodeSym T m r = .got v p ∧ p.samePosition q) ∧
    (∀ bs q, bs ∈ treeGaps T → feed m (bitItems bs) r = some q →
      ∃ p, decodeSym T m r = .stop .absentNode p ∧ p.samePosition q) ∧
    (∀ v p, decodeSym T m r = .got v p →
      ∃ bs q, (bs, v) ∈ treePaths T ∧ feed m (bitItems bs) r = some q ∧ p.samePosition q) ∧
    (∀ p, decodeSym T m r = .stop .absentNode p →
      ∃ bs q, bs ∈ treeGaps T ∧ feed m (bitItems bs) r = some q ∧ p.samePosition q)

/-- Trees the block may use (R86): every decoded length value lies in 2 to 25 and every offset value in 0 to 31, each is a
leaf's, read through at least one bit and at most the tree's depth; one path alone leads to 25; and with no reference absent a
stream that does not decode has ended (R88). -/
def Obligations.UsableTreesDecodeToTheirLeaves : Prop :=
  ∀ (T : Trees) (m : Input) (r : Reader), treesUsable T = true →
    (∀ v p, decodeSym T.L m r = .got v p → 2 ≤ v.toNat ∧ v.toNat ≤ 25 ∧
      ∃ bs q, (bs, v) ∈ treePaths T.L ∧ 1 ≤ bs.length ∧ bs.length ≤ treeDepth T.L ∧
        feed m (bitItems bs) r = some q ∧ p.samePosition q) ∧
    (∀ v p, decodeSym T.O m r = .got v p → v.toNat ≤ 31 ∧
      ∃ bs q, (bs, v) ∈ treePaths T.O ∧ 1 ≤ bs.length ∧ bs.length ≤ treeDepth T.O ∧
        feed m (bitItems bs) r = some q ∧ p.samePosition q) ∧
    (∃ bs, ∀ bs', (bs', 25#5) ∈ treePaths T.L ↔ bs' = bs) ∧
    (∀ d e q, treeComplete T.L = true → treeComplete T.O = true → decodeWith T d m r = .stop e q → e = .endOfInput)

/-- The default trees may be used (R86): 24 leaves at most 9 bits deep, 32 leaves at most 7 bits deep (R5), no reference absent
(R88). The trees are from general knowledge (log 1). -/
def Obligations.DefaultTreesAreUsable : Prop :=
  treesUsable defaultTrees = true ∧ (treePaths defaultTrees.L).length = 24 ∧ treeDepth defaultTrees.L = 9 ∧
  (treePaths defaultTrees.O).length = 32 ∧ treeDepth defaultTrees.O = 7 ∧
  treeComplete defaultTrees.L = true ∧ treeComplete defaultTrees.O = true

/-- R82 and R84: walking the ROM image of any tree whose references fit their fields answers as Decode(T) on the tree does:
the same value or the same rejection, with the same registers after it, NODE included. -/
def Obligations.RomWalkIsTheTreeWalk : Prop :=
  ∀ (T : PrefixTree) (m : Input) (r : Reader), treeFits T = true →
    decodeRom (treeRom T) m r = decodeSym T m r

/-- The ROM words of R85 are the image (R84) of the default trees, the tries of the codes of R80 and R81 (an inference the spec
marks so; the codes are from general knowledge, log 1). -/
def Obligations.RomWordsHoldTheCodeTables : Prop :=
  treeRom defaultTrees.L = LTREE ∧ treeRom defaultTrees.O = OTREE

/-- Every code of the two tables decodes to its value and consumes exactly its bits (R80, R81, R82; the codes are from general
knowledge, log 1). -/
def Obligations.EveryCodeDecodesToItsValue : Prop :=
  ∀ (m : Input) (r q : Reader) (c : Code), feed m (bitItems (rowBits c)) r = some q →
    (c ∈ lengthCodes → ∃ p, decodeSym defaultTrees.L m r = .got (BitVec.ofNat 5 c.value) p ∧ p.samePosition q) ∧
    (c ∈ offsetCodes → ∃ p, decodeSym defaultTrees.O m r = .got (BitVec.ofNat 5 c.value) p ∧ p.samePosition q)

/-- Every value the decoder returns is a value the table declares, read through that value's code, at most 9 bits long in
LTREE and at most 7 in OTREE (the bounds of R86 for the default trees; log 1). -/
def Obligations.DecodedValuesAreDeclaredCodes : Prop :=
  ∀ (m : Input) (r p : Reader) (v : Sym),
    (decodeSym defaultTrees.L m r = .got v p → ∃ c ∈ lengthCodes, c.value = v.toNat ∧ c.len ≤ 9 ∧
      ∃ q, feed m (bitItems (rowBits c)) r = some q ∧ p.samePosition q) ∧
    (decodeSym defaultTrees.O m r = .got v p → ∃ c ∈ offsetCodes, c.value = v.toNat ∧ c.len ≤ 7 ∧
      ∃ q, feed m (bitItems (rowBits c)) r = some q ∧ p.samePosition q)

/-- With the default trees CORRUPT(tree) is unreachable: a stream that does not decode has ended (an inference the spec marks
so, R88; log 1). -/
def Obligations.DefaultTreesNeverRejectABitString : Prop :=
  ∀ (m : Input) (r q : Reader) (d : Bool) (e : Reject), decode d m r = .stop e q → e = .endOfInput

/-! ## Encoding -/

/-- Six streams written out from the spec decode to their first instruction: AC 03 41 from R67 (a), 4C 07 42 from P3,
EB 00 01 from V28, 0F 00 05 from the bits of V42, 1D 00 FE and 1D 00 FF from T7 and T6. Their code words are those of the
default trees, which are from general knowledge (log 1). -/
def Obligations.WrittenOutStreamsDecode : Prop :=
  (∃ q, decode false (Input.ofBytes [0xAC, 0x03, 0x41]) (Reader.start (Input.ofBytes [0xAC, 0x03, 0x41])) = .got (.lit 0x41) q) ∧
  (∃ q, decode true (Input.ofBytes [0x4C, 0x07, 0x42]) (Reader.start (Input.ofBytes [0x4C, 0x07, 0x42])) = .got (.litx 0x42) q) ∧
  (∃ q, decode false (Input.ofBytes [0xEB, 0x00, 0x01]) (Reader.start (Input.ofBytes [0xEB, 0x00, 0x01])) = .got (.dup2 0x01) q) ∧
  (∃ q, decode false (Input.ofBytes [0x0F, 0x00, 0x05]) (Reader.start (Input.ofBytes [0x0F, 0x00, 0x05])) = .got (.dup3 0 0x05) q) ∧
  (∃ q, decode false (Input.ofBytes [0x1D, 0x00, 0xFE]) (Reader.start (Input.ofBytes [0x1D, 0x00, 0xFE])) = .got .skip q) ∧
  (∃ q, decode false (Input.ofBytes [0x1D, 0x00, 0xFF]) (Reader.start (Input.ofBytes [0x1D, 0x00, 0xFF])) = .got .endMark q)

/-- Decode after encode: whatever stream delivers the items of a well-formed stream instruction that the call's DECRYPT
admits, the decoder reads that instruction and stands right after the items (R51 to R57; log 1). -/
def Obligations.DecodeReadsBackEncode : Prop :=
  ∀ (d : Bool) (i : Instr) (m : Input) (r q : Reader), i.wf = true → i.isStream = true → i.modeOk d = true →
    feed m (encode i) r = some q → ∃ p, decode d m r = .got i p ∧ p.samePosition q

/-- Encode after decode: every instruction the decoder reads is a well-formed stream instruction the call's DECRYPT admits,
and what the stream delivered is its encoding, item by item (R51 to R57, R59, R64; log 1). -/
def Obligations.DecodedItemsAreTheEncoding : Prop :=
  ∀ (d : Bool) (i : Instr) (m : Input) (r p : Reader), decode d m r = .got i p →
    i.wf = true ∧ i.isStream = true ∧ i.modeOk d = true ∧ ∃ q, feed m (encode i) r = some q ∧ p.samePosition q

/-- The length of an instruction that starts at CNT = c: with its n bits and k bytes (R51), ICUR advances by
k + 2 * ((c + n) / 16) and CNT ends at (c + n) mod 16 (R58, an inference the spec marks so). -/
def Obligations.InstructionLengthFromItsItems : Prop :=
  ∀ (d : Bool) (i : Instr) (m : Input) (r p : Reader), decode d m r = .got i p →
    p.ICUR = r.ICUR + (countItems (encode i)).2 + 2 * ((r.CNT.val + (countItems (encode i)).1) / 16) ∧
    p.CNT.val = (r.CNT.val + (countItems (encode i)).1) % 16

/-- The assembler mirrors the reader (R66, an inference the spec marks so): the bytes laid out for any items, read from the
start, deliver exactly those items, and they are used up. -/
def Obligations.AssembledItemsReadBack : Prop :=
  ∀ items : List Item, ∃ q, feed (Input.ofBytes (assemble items)) items (Reader.start (Input.ofBytes (assemble items))) = some q ∧
    q.ICUR = (assemble items).length

/-- Any list of well-formed stream instructions that one DECRYPT admits, assembled, decodes to the same list (R51, R64, R66;
log 1). -/
def Obligations.AssembledInstructionsDecodeInOrder : Prop :=
  ∀ (d : Bool) (is : List Instr), (∀ i ∈ is, i.wf = true ∧ i.isStream = true ∧ i.modeOk d = true) →
    decodeMany d (Input.ofBytes (assemble (is.flatMap encode))) is.length
      (Reader.start (Input.ofBytes (assemble (is.flatMap encode)))) = some is

/-- OFFHI_0 to OFFHI_31: whatever stream delivers the code of an offset row, the `off` item read there is that row (R56, R81,
R63; log 1, log 13). -/
def Obligations.OffsetRowsDecode : Prop :=
  ∀ (i : Instr) (v : Sym) (m : Input) (r q : Reader), i.offHigh = some v → feed m (encode i) r = some q →
    ∃ p, decodeOffset defaultTrees m r = .got i p ∧ p.samePosition q

/-- R62: DECRYPT selects LIT or LITX for a format-L instruction and changes nothing else: not which instruction any other
format is, not its bytes, not what is consumed, not whether the stream decodes; for any trees. -/
def Obligations.DecryptSelectsOnlyTheLiteral : Prop :=
  ∀ (T : Trees) (m : Input) (r : Reader),
    (∀ i q, decodeWith T false m r = .got i q → ∃ j p, decodeWith T true m r = .got j p ∧ p.samePosition q ∧
      ((∃ e, i = .lit e ∧ j = .litx e) ∨ (i = j ∧ ∀ e, i ≠ .lit e ∧ i ≠ .litx e))) ∧
    (∀ e q, decodeWith T false m r = .stop e q → ∃ p, decodeWith T true m r = .stop e p ∧ p.samePosition q)

/-! ## Emit and Copy -/

/-- R108: a write is made exactly when a cell is left, at OPOS, which then grows by one; with no cell left OVF is raised and
nothing is written. A copy that does not fit writes the bytes that fit, then raises OVF (what the operation does; of the
block after the error nothing is said, R124). -/
def Obligations.EmitWritesExactlyWhenACellIsLeft : Prop :=
  ∀ (v : Byte) (s : State),
    (s.OPOS < s.OUTCAP → ∃ t, emit v s = .ok t ∧ t.OPOS = s.OPOS + 1 ∧ Memory.read t.OUT s.OPOS = some v ∧
      KeepsOutOutside s.OPOS (s.OPOS + 1) s t) ∧
    (s.OUTCAP ≤ s.OPOS → emit v s = .raise .ovf s) ∧
    (∀ n, s.OPOS ≤ s.OUTCAP → s.OUTCAP < s.OPOS + n → ∃ t, copyLoop n s = .raise .ovf t ∧ t.OPOS = s.OUTCAP ∧
      KeepsOutOutside s.OPOS s.OUTCAP s t ∧ ∀ a, s.OPOS ≤ a → a < s.OUTCAP → (Memory.read t.OUT a).isSome = true)

/-- The result of a copy in closed form (R112, an inference the spec marks so): with 1 ≤ d ≤ OPOS, the cells below OPOS
written, and room for all n bytes, byte i of the copy is the old byte i mod d of the last d, and OPOS grows by n. -/
def Obligations.CopyRepeatsThePeriod : Prop :=
  ∀ (n d : Nat) (s : State), 1 ≤ d → d ≤ s.OPOS → s.OPOS + n ≤ s.OUTCAP → OutputWritten s →
    ∃ t, copy n d s = .ok t ∧ t.OPOS = s.OPOS + n ∧ KeepsOutOutside s.OPOS (s.OPOS + n) s t ∧
      ∀ i, i < n → Memory.read t.OUT (s.OPOS + i) = Memory.read s.OUT (s.OPOS - d + i % d)

/-! ## Literals: lit, litx -/

/-- LIT (R92), its effect once its byte is read: with a cell left it completes; the byte is at OPOS, OPOS grows by one, EB is
the byte; every other register and every other byte of OUT is unchanged. -/
def Obligations.LitWritesItsByte : Prop :=
  ∀ (e : Byte) (s : State), s.OPOS < s.OUTCAP →
    ∃ t, exec (.lit e) s = .next t ∧ Memory.read t.OUT s.OPOS = some e ∧ t.OPOS = s.OPOS + 1 ∧ t.EB = e ∧
      KeepsOutOutside s.OPOS (s.OPOS + 1) s t ∧ KeepsHostSide s t ∧ KeepsPosition s t ∧ KeepsResult s t ∧
      KeepsCopyRegs s t ∧ t.SYM = s.SYM ∧ t.ESC = s.ESC ∧ t.KEY = s.KEY

/-- LITX (R93), its effect once its byte is read: as LIT, the byte written is `e XOR (16 - CNT)`, and KEY is 16 - CNT. -/
def Obligations.LitxWritesTheUnmaskedByte : Prop :=
  ∀ (e : Byte) (s : State), s.OPOS < s.OUTCAP →
    ∃ t, exec (.litx e) s = .next t ∧ Memory.read t.OUT s.OPOS = some (e ^^^ BitVec.ofNat 8 (16 - s.CNT.val)) ∧
      t.OPOS = s.OPOS + 1 ∧ t.EB = e ∧ t.KEY = BitVec.ofNat 8 (16 - s.CNT.val) ∧
      KeepsOutOutside s.OPOS (s.OPOS + 1) s t ∧ KeepsHostSide s t ∧ KeepsPosition s t ∧ KeepsResult s t ∧
      KeepsCopyRegs s t ∧ t.SYM = s.SYM ∧ t.ESC = s.ESC

/-- LIT and LITX with no cell left end the call in OVF (R92, R93, R108, R123). -/
def Obligations.LiteralOverflowEndsTheCall : Prop :=
  ∀ (e : Byte) (s : State), s.OUTCAP ≤ s.OPOS →
    EndsInError .ovf s (exec (.lit e) s) ∧ EndsInError .ovf s (exec (.litx e) s)

/-- R92, the whole step of a literal with DECRYPT = 0: control bit 0, then the byte (EOI if none remains, whatever the capacity),
then the write (OVF if no cell is left). -/
def Obligations.LitStepReadsThenWrites : Prop :=
  ∀ (s : State) (r : Reader), s.ST = .run → s.START = false → s.DECRYPT = false →
    nextBit (inputOf s) s.toReader = .got false r →
    (s.INLEN ≤ r.ICUR → EndsInError .eoi s (step s)) ∧
    (r.ICUR < s.INLEN → s.OUTCAP ≤ s.OPOS → EndsInError .ovf s (step s)) ∧
    (r.ICUR < s.INLEN → s.OPOS < s.OUTCAP → ∃ t, step s = .next t ∧ t.ST = .run ∧
      Memory.read t.OUT s.OPOS = some ((inputOf s).byte r.ICUR) ∧ KeepsOutOutside s.OPOS (s.OPOS + 1) s t ∧
      t.OPOS = s.OPOS + 1 ∧ t.ICUR = r.ICUR + 1 ∧ t.CNT = r.CNT ∧ t.WIN = r.WIN ∧
      KeepsHostSide s t ∧ t.ERR = s.ERR ∧ t.BYTECOUNT = s.BYTECOUNT)

/-- R93, the whole step of a literal with DECRYPT = 1: as LIT, but the byte written is the byte read XOR the key, which is
16 minus the CNT the control bit left. -/
def Obligations.LitxStepReadsThenWrites : Prop :=
  ∀ (s : State) (r : Reader), s.ST = .run → s.START = false → s.DECRYPT = true →
    nextBit (inputOf s) s.toReader = .got false r →
    (s.INLEN ≤ r.ICUR → EndsInError .eoi s (step s)) ∧
    (r.ICUR < s.INLEN → s.OUTCAP ≤ s.OPOS → EndsInError .ovf s (step s)) ∧
    (r.ICUR < s.INLEN → s.OPOS < s.OUTCAP → ∃ t, step s = .next t ∧ t.ST = .run ∧
      Memory.read t.OUT s.OPOS = some ((inputOf s).byte r.ICUR ^^^ BitVec.ofNat 8 (16 - r.CNT.val)) ∧
      KeepsOutOutside s.OPOS (s.OPOS + 1) s t ∧
      t.OPOS = s.OPOS + 1 ∧ t.ICUR = r.ICUR + 1 ∧ t.CNT = r.CNT ∧ t.WIN = r.WIN ∧
      KeepsHostSide s t ∧ t.ERR = s.ERR ∧ t.BYTECOUNT = s.BYTECOUNT)

/-- The key by the control bit's position (R94, an inference the spec marks so): 15 - c for c below 15, 16 for c = 15; never 0. -/
def Obligations.LiteralKeyByPosition : Prop :=
  ∀ (m : Input) (r q : Reader) (b : Bool), nextBit m r = .got b q →
    (literalKey q.CNT).toNat = (if r.CNT.val = 15 then 16 else 15 - r.CNT.val) ∧ literalKey q.CNT ≠ 0

/-! ## Duplications: dup2, dup3 to dup24, dupx -/

/-- DUP2, DUP3 to DUP24, DUPX with a distance of at least 1 (R101, R102, R104, R105, R107): with the distance at most OPOS, the
cells below OPOS written and room for the count, the instruction completes: count bytes are written, byte i being the old
byte i mod distance of the last `distance`, and OPOS grows by the count. -/
def Obligations.DuplicationCopiesItsCount : Prop :=
  ∀ (i : Instr) (n : Nat) (msb : Sym) (lsb : Byte) (s : State), dupForm i = some (n, msb, lsb) →
    1 ≤ distance msb lsb → distance msb lsb ≤ s.OPOS → s.OPOS + n ≤ s.OUTCAP → OutputWritten s →
    ∃ t, exec i s = .next t ∧ t.ST = s.ST ∧ t.ERR = s.ERR ∧ t.OPOS = s.OPOS + n ∧
      t.CC.toNat = n ∧ t.MSB = msb ∧ t.LSB = lsb ∧ t.OFF.toNat = distance msb lsb ∧
      ∀ j, j < n → Memory.read t.OUT (s.OPOS + j) = Memory.read s.OUT (s.OPOS - distance msb lsb + j % distance msb lsb)

/-- DUP2, DUP3 to DUP24, DUPX with distance 0 (R109, U1): with room for the count the instruction completes, OPOS grows by the
count, and byte j written is the free byte of the j-th draw. Nothing is known of a free byte (log 7). -/
def Obligations.DuplicationAtDistanceZeroWritesFreeBytes : Prop :=
  ∀ (i : Instr) (n : Nat) (msb : Sym) (lsb : Byte) (s : State), dupForm i = some (n, msb, lsb) →
    distance msb lsb = 0 → s.OPOS + n ≤ s.OUTCAP →
    ∃ t, exec i s = .next t ∧ t.ST = s.ST ∧ t.ERR = s.ERR ∧ t.OPOS = s.OPOS + n ∧ t.draws = s.draws + n ∧
      ∀ j, j < n → Memory.read t.OUT (s.OPOS + j) = some (Config.freeByte (s.draws + j))

/-- The frame of DUP2, DUP3 to DUP24, DUPX when they complete: the bytes of OUT outside the count cells from OPOS on read as
before; the host's side, the stream position, the result registers, KEY and EB are unchanged; ESC changes only for DUPX,
to its escape byte; SYM, CC, MSB, LSB, OFF, SRC, REM and OPOS (and the model's count of draws) may change. -/
def Obligations.DuplicationFrame : Prop :=
  ∀ (i : Instr) (n : Nat) (msb : Sym) (lsb : Byte) (s t : State), dupForm i = some (n, msb, lsb) →
    distance msb lsb ≤ s.OPOS → s.OPOS + n ≤ s.OUTCAP → exec i s = .next t →
    KeepsOutOutside s.OPOS (s.OPOS + n) s t ∧ KeepsHostSide s t ∧ KeepsPosition s t ∧ KeepsResult s t ∧
    t.KEY = s.KEY ∧ t.EB = s.EB ∧ ((∀ b, i ≠ .dupx b msb lsb) → t.ESC = s.ESC) ∧ (∀ b, i = .dupx b msb lsb → t.ESC = b)

/-- R106: before any byte is copied, an offset that exceeds OPOS raises CORRUPT and nothing is written; an offset up to OPOS,
OPOS itself included, passes and the copy follows. So a duplication (DUP2, DUP3 to DUP24, DUPX) whose distance exceeds OPOS
ends the call in CORRUPT, whatever room is left, and no other does. -/
def Obligations.OffsetBeyondOutputIsCorrupt : Prop :=
  (∀ s : State, (s.OPOS < s.OFF.toNat → checkAndCopy s = .raise .corrupt s) ∧
    (s.OFF.toNat ≤ s.OPOS → checkAndCopy s = copy s.CC.toNat s.OFF.toNat s)) ∧
  ∀ (i : Instr) (n : Nat) (msb : Sym) (lsb : Byte) (s : State), dupForm i = some (n, msb, lsb) →
    (s.OPOS < distance msb lsb → EndsInError .corrupt s (exec i s)) ∧
    (distance msb lsb ≤ s.OPOS → s.ERR = none → ∀ t, exec i s = .next t → t.ERR ≠ some .corrupt)

/-- A duplication (DUP2, DUP3 to DUP24, DUPX) whose distance passes the check but whose bytes do not fit ends the call in OVF
(R107, R108, R123). -/
def Obligations.DuplicationOverflowEndsTheCall : Prop :=
  ∀ (i : Instr) (n : Nat) (msb : Sym) (lsb : Byte) (s : State), dupForm i = some (n, msb, lsb) →
    distance msb lsb ≤ s.OPOS → s.OUTCAP < s.OPOS + n → EndsInError .ovf s (exec i s)

/-- A DUPX term whose escape byte is 0xFE or 0xFF is no instruction of the format (R60, R103): its meaning stops by name
(log 17). -/
def Obligations.ReservedEscapeByteStops : Prop :=
  ∀ (b : Byte) (msb : Sym) (lsb : Byte) (s : State), 0xFD < b.toNat → exec (.dupx b msb lsb) s = .fault .reservedEscape

/-! ## Escapes: skip, endMark; offset rows: offhi0 to offhi31 -/

/-- SKIP (R110): it completes; SYM and ESC hold what was read, and nothing else changes. -/
def Obligations.SkipChangesNothingElse : Prop :=
  ∀ s : State, ∃ t, exec .skip s = .next t ∧ t.SYM = 25 ∧ t.ESC = 0xFE ∧ t.OUT = s.OUT ∧ t.OPOS = s.OPOS ∧
    KeepsHostSide s t ∧ KeepsPosition s t ∧ KeepsResult s t ∧ KeepsCopyRegs s t ∧ t.KEY = s.KEY ∧ t.EB = s.EB

/-- R110, the whole step of a SKIP: from a fetched SKIP the call goes on at the stream position after its items, with OPOS and
OUT unchanged, realigning nothing. With the default trees (log 1) its items are the seven bits and the byte of its encoding. -/
def Obligations.SkipStepOnlyConsumes : Prop :=
  ∀ s q : State, s.ST = .run → s.START = false → fetch s = .got .skip q →
    (s.trees = defaultTrees → ∃ p, feed (inputOf s) (encode .skip) s.toReader = some p ∧ q.toReader.samePosition p) ∧
    ∃ t, step s = .next t ∧ t.ST = .run ∧ t.OPOS = s.OPOS ∧ t.OUT = s.OUT ∧ t.toReader.samePosition q.toReader ∧
      KeepsHostSide s t ∧ t.BYTECOUNT = s.BYTECOUNT

/-- R111, END: it completes, whatever OPOS and OUTCAP are; BYTECOUNT is OPOS, ST is DONE, and the host reads OUT[0 .. OPOS-1] and
OPOS; SYM and ESC hold what was read, and nothing else changes. -/
def Obligations.EndReportsTheByteCount : Prop :=
  ∀ s : State, ∃ t, exec .endMark s = .next t ∧ t.ST = .done ∧ t.BYTECOUNT = s.OPOS ∧ t.ERR = s.ERR ∧
    hostView t = .success ((List.range s.OPOS).map (Memory.read s.OUT)) s.OPOS ∧
    t.SYM = 25 ∧ t.ESC = 0xFF ∧ t.OUT = s.OUT ∧ t.OPOS = s.OPOS ∧
    KeepsHostSide s t ∧ KeepsPosition s t ∧ KeepsCopyRegs s t ∧ t.KEY = s.KEY ∧ t.EB = s.EB

/-- OFFHI_0 to OFFHI_31 (R81, R100 step d; log 13): the row completes; MSB is the row's value, and nothing else changes. -/
def Obligations.OffsetRowDeliversItsValue : Prop :=
  ∀ (i : Instr) (v : Sym) (s : State), i.offHigh = some v →
    ∃ t, exec i s = .next t ∧ t.MSB = v ∧ t.OUT = s.OUT ∧ t.OPOS = s.OPOS ∧ KeepsHostSide s t ∧ KeepsPosition s t ∧
      KeepsResult s t ∧ t.CC = s.CC ∧ t.LSB = s.LSB ∧ t.OFF = s.OFF ∧ t.SRC = s.SRC ∧ t.REM = s.REM ∧
      t.draws = s.draws ∧ t.SYM = s.SYM ∧ t.ESC = s.ESC ∧ t.KEY = s.KEY ∧ t.EB = s.EB

/-! ## The step -/

/-- While a call runs, a step executes the instruction the decoder reads at the stream position with the block's trees (R22), on
the state with the instruction's items consumed. R90 makes one stream instruction a step; that a step decodes all of it first
and executes it then is the model's form (log 18, DEDUCED). -/
def Obligations.StepRunsTheDecodedInstruction : Prop :=
  ∀ (s : State) (i : Instr) (r : Reader), s.ST = .run → s.START = false →
    decodeWith s.trees s.DECRYPT (inputOf s) s.toReader = .got i r → step s = exec i { s with toReader := r }

/-- One `off` item: the row the stream holds next is executed on the state with its code consumed (R63, R82; log 13). -/
def Obligations.OffsetItemRunsTheDecodedRow : Prop :=
  ∀ (s : State) (i : Instr) (r : Reader), decodeOffset s.trees (inputOf s) s.toReader = .got i r →
    runOffsetItem s = exec i { s with toReader := r }

/-- A read that fails ends the call (R124, R121, R122 a): EOI at the end of the input, CORRUPT on an absent reference, whatever
the block's trees; and an error raised while fetching ends the call with its kind, from any state. -/
def Obligations.FailedReadEndsTheCall : Prop :=
  (∀ (s : State) (e : Reject) (r : Reader), s.ST = .run → s.START = false →
    decodeWith s.trees s.DECRYPT (inputOf s) s.toReader = .stop e r →
    (e = .endOfInput → EndsInError .eoi s (step s)) ∧ (e = .absentNode → EndsInError .corrupt s (step s))) ∧
  (∀ (k : ErrKind) (s : State), EndsInError k s (execFetched (.raised k s))) ∧
  rejectKind .endOfInput = .eoi ∧ rejectKind .absentNode = .corrupt

/-- A running call without a START always has a next state: no stream stops the model (R95, U1 to U13). -/
def Obligations.RunningCallAlwaysSteps : Prop :=
  ∀ s : State, s.ST = .run → s.START = false → ∃ t, step s = .next t ∧ t.ST ≠ .idle

/-- Which error an executed instruction ends in (R92, R93, R113, R122, R123): LIT and LITX OVF exactly when no cell is left, and
no other; SKIP and END none; a duplication CORRUPT exactly when its distance exceeds OPOS, else OVF exactly when its bytes do not fit. -/
def Obligations.ErrorsOfTheFetchedInstruction : Prop :=
  ∀ (s q t : State) (i : Instr), s.ST = .run → s.START = false → s.ERR = none → fetch s = .got i q → step s = .next t →
    (∀ e, i = .lit e ∨ i = .litx e → (t.ERR = some .ovf ↔ s.OUTCAP ≤ s.OPOS) ∧ (t.ERR = none ↔ s.OPOS < s.OUTCAP)) ∧
    (i = .skip ∨ i = .endMark → t.ERR = none ∧ t.ST ≠ .err) ∧
    (∀ n msb lsb, dupForm i = some (n, msb, lsb) →
      (t.ERR = some .corrupt ↔ s.OPOS < distance msb lsb) ∧
      (t.ERR = some .ovf ↔ distance msb lsb ≤ s.OPOS ∧ s.OUTCAP < s.OPOS + n) ∧ t.ERR ≠ some .eoi)

/-- Only END ends a call well (R91, R111, R144): a running call that a step takes to DONE fetched END; the count is OPOS and at
most OUTCAP, and the host reads that many bytes, all of them written. -/
def Obligations.OnlyEndEndsWell : Prop :=
  ∀ s t : State, Invariant s → s.ST = .run → step s = .next t → t.ST = .done →
    (∃ q, fetch s = .got .endMark q) ∧ t.BYTECOUNT = s.OPOS ∧ t.BYTECOUNT ≤ t.OUTCAP ∧
    hostView t = .success ((List.range s.OPOS).map (Memory.read s.OUT)) s.OPOS ∧
    ∀ a, a < t.BYTECOUNT → (Memory.read t.OUT a).isSome = true

/-! ## Invariants and whole-machine rules -/

/-- The power-on state meets the invariant: of the block with the default trees (log 1), and of any block with trees it may use
(R86). -/
def Obligations.PowerOnMeetsTheInvariant : Prop :=
  Invariant State.reset ∧ ∀ T : Trees, treesUsable T = true → Invariant (State.powerOn T)

/-- Every step keeps the invariant (R12, R16, R32, R86): the trees stay ones the block may use; both memories stay canonical;
while a call runs, ICUR stays within 2 and INLEN, OPOS within OUTCAP, and every cell below OPOS is written; ERR is NONE unless
ST = ERR; after DONE, BYTECOUNT is OPOS and the cells below it are written. -/
def Obligations.EveryStepKeepsTheInvariant : Prop :=
  ∀ s t : State, Invariant s → step s = .next t → Invariant t

/-- What the host may do to a block that is not running (R150), placing a region with its parameters and issuing START, keeps
the invariant. -/
def Obligations.HostMovesKeepTheInvariant : Prop :=
  ∀ (s : State) (bytes : List Byte) (outcap : Nat) (d : Bool), s.ST ≠ .run → Invariant s →
    Invariant (hostLoad bytes outcap d s) ∧ Invariant (hostStart s)

/-- R15, for IN the word `immutable` of R31, and R22 for the trees: the block never writes INLEN, OUTCAP, DECRYPT, IN, LTREE or
OTREE. -/
def Obligations.ParametersAreNeverWritten : Prop :=
  ∀ s t : State, step s = .next t →
    t.IN = s.IN ∧ t.INLEN = s.INLEN ∧ t.OUTCAP = s.OUTCAP ∧ t.DECRYPT = s.DECRYPT ∧ t.trees = s.trees

/-- OUT is written in increasing order, each cell once (R12 c and d, R32): a step of a running call that does not end in an
error moves neither cursor back, leaves every cell below the old and at or above the new OPOS as it was, and has written
every cell between. -/
def Obligations.OutputIsWrittenOnceInOrder : Prop :=
  ∀ s t : State, s.ST = .run → step s = .next t → t.ST ≠ .err →
    s.ICUR ≤ t.ICUR ∧ s.OPOS ≤ t.OPOS ∧ KeepsOutOutside s.OPOS t.OPOS s t ∧
    ∀ a, s.OPOS ≤ a → a < t.OPOS → (Memory.read t.OUT a).isSome = true

/-- Every run ends (R95, an inference the spec marks so): after 8 * INLEN steps a running call has ended. -/
def Obligations.EveryRunEnds : Prop :=
  ∀ s : State, Invariant s → s.ST = .run → s.START = false →
    ∃ t, runSteps (8 * s.INLEN) s = .next t ∧ (t.ST = .done ∨ t.ST = .err)

/-- Every call ends, whatever the block did before (R95 and R141; that a call is a load, a START and steps is the model's form,
log 15): any region, any capacity of at least 1, either DECRYPT. One step performs START; the call ends well or in an error,
and the invariant holds then. -/
def Obligations.EveryCallEnds : Prop :=
  ∀ (s : State) (bytes : List Byte) (outcap : Nat) (d : Bool), s.ST ≠ .run → Invariant s → 1 ≤ outcap →
    ∃ t, runSteps (1 + 8 * bytes.length) (hostStart (hostLoad bytes outcap d s)) = .next t ∧
      (t.ST = .done ∨ t.ST = .err) ∧ Invariant t

/-- Data decides nothing (R143 d, U1): DECRYPT, the bytes of OUT and the free values never influence ST, ERR, the stream
position, OPOS or BYTECOUNT. -/
def Obligations.ControlIsIndependentOfTheData : Prop :=
  ∀ s t s' : State, SameControl s t → step s = .next s' → ∃ t', step t = .next t' ∧ SameControl s' t'

/-- A step depends on the session alone: never on a transient register (R14, R19), nor on what OUT holds at or above OPOS. The
second half is the model's choice: R23 lets an offset-0 copy read what an earlier call left in OUT, and the model gives it a
free value instead (log 9), the same in both states because they have drawn equally many (log 7). -/
def Obligations.StepDependsOnTheSessionAlone : Prop :=
  ∀ s t s' : State, SameSession s t → step s = .next s' → ∃ t', step t = .next t' ∧ SameSession s' t'

/-- START forgets everything an earlier call left (R23): two blocks that are not running and have the same call before them are
at the same point of it after START, whatever else they hold. -/
def Obligations.StartForgetsEarlierCalls : Prop :=
  ∀ s t s' : State, SameCall s t → s.ST ≠ .run → t.ST ≠ .run → s.START = true → t.START = true → step s = .next s' →
    ∃ t', step t = .next t' ∧ SameSession s' t'

end
end

