-- ==== Sys2Proof/Laws/Reader.lean ====
section
/-! SUPPORT. What the reads can do: each primitive's cases once (R71, R72), that reads depend on the stream position alone
(R13, R19), and how items are delivered one after another (R50). -/

namespace Sys2Proof

theorem Reader.samePosition.refl (r : Reader) : r.samePosition r := ⟨rfl, rfl, rfl⟩

theorem Reader.samePosition.symm {r q : Reader} (h : r.samePosition q) : q.samePosition r :=
  ⟨h.1.symm, h.2.1.symm, h.2.2.symm⟩

theorem Reader.samePosition.trans {r q p : Reader} (h : r.samePosition q) (h' : q.samePosition p) : r.samePosition p :=
  ⟨h.1.trans h'.1, h.2.1.trans h'.2.1, h.2.2.trans h'.2.2⟩

@[simp] theorem ReadResult.andThen_got {α β : Type} (a : α) (r : Reader) (f : α → Reader → ReadResult β) :
    (ReadResult.got a r).andThen f = f a r := rfl

@[simp] theorem ReadResult.andThen_stop {α β : Type} (e : Reject) (r : Reader) (f : α → Reader → ReadResult β) :
    (ReadResult.stop e r : ReadResult α).andThen f = .stop e r := rfl

/-- A sequence of reads that answers a value answered one at each read. -/
theorem ReadResult.andThen_eq_got {α β : Type} {x : ReadResult α} {f : α → Reader → ReadResult β} {b : β} {q : Reader}
    (h : x.andThen f = .got b q) : ∃ a r, x = .got a r ∧ f a r = .got b q := by
  cases x with
  | got a r => exact ⟨a, r, rfl, h⟩
  | stop e r => cases h

/-- A sequence of reads that is rejected was rejected at one of its reads. -/
theorem ReadResult.andThen_eq_stop {α β : Type} {x : ReadResult α} {f : α → Reader → ReadResult β} {e : Reject} {q : Reader}
    (h : x.andThen f = .stop e q) : x = .stop e q ∨ ∃ a r, x = .got a r ∧ f a r = .stop e q := by
  cases x with
  | got a r => exact .inr ⟨a, r, rfl, h⟩
  | stop e' r => cases h; exact .inl rfl

/-- Everything NextBit can do when it answers a bit. -/
theorem nextBit_got {m : Input} {r q : Reader} {b : Bool} (h : nextBit m r = .got b q) :
    b = r.WIN.getLsbD r.CNT.val ∧
    ((r.CNT ≠ 15 ∧ q = { r with CNT := r.CNT + 1 }) ∨
     (r.CNT = 15 ∧ r.ICUR + 2 ≤ m.len ∧ q = { r with WIN := m.window r.ICUR, ICUR := r.ICUR + 2, CNT := 0 })) := by
  unfold nextBit at h
  split at h
  · split at h
    · cases h
    · cases h; exact ⟨rfl, .inr ⟨‹_›, by omega, rfl⟩⟩
  · cases h; exact ⟨rfl, .inl ⟨‹_›, rfl⟩⟩

/-- When NextBit is rejected, and with what. -/
theorem nextBit_stop {m : Input} {r q : Reader} {e : Reject} (h : nextBit m r = .stop e q) :
    e = .endOfInput ∧ q = r ∧ r.CNT = 15 ∧ m.len < r.ICUR + 2 := by
  unfold nextBit at h
  split at h
  · split at h
    · cases h; exact ⟨rfl, rfl, ‹_›, by omega⟩
    · cases h
  · cases h

/-- Everything NextByte can do when it answers a byte. -/
theorem nextByte_got {m : Input} {r q : Reader} {v : Byte} (h : nextByte m r = .got v q) :
    v = m.byte r.ICUR ∧ r.ICUR < m.len ∧ q = { r with ICUR := r.ICUR + 1 } := by
  unfold nextByte at h
  split at h
  · cases h
  · cases h; exact ⟨rfl, by omega, rfl⟩

/-- When NextByte is rejected, and with what. -/
theorem nextByte_stop {m : Input} {r q : Reader} {e : Reject} (h : nextByte m r = .stop e q) :
    e = .endOfInput ∧ q = r ∧ m.len ≤ r.ICUR := by
  unfold nextByte at h
  split at h
  · cases h; exact ⟨rfl, rfl, ‹_›⟩
  · cases h

/-! ## Reads depend on the stream position alone -/

open Machine in
theorem Machine.SameAnswer.andThen {α β : Type} {x y : ReadResult α} {f g : α → Reader → ReadResult β} (h : SameAnswer x y)
    (hf : ∀ a r q, r.samePosition q → SameAnswer (f a r) (g a q)) : SameAnswer (x.andThen f) (y.andThen g) := by
  cases x <;> cases y <;> simp only [SameAnswer] at h
  · obtain ⟨rfl, hp⟩ := h
    exact hf _ _ _ hp
  · exact h

open Machine in
theorem Machine.SameAnswer.symm {α : Type} {x y : ReadResult α} (h : SameAnswer x y) : SameAnswer y x := by
  cases x <;> cases y <;> simp only [SameAnswer] at h ⊢
  · exact ⟨h.1.symm, h.2.symm⟩
  · exact ⟨h.1.symm, h.2.symm⟩

open Machine in
theorem Machine.SameAnswer.trans {α : Type} {x y z : ReadResult α} (h : SameAnswer x y) (h' : SameAnswer y z) : SameAnswer x z := by
  cases x <;> cases y <;> cases z <;> simp only [SameAnswer] at h h' ⊢
  · exact ⟨h.1.trans h'.1, h.2.trans h'.2⟩
  · exact ⟨h.1.trans h'.1, h.2.trans h'.2⟩

open Machine in
theorem Machine.SameAnswer.got_left {α : Type} {x : ReadResult α} {a : α} {r : Reader} (h : SameAnswer (.got a r) x) :
    ∃ q, x = .got a q ∧ r.samePosition q := by
  cases x <;> simp only [SameAnswer] at h
  exact ⟨_, by rw [h.1], h.2⟩

open Machine in
theorem Machine.SameAnswer.stop_left {α : Type} {x : ReadResult α} {e : Reject} {r : Reader} (h : SameAnswer (.stop e r) x) :
    ∃ q, x = .stop e q ∧ r.samePosition q := by
  cases x <;> simp only [SameAnswer] at h
  exact ⟨_, by rw [h.1], h.2⟩

open Machine in
theorem nextBit_congr (m : Input) {r q : Reader} (h : r.samePosition q) : SameAnswer (nextBit m r) (nextBit m q) := by
  obtain ⟨hw, hc, hi⟩ := h
  unfold nextBit
  rw [← hw, ← hc, ← hi]
  split
  · split
    · exact ⟨rfl, hw, hc, hi⟩
    · exact ⟨rfl, rfl, rfl, rfl⟩
  · exact ⟨rfl, rfl, rfl, rfl⟩

open Machine in
theorem nextByte_congr (m : Input) {r q : Reader} (h : r.samePosition q) : SameAnswer (nextByte m r) (nextByte m q) := by
  obtain ⟨hw, hc, hi⟩ := h
  unfold nextByte
  rw [← hi]
  split
  · exact ⟨rfl, hw, hc, hi⟩
  · exact ⟨rfl, hw, hc, rfl⟩

open Machine in
/-- A tree walk depends on the stream position alone. -/
theorem walkTree_congr (T : PrefixTree) (m : Input) (n : Nat) {r q : Reader} (h : r.samePosition q) :
    SameAnswer (walkTree m T n r) (walkTree m T n q) := by
  induction T generalizing n r q with
  | absent => exact ⟨rfl, h⟩
  | leaf v => exact ⟨rfl, h⟩
  | internal z o ihz iho =>
    refine SameAnswer.andThen (nextBit_congr m (r := { r with NODE := n }) (q := { q with NODE := n }) h) fun b r1 q1 h1 => ?_
    cases b
    · exact ihz _ h1
    · exact iho _ h1

open Machine in
theorem decodeSym_congr (T : PrefixTree) (m : Input) {r q : Reader} (h : r.samePosition q) :
    SameAnswer (decodeSym T m r) (decodeSym T m q) :=
  walkTree_congr T m 0 (r := { r with NODE := 0 }) (q := { q with NODE := 0 }) h

/-! ## Delivering items -/

theorem feed_append (m : Input) (xs ys : List Item) (r : Reader) :
    feed m (xs ++ ys) r = (feed m xs r).bind (feed m ys) := by
  induction xs generalizing r with
  | nil => rfl
  | cons x xs ih =>
    cases x with
    | bit b =>
      simp only [List.cons_append, feed]
      split
      · split
        · exact ih _
        · rfl
      · rfl
    | byte v =>
      simp only [List.cons_append, feed]
      split
      · split
        · exact ih _
        · rfl
      · rfl

theorem feed_bit {m : Input} {b : Bool} {is : List Item} {r q : Reader} (h : feed m (.bit b :: is) r = some q) :
    ∃ p, nextBit m r = .got b p ∧ feed m is p = some q := by
  simp only [feed] at h
  split at h
  · split at h
    · rename_i hx hb
      subst hb
      exact ⟨_, hx, h⟩
    · cases h
  · cases h

theorem feed_byte {m : Input} {v : Byte} {is : List Item} {r q : Reader} (h : feed m (.byte v :: is) r = some q) :
    ∃ p, nextByte m r = .got v p ∧ feed m is p = some q := by
  simp only [feed] at h
  split at h
  · split at h
    · rename_i hx hb
      subst hb
      exact ⟨_, hx, h⟩
    · cases h
  · cases h

theorem feed_bit_of {m : Input} {b : Bool} {r p : Reader} (h : nextBit m r = .got b p) (is : List Item) :
    feed m (.bit b :: is) r = feed m is p := by simp [feed, h]

theorem feed_byte_of {m : Input} {v : Byte} {r p : Reader} (h : nextByte m r = .got v p) (is : List Item) :
    feed m (.byte v :: is) r = feed m is p := by simp [feed, h]

theorem feed_congr (m : Input) (is : List Item) {r q p : Reader} (h : r.samePosition q) (hf : feed m is r = some p) :
    ∃ p', feed m is q = some p' ∧ p.samePosition p' := by
  induction is generalizing r q with
  | nil => cases hf; exact ⟨q, rfl, h⟩
  | cons i is ih =>
    cases i with
    | bit b =>
      obtain ⟨r1, h1, h2⟩ := feed_bit hf
      have hs := nextBit_congr m h
      rw [h1] at hs
      obtain ⟨q1, hq, hp⟩ := hs.got_left
      rw [feed_bit_of hq]
      exact ih hp h2
    | byte v =>
      obtain ⟨r1, h1, h2⟩ := feed_byte hf
      have hs := nextByte_congr m h
      rw [h1] at hs
      obtain ⟨q1, hq, hp⟩ := hs.got_left
      rw [feed_byte_of hq]
      exact ih hp h2

/-- Where delivered items leave the cursor and the bit count (R58). -/
theorem feed_length {m : Input} {is : List Item} {r q : Reader} (h : feed m is r = some q) :
    q.ICUR = r.ICUR + (countItems is).2 + 2 * ((r.CNT.val + (countItems is).1) / 16) ∧
    q.CNT.val = (r.CNT.val + (countItems is).1) % 16 := by
  induction is generalizing r with
  | nil =>
    cases h
    have := q.CNT.isLt
    simp only [countItems]
    omega
  | cons i is ih =>
    cases i with
    | bit b =>
      obtain ⟨p, h1, h2⟩ := feed_bit h
      obtain ⟨hi, hc⟩ := ih h2
      simp only [countItems]
      obtain ⟨-, ⟨hne, rfl⟩ | ⟨he, -, rfl⟩⟩ := nextBit_got h1
      · have hv : (r.CNT + 1).val = r.CNT.val + 1 := by
          have := r.CNT.isLt
          have : r.CNT.val ≠ 15 := fun h => hne (Fin.ext h)
          rw [Fin.val_add]
          simp only [Fin.isValue, Fin.val_one]
          omega
        rw [hv] at hi hc
        simp only at hi hc
        omega
      · simp only [he] at hi hc ⊢
        simp only [Fin.isValue, Fin.coe_ofNat_eq_mod] at hi hc ⊢
        omega
    | byte v =>
      obtain ⟨p, h1, h2⟩ := feed_byte h
      obtain ⟨hi, hc⟩ := ih h2
      obtain ⟨-, -, rfl⟩ := nextByte_got h1
      simp only [countItems] at hi hc ⊢
      omega

end Sys2Proof
end

