-- ==== Sys2Proof/Laws/Decode.lean ====
section
/-! SUPPORT. What the decoder can read: each of its parts once, when it answers an instruction; and the rows a length symbol and
an offset value select. -/

namespace Sys2Proof

/-- A format-D row: its encoding, and that it is a well-formed stream instruction of either mode. -/
theorem dupRow_some {sym msb : Sym} {lsb : Byte} {i : Instr} (h : dupRow sym msb lsb = some i) :
    encode i = itemsD sym.toNat msb lsb ∧ i.wf = true ∧ i.isStream = true ∧ (∀ d, i.modeOk d = true) ∧
    Machine.dupForm i = some (sym.toNat, msb, lsb) := by
  unfold dupRow at h
  split at h <;> first
    | (cases h; done)
    | (rename_i hn; cases h; rw [hn]; exact ⟨rfl, rfl, rfl, fun _ => rfl, rfl⟩)

/-- Which length symbols have a format-D row does not depend on the operands. -/
theorem dupRow_none_iff (sym msb msb' : Sym) (lsb lsb' : Byte) : dupRow sym msb lsb = none ↔ dupRow sym msb' lsb' = none := by
  unfold dupRow
  split <;> simp

/-- An offset row's value and code. -/
theorem offsetRow_spec (v : Sym) :
    (offsetRow v).offHigh = some v ∧ encode (offsetRow v) = bitItems (Machine.codeOf Machine.offsetCodes v.toNat) := by
  revert v
  decide

/-- A row that delivers an offset value is that value's row. -/
theorem offsetRow_of_offHigh {i : Instr} {v : Sym} (h : i.offHigh = some v) : i = offsetRow v := by
  cases i <;> simp only [Instr.offHigh, reduceCtorEq, Option.some.injEq] at h <;> subst h <;> rfl

theorem readOffset_got {T : Trees} {m : Input} {r p : Reader} {o : Sym × Byte} (h : readOffset T m r = .got o p) :
    ∃ r1 r2, decodeSym T.O m r = .got o.1 r1 ∧ nextByte m { r1 with MSB := o.1 } = .got o.2 r2 ∧
      p = { r2 with LSB := o.2 } := by
  obtain ⟨msb, r1, h1, h⟩ := ReadResult.andThen_eq_got h
  obtain ⟨lsb, r2, h2, h⟩ := ReadResult.andThen_eq_got h
  cases h
  exact ⟨r1, r2, h1, h2, rfl⟩

theorem decodeLiteral_got {d : Bool} {m : Input} {r p : Reader} {i : Instr} (h : decodeLiteral d m r = .got i p) :
    ∃ e q, nextByte m r = .got e q ∧ i = (if d then .litx e else .lit e) ∧ p.samePosition q := by
  unfold decodeLiteral at h
  split at h
  · obtain ⟨e, q, h1, h⟩ := ReadResult.andThen_eq_got h
    cases h
    have hs := nextByte_congr m (r := { r with KEY := Machine.literalKey r.CNT }) (q := r) ⟨rfl, rfl, rfl⟩
    rw [h1] at hs
    obtain ⟨q', hq, hp⟩ := hs.got_left
    exact ⟨e, q', hq, by simp_all, hp⟩
  · obtain ⟨e, q, h1, h⟩ := ReadResult.andThen_eq_got h
    cases h
    exact ⟨e, q, h1, by simp_all, ⟨rfl, rfl, rfl⟩⟩

theorem decodeEscape_got {T : Trees} {m : Input} {r p : Reader} {i : Instr} (h : decodeEscape T m r = .got i p) :
    ∃ b r1, nextByte m r = .got b r1 ∧
      ((b = Machine.escSkip ∧ i = .skip ∧ p = { r1 with ESC := b }) ∨
       (b = Machine.escEnd ∧ i = .endMark ∧ p = { r1 with ESC := b }) ∨
       (b ≠ Machine.escSkip ∧ b ≠ Machine.escEnd ∧ ∃ o,
          readOffset T m { r1 with ESC := b, CC := Machine.countOfEscape b } = .got o p ∧ i = .dupx b o.1 o.2)) := by
  obtain ⟨b, r1, h1, h⟩ := ReadResult.andThen_eq_got h
  refine ⟨b, r1, h1, ?_⟩
  split at h
  · cases h; exact .inl ⟨‹_›, rfl, rfl⟩
  · split at h
    · cases h; exact .inr (.inl ⟨‹_›, rfl, rfl⟩)
    · obtain ⟨o, r2, h2, h⟩ := ReadResult.andThen_eq_got h
      cases h
      exact .inr (.inr ⟨‹_›, ‹_›, o, h2, rfl⟩)

theorem decodeShort_got {m : Input} {r p : Reader} {i : Instr} (h : decodeShort m r = .got i p) :
    ∃ lsb r1, nextByte m { r with CC := Machine.countOfSym Machine.shortSym, MSB := 0 } = .got lsb r1 ∧
      i = .dup2 lsb ∧ p = { r1 with LSB := lsb } := by
  obtain ⟨lsb, r1, h1, h⟩ := ReadResult.andThen_eq_got h
  cases h
  exact ⟨lsb, r1, h1, rfl, rfl⟩

theorem decodePlain_got {T : Trees} {m : Input} {sym : Sym} {r p : Reader} {i : Instr}
    (h : decodePlain T m sym r = .got i p) :
    ∃ o, readOffset T m { r with CC := Machine.countOfSym sym } = .got o p ∧ dupRow sym o.1 o.2 = some i := by
  unfold decodePlain at h
  split at h
  · cases h
  · obtain ⟨o, r1, h1, h⟩ := ReadResult.andThen_eq_got h
    split at h
    · cases h
    · cases h
      exact ⟨o, h1, ‹_›⟩

theorem decodeDup_got {T : Trees} {m : Input} {r p : Reader} {i : Instr} (h : decodeDup T m r = .got i p) :
    ∃ sym r1, decodeSym T.L m r = .got sym r1 ∧
      ((sym = Machine.sentinel ∧ decodeEscape T m { r1 with SYM := sym } = .got i p) ∨
       (sym = Machine.shortSym ∧ decodeShort m { r1 with SYM := sym } = .got i p) ∨
       (sym ≠ Machine.sentinel ∧ sym ≠ Machine.shortSym ∧ decodePlain T m sym { r1 with SYM := sym } = .got i p)) := by
  obtain ⟨sym, r1, h1, h⟩ := ReadResult.andThen_eq_got h
  refine ⟨sym, r1, h1, ?_⟩
  split at h
  · exact .inl ⟨‹_›, h⟩
  · split at h
    · exact .inr (.inl ⟨‹_›, h⟩)
    · exact .inr (.inr ⟨‹_›, ‹_›, h⟩)

theorem decodeWith_got {T : Trees} {d : Bool} {m : Input} {r p : Reader} {i : Instr}
    (h : decodeWith T d m r = .got i p) :
    ∃ c r1, nextBit m r = .got c r1 ∧
      ((c = true ∧ decodeDup T m r1 = .got i p) ∨ (c = false ∧ decodeLiteral d m r1 = .got i p)) := by
  obtain ⟨c, r1, h1, h⟩ := ReadResult.andThen_eq_got h
  refine ⟨c, r1, h1, ?_⟩
  split at h
  · exact .inl ⟨‹_›, h⟩
  · exact .inr ⟨by simp_all, h⟩

/-- An escape byte that is neither 0xFE nor 0xFF is at most 0xFD (R103). -/
theorem escape_le {b : Byte} (h1 : b ≠ Machine.escSkip) (h2 : b ≠ Machine.escEnd) : b.toNat ≤ 0xFD := by
  have := b.isLt
  have h3 : b.toNat ≠ 0xFE := fun h => h1 (BitVec.eq_of_toNat_eq h)
  have h4 : b.toNat ≠ 0xFF := fun h => h2 (BitVec.eq_of_toNat_eq h)
  omega

/-- Whatever the trees, a decoded instruction is a well-formed stream instruction that the call's DECRYPT admits. -/
theorem decodeWith_got_wf {T : Trees} {d : Bool} {m : Input} {r p : Reader} {i : Instr}
    (h : decodeWith T d m r = .got i p) : i.wf = true ∧ i.isStream = true ∧ i.modeOk d = true := by
  obtain ⟨c, r1, -, ⟨-, h⟩ | ⟨-, h⟩⟩ := decodeWith_got h
  · obtain ⟨sym, r2, -, ⟨-, h⟩ | ⟨-, h⟩ | ⟨-, -, h⟩⟩ := decodeDup_got h
    · obtain ⟨b, r3, -, ⟨-, rfl, -⟩ | ⟨-, rfl, -⟩ | ⟨h1, h2, o, -, rfl⟩⟩ := decodeEscape_got h
      · exact ⟨rfl, rfl, rfl⟩
      · exact ⟨rfl, rfl, rfl⟩
      · exact ⟨by simpa [Instr.wf] using escape_le h1 h2, rfl, rfl⟩
    · obtain ⟨lsb, r3, -, rfl, -⟩ := decodeShort_got h
      exact ⟨rfl, rfl, rfl⟩
    · obtain ⟨o, -, h⟩ := decodePlain_got h
      obtain ⟨-, h1, h2, h3, -⟩ := dupRow_some h
      exact ⟨h1, h2, h3 d⟩
  · obtain ⟨e, q, -, rfl, -⟩ := decodeLiteral_got h
    cases d <;> exact ⟨rfl, rfl, rfl⟩

/-! ## Decoding moves the cursor forward, within the input (R12, R95), whatever the trees -/

theorem nextBit_mono {m : Input} {r p : Reader} {b : Bool} (h : nextBit m r = .got b p) : r.ICUR ≤ p.ICUR := by
  obtain ⟨-, ⟨-, rfl⟩ | ⟨-, -, rfl⟩⟩ := nextBit_got h
  · exact Nat.le_refl _
  · exact Nat.le_add_right _ 2

theorem nextByte_advances {m : Input} {r p : Reader} {v : Byte} (h : nextByte m r = .got v p) :
    r.ICUR < p.ICUR ∧ p.ICUR ≤ m.len := by
  obtain ⟨-, h1, rfl⟩ := nextByte_got h
  exact ⟨Nat.lt_succ_self _, h1⟩

theorem walkTree_mono {m : Input} {t : PrefixTree} {n : Nat} {r p : Reader} {v : Sym} (h : walkTree m t n r = .got v p) :
    r.ICUR ≤ p.ICUR := by
  induction t generalizing n r with
  | absent => cases h
  | leaf w => cases h; exact Nat.le_refl _
  | internal z o ihz iho =>
    obtain ⟨b, r1, h1, h2⟩ := ReadResult.andThen_eq_got h
    cases b
    · exact (nextBit_mono h1).trans (ihz h2)
    · exact (nextBit_mono h1).trans (iho h2)

theorem decodeSym_mono {T : PrefixTree} {m : Input} {r p : Reader} {v : Sym} (h : decodeSym T m r = .got v p) :
    r.ICUR ≤ p.ICUR := walkTree_mono (r := { r with NODE := 0 }) h

theorem readOffset_advances {T : Trees} {m : Input} {r p : Reader} {o : Sym × Byte} (h : readOffset T m r = .got o p) :
    r.ICUR < p.ICUR ∧ p.ICUR ≤ m.len := by
  obtain ⟨r1, r2, h1, h2, rfl⟩ := readOffset_got h
  have hb := nextByte_advances h2
  exact ⟨(decodeSym_mono h1).trans_lt hb.1, hb.2⟩

/-- An instruction consumes at least its raw byte, which is its last item, and ends within the input. -/
theorem decodeWith_advances {T : Trees} {d : Bool} {m : Input} {r p : Reader} {i : Instr}
    (h : decodeWith T d m r = .got i p) : r.ICUR < p.ICUR ∧ p.ICUR ≤ m.len := by
  obtain ⟨c, r1, h0, ⟨-, h⟩ | ⟨-, h⟩⟩ := decodeWith_got h
  · obtain ⟨sym, r2, h1, hc⟩ := decodeDup_got h
    have hm := (nextBit_mono h0).trans (decodeSym_mono h1)
    rcases hc with ⟨-, h⟩ | ⟨-, h⟩ | ⟨-, -, h⟩
    · obtain ⟨b, r3, h2, h⟩ := decodeEscape_got h
      have hb := nextByte_advances h2
      rcases h with ⟨-, -, rfl⟩ | ⟨-, -, rfl⟩ | ⟨-, -, o, h, -⟩
      · exact ⟨hm.trans_lt hb.1, hb.2⟩
      · exact ⟨hm.trans_lt hb.1, hb.2⟩
      · have ho := readOffset_advances h
        exact ⟨(hm.trans_lt hb.1).trans ho.1, ho.2⟩
    · obtain ⟨lsb, r3, h2, -, rfl⟩ := decodeShort_got h
      have hb := nextByte_advances h2
      exact ⟨hm.trans_lt hb.1, hb.2⟩
    · obtain ⟨o, h, -⟩ := decodePlain_got h
      have ho := readOffset_advances h
      exact ⟨hm.trans_lt ho.1, ho.2⟩
  · obtain ⟨e, q, h1, -, hs⟩ := decodeLiteral_got h
    have hb := nextByte_advances h1
    rw [hs.2.2]
    exact ⟨(nextBit_mono h0).trans_lt hb.1, hb.2⟩

/-! ## Decoding depends on the stream position alone (R13, R19) -/

open Machine in
theorem readOffset_congr (T : Trees) (m : Input) {r q : Reader} (h : r.samePosition q) :
    SameAnswer (readOffset T m r) (readOffset T m q) := by
  refine (decodeSym_congr T.O m h).andThen fun msb r1 q1 h1 => ?_
  refine Machine.SameAnswer.andThen (nextByte_congr m (r := { r1 with MSB := msb }) (q := { q1 with MSB := msb }) h1) ?_
  exact fun _ _ _ h2 => ⟨rfl, h2⟩

open Machine in
theorem decodeLiteral_congr (d : Bool) (m : Input) {r q : Reader} (h : r.samePosition q) :
    SameAnswer (decodeLiteral d m r) (decodeLiteral d m q) := by
  unfold decodeLiteral
  split
  · exact Machine.SameAnswer.andThen (nextByte_congr m (r := { r with KEY := literalKey r.CNT })
      (q := { q with KEY := literalKey q.CNT }) h) fun _ _ _ h1 => ⟨rfl, h1⟩
  · exact (nextByte_congr m h).andThen fun _ _ _ h1 => ⟨rfl, h1⟩

open Machine in
theorem decodeEscape_congr (T : Trees) (m : Input) {r q : Reader} (h : r.samePosition q) :
    SameAnswer (decodeEscape T m r) (decodeEscape T m q) := by
  refine (nextByte_congr m h).andThen fun b r1 q1 h1 => ?_
  split
  · exact ⟨rfl, h1⟩
  · split
    · exact ⟨rfl, h1⟩
    · exact Machine.SameAnswer.andThen (readOffset_congr T m (r := { r1 with ESC := b, CC := countOfEscape b })
        (q := { q1 with ESC := b, CC := countOfEscape b }) h1) fun _ _ _ h2 => ⟨rfl, h2⟩

open Machine in
theorem decodeShort_congr (m : Input) {r q : Reader} (h : r.samePosition q) :
    SameAnswer (decodeShort m r) (decodeShort m q) :=
  Machine.SameAnswer.andThen (nextByte_congr m (r := { r with CC := countOfSym shortSym, MSB := 0 })
    (q := { q with CC := countOfSym shortSym, MSB := 0 }) h) fun _ _ _ h1 => ⟨rfl, h1⟩

open Machine in
theorem decodePlain_congr (T : Trees) (m : Input) (sym : Sym) {r q : Reader} (h : r.samePosition q) :
    SameAnswer (decodePlain T m sym r) (decodePlain T m sym q) := by
  unfold decodePlain
  cases dupRow sym 0 0 with
  | none => exact ⟨rfl, h⟩
  | some _ =>
    refine Machine.SameAnswer.andThen (readOffset_congr T m (r := { r with CC := countOfSym sym })
      (q := { q with CC := countOfSym sym }) h) fun o _ _ h1 => ?_
    cases dupRow sym o.1 o.2 with
    | none => exact ⟨rfl, h1⟩
    | some _ => exact ⟨rfl, h1⟩

open Machine in
theorem decodeDup_congr (T : Trees) (m : Input) {r q : Reader} (h : r.samePosition q) :
    SameAnswer (decodeDup T m r) (decodeDup T m q) := by
  refine (decodeSym_congr T.L m h).andThen fun sym r1 q1 h1 => ?_
  split
  · exact decodeEscape_congr T m (r := { r1 with SYM := sym }) (q := { q1 with SYM := sym }) h1
  · split
    · exact decodeShort_congr m (r := { r1 with SYM := sym }) (q := { q1 with SYM := sym }) h1
    · exact decodePlain_congr T m sym (r := { r1 with SYM := sym }) (q := { q1 with SYM := sym }) h1

open Machine in
theorem decodeWith_congr (T : Trees) (d : Bool) (m : Input) {r q : Reader} (h : r.samePosition q) :
    SameAnswer (decodeWith T d m r) (decodeWith T d m q) := by
  refine (nextBit_congr m h).andThen fun c r1 q1 h1 => ?_
  cases c
  · exact decodeLiteral_congr d m h1
  · exact decodeDup_congr T m h1

end Sys2Proof
end

