-- ==== Sys2Proof/Laws/State.lean ====
section
/-! SUPPORT. One lemma per field per named update of State, all by rfl, so that no later proof unfolds a record update. -/

namespace Sys2Proof.Machine

@[simp] theorem abort_trees (k : ErrKind) (s : State) : (abort k s).trees = s.trees := rfl
@[simp] theorem abort_WIN (k : ErrKind) (s : State) : (abort k s).WIN = s.WIN := rfl
@[simp] theorem abort_CNT (k : ErrKind) (s : State) : (abort k s).CNT = s.CNT := rfl
@[simp] theorem abort_ICUR (k : ErrKind) (s : State) : (abort k s).ICUR = s.ICUR := rfl
@[simp] theorem abort_NODE (k : ErrKind) (s : State) : (abort k s).NODE = s.NODE := rfl
@[simp] theorem abort_SYM (k : ErrKind) (s : State) : (abort k s).SYM = s.SYM := rfl
@[simp] theorem abort_ESC (k : ErrKind) (s : State) : (abort k s).ESC = s.ESC := rfl
@[simp] theorem abort_CC (k : ErrKind) (s : State) : (abort k s).CC = s.CC := rfl
@[simp] theorem abort_MSB (k : ErrKind) (s : State) : (abort k s).MSB = s.MSB := rfl
@[simp] theorem abort_LSB (k : ErrKind) (s : State) : (abort k s).LSB = s.LSB := rfl
@[simp] theorem abort_KEY (k : ErrKind) (s : State) : (abort k s).KEY = s.KEY := rfl
@[simp] theorem abort_EB (k : ErrKind) (s : State) : (abort k s).EB = s.EB := rfl
@[simp] theorem abort_IN (k : ErrKind) (s : State) : (abort k s).IN = s.IN := rfl
@[simp] theorem abort_INLEN (k : ErrKind) (s : State) : (abort k s).INLEN = s.INLEN := rfl
@[simp] theorem abort_OUTCAP (k : ErrKind) (s : State) : (abort k s).OUTCAP = s.OUTCAP := rfl
@[simp] theorem abort_DECRYPT (k : ErrKind) (s : State) : (abort k s).DECRYPT = s.DECRYPT := rfl
@[simp] theorem abort_ST (k : ErrKind) (s : State) : (abort k s).ST = .err := rfl
@[simp] theorem abort_ERR (k : ErrKind) (s : State) : (abort k s).ERR = some k := rfl
@[simp] theorem abort_BYTECOUNT (k : ErrKind) (s : State) : (abort k s).BYTECOUNT = s.BYTECOUNT := rfl
@[simp] theorem abort_OPOS (k : ErrKind) (s : State) : (abort k s).OPOS = s.OPOS := rfl
@[simp] theorem abort_OUT (k : ErrKind) (s : State) : (abort k s).OUT = s.OUT := rfl
@[simp] theorem abort_OFF (k : ErrKind) (s : State) : (abort k s).OFF = s.OFF := rfl
@[simp] theorem abort_SRC (k : ErrKind) (s : State) : (abort k s).SRC = s.SRC := rfl
@[simp] theorem abort_REM (k : ErrKind) (s : State) : (abort k s).REM = s.REM := rfl
@[simp] theorem abort_START (k : ErrKind) (s : State) : (abort k s).START = s.START := rfl
@[simp] theorem abort_draws (k : ErrKind) (s : State) : (abort k s).draws = s.draws := rfl

@[simp] theorem latchOffsetHigh_trees (msb : Sym) (s : State) : (latchOffsetHigh msb s).trees = s.trees := rfl
@[simp] theorem latchOffsetHigh_WIN (msb : Sym) (s : State) : (latchOffsetHigh msb s).WIN = s.WIN := rfl
@[simp] theorem latchOffsetHigh_CNT (msb : Sym) (s : State) : (latchOffsetHigh msb s).CNT = s.CNT := rfl
@[simp] theorem latchOffsetHigh_ICUR (msb : Sym) (s : State) : (latchOffsetHigh msb s).ICUR = s.ICUR := rfl
@[simp] theorem latchOffsetHigh_NODE (msb : Sym) (s : State) : (latchOffsetHigh msb s).NODE = s.NODE := rfl
@[simp] theorem latchOffsetHigh_SYM (msb : Sym) (s : State) : (latchOffsetHigh msb s).SYM = s.SYM := rfl
@[simp] theorem latchOffsetHigh_ESC (msb : Sym) (s : State) : (latchOffsetHigh msb s).ESC = s.ESC := rfl
@[simp] theorem latchOffsetHigh_CC (msb : Sym) (s : State) : (latchOffsetHigh msb s).CC = s.CC := rfl
@[simp] theorem latchOffsetHigh_MSB (msb : Sym) (s : State) : (latchOffsetHigh msb s).MSB = msb := rfl
@[simp] theorem latchOffsetHigh_LSB (msb : Sym) (s : State) : (latchOffsetHigh msb s).LSB = s.LSB := rfl
@[simp] theorem latchOffsetHigh_KEY (msb : Sym) (s : State) : (latchOffsetHigh msb s).KEY = s.KEY := rfl
@[simp] theorem latchOffsetHigh_EB (msb : Sym) (s : State) : (latchOffsetHigh msb s).EB = s.EB := rfl
@[simp] theorem latchOffsetHigh_IN (msb : Sym) (s : State) : (latchOffsetHigh msb s).IN = s.IN := rfl
@[simp] theorem latchOffsetHigh_INLEN (msb : Sym) (s : State) : (latchOffsetHigh msb s).INLEN = s.INLEN := rfl
@[simp] theorem latchOffsetHigh_OUTCAP (msb : Sym) (s : State) : (latchOffsetHigh msb s).OUTCAP = s.OUTCAP := rfl
@[simp] theorem latchOffsetHigh_DECRYPT (msb : Sym) (s : State) : (latchOffsetHigh msb s).DECRYPT = s.DECRYPT := rfl
@[simp] theorem latchOffsetHigh_ST (msb : Sym) (s : State) : (latchOffsetHigh msb s).ST = s.ST := rfl
@[simp] theorem latchOffsetHigh_ERR (msb : Sym) (s : State) : (latchOffsetHigh msb s).ERR = s.ERR := rfl
@[simp] theorem latchOffsetHigh_BYTECOUNT (msb : Sym) (s : State) : (latchOffsetHigh msb s).BYTECOUNT = s.BYTECOUNT := rfl
@[simp] theorem latchOffsetHigh_OPOS (msb : Sym) (s : State) : (latchOffsetHigh msb s).OPOS = s.OPOS := rfl
@[simp] theorem latchOffsetHigh_OUT (msb : Sym) (s : State) : (latchOffsetHigh msb s).OUT = s.OUT := rfl
@[simp] theorem latchOffsetHigh_OFF (msb : Sym) (s : State) : (latchOffsetHigh msb s).OFF = s.OFF := rfl
@[simp] theorem latchOffsetHigh_SRC (msb : Sym) (s : State) : (latchOffsetHigh msb s).SRC = s.SRC := rfl
@[simp] theorem latchOffsetHigh_REM (msb : Sym) (s : State) : (latchOffsetHigh msb s).REM = s.REM := rfl
@[simp] theorem latchOffsetHigh_START (msb : Sym) (s : State) : (latchOffsetHigh msb s).START = s.START := rfl
@[simp] theorem latchOffsetHigh_draws (msb : Sym) (s : State) : (latchOffsetHigh msb s).draws = s.draws := rfl

@[simp] theorem latchDup_trees (y : Sym) (c : Count) (msb : Sym) (lsb : Byte) (s : State) : (latchDup y c msb lsb s).trees = s.trees := rfl
@[simp] theorem latchDup_WIN (y : Sym) (c : Count) (msb : Sym) (lsb : Byte) (s : State) : (latchDup y c msb lsb s).WIN = s.WIN := rfl
@[simp] theorem latchDup_CNT (y : Sym) (c : Count) (msb : Sym) (lsb : Byte) (s : State) : (latchDup y c msb lsb s).CNT = s.CNT := rfl
@[simp] theorem latchDup_ICUR (y : Sym) (c : Count) (msb : Sym) (lsb : Byte) (s : State) : (latchDup y c msb lsb s).ICUR = s.ICUR := rfl
@[simp] theorem latchDup_NODE (y : Sym) (c : Count) (msb : Sym) (lsb : Byte) (s : State) : (latchDup y c msb lsb s).NODE = s.NODE := rfl
@[simp] theorem latchDup_SYM (y : Sym) (c : Count) (msb : Sym) (lsb : Byte) (s : State) : (latchDup y c msb lsb s).SYM = y := rfl
@[simp] theorem latchDup_ESC (y : Sym) (c : Count) (msb : Sym) (lsb : Byte) (s : State) : (latchDup y c msb lsb s).ESC = s.ESC := rfl
@[simp] theorem latchDup_CC (y : Sym) (c : Count) (msb : Sym) (lsb : Byte) (s : State) : (latchDup y c msb lsb s).CC = c := rfl
@[simp] theorem latchDup_MSB (y : Sym) (c : Count) (msb : Sym) (lsb : Byte) (s : State) : (latchDup y c msb lsb s).MSB = msb := rfl
@[simp] theorem latchDup_LSB (y : Sym) (c : Count) (msb : Sym) (lsb : Byte) (s : State) : (latchDup y c msb lsb s).LSB = lsb := rfl
@[simp] theorem latchDup_KEY (y : Sym) (c : Count) (msb : Sym) (lsb : Byte) (s : State) : (latchDup y c msb lsb s).KEY = s.KEY := rfl
@[simp] theorem latchDup_EB (y : Sym) (c : Count) (msb : Sym) (lsb : Byte) (s : State) : (latchDup y c msb lsb s).EB = s.EB := rfl
@[simp] theorem latchDup_IN (y : Sym) (c : Count) (msb : Sym) (lsb : Byte) (s : State) : (latchDup y c msb lsb s).IN = s.IN := rfl
@[simp] theorem latchDup_INLEN (y : Sym) (c : Count) (msb : Sym) (lsb : Byte) (s : State) : (latchDup y c msb lsb s).INLEN = s.INLEN := rfl
@[simp] theorem latchDup_OUTCAP (y : Sym) (c : Count) (msb : Sym) (lsb : Byte) (s : State) : (latchDup y c msb lsb s).OUTCAP = s.OUTCAP := rfl
@[simp] theorem latchDup_DECRYPT (y : Sym) (c : Count) (msb : Sym) (lsb : Byte) (s : State) : (latchDup y c msb lsb s).DECRYPT = s.DECRYPT := rfl
@[simp] theorem latchDup_ST (y : Sym) (c : Count) (msb : Sym) (lsb : Byte) (s : State) : (latchDup y c msb lsb s).ST = s.ST := rfl
@[simp] theorem latchDup_ERR (y : Sym) (c : Count) (msb : Sym) (lsb : Byte) (s : State) : (latchDup y c msb lsb s).ERR = s.ERR := rfl
@[simp] theorem latchDup_BYTECOUNT (y : Sym) (c : Count) (msb : Sym) (lsb : Byte) (s : State) : (latchDup y c msb lsb s).BYTECOUNT = s.BYTECOUNT := rfl
@[simp] theorem latchDup_OPOS (y : Sym) (c : Count) (msb : Sym) (lsb : Byte) (s : State) : (latchDup y c msb lsb s).OPOS = s.OPOS := rfl
@[simp] theorem latchDup_OUT (y : Sym) (c : Count) (msb : Sym) (lsb : Byte) (s : State) : (latchDup y c msb lsb s).OUT = s.OUT := rfl
@[simp] theorem latchDup_OFF (y : Sym) (c : Count) (msb : Sym) (lsb : Byte) (s : State) : (latchDup y c msb lsb s).OFF = assembleOffset msb lsb := rfl
@[simp] theorem latchDup_SRC (y : Sym) (c : Count) (msb : Sym) (lsb : Byte) (s : State) : (latchDup y c msb lsb s).SRC = s.SRC := rfl
@[simp] theorem latchDup_REM (y : Sym) (c : Count) (msb : Sym) (lsb : Byte) (s : State) : (latchDup y c msb lsb s).REM = s.REM := rfl
@[simp] theorem latchDup_START (y : Sym) (c : Count) (msb : Sym) (lsb : Byte) (s : State) : (latchDup y c msb lsb s).START = s.START := rfl
@[simp] theorem latchDup_draws (y : Sym) (c : Count) (msb : Sym) (lsb : Byte) (s : State) : (latchDup y c msb lsb s).draws = s.draws := rfl

@[simp] theorem latchEscape_trees (b : Byte) (s : State) : (latchEscape b s).trees = s.trees := rfl
@[simp] theorem latchEscape_WIN (b : Byte) (s : State) : (latchEscape b s).WIN = s.WIN := rfl
@[simp] theorem latchEscape_CNT (b : Byte) (s : State) : (latchEscape b s).CNT = s.CNT := rfl
@[simp] theorem latchEscape_ICUR (b : Byte) (s : State) : (latchEscape b s).ICUR = s.ICUR := rfl
@[simp] theorem latchEscape_NODE (b : Byte) (s : State) : (latchEscape b s).NODE = s.NODE := rfl
@[simp] theorem latchEscape_SYM (b : Byte) (s : State) : (latchEscape b s).SYM = sentinel := rfl
@[simp] theorem latchEscape_ESC (b : Byte) (s : State) : (latchEscape b s).ESC = b := rfl
@[simp] theorem latchEscape_CC (b : Byte) (s : State) : (latchEscape b s).CC = s.CC := rfl
@[simp] theorem latchEscape_MSB (b : Byte) (s : State) : (latchEscape b s).MSB = s.MSB := rfl
@[simp] theorem latchEscape_LSB (b : Byte) (s : State) : (latchEscape b s).LSB = s.LSB := rfl
@[simp] theorem latchEscape_KEY (b : Byte) (s : State) : (latchEscape b s).KEY = s.KEY := rfl
@[simp] theorem latchEscape_EB (b : Byte) (s : State) : (latchEscape b s).EB = s.EB := rfl
@[simp] theorem latchEscape_IN (b : Byte) (s : State) : (latchEscape b s).IN = s.IN := rfl
@[simp] theorem latchEscape_INLEN (b : Byte) (s : State) : (latchEscape b s).INLEN = s.INLEN := rfl
@[simp] theorem latchEscape_OUTCAP (b : Byte) (s : State) : (latchEscape b s).OUTCAP = s.OUTCAP := rfl
@[simp] theorem latchEscape_DECRYPT (b : Byte) (s : State) : (latchEscape b s).DECRYPT = s.DECRYPT := rfl
@[simp] theorem latchEscape_ST (b : Byte) (s : State) : (latchEscape b s).ST = s.ST := rfl
@[simp] theorem latchEscape_ERR (b : Byte) (s : State) : (latchEscape b s).ERR = s.ERR := rfl
@[simp] theorem latchEscape_BYTECOUNT (b : Byte) (s : State) : (latchEscape b s).BYTECOUNT = s.BYTECOUNT := rfl
@[simp] theorem latchEscape_OPOS (b : Byte) (s : State) : (latchEscape b s).OPOS = s.OPOS := rfl
@[simp] theorem latchEscape_OUT (b : Byte) (s : State) : (latchEscape b s).OUT = s.OUT := rfl
@[simp] theorem latchEscape_OFF (b : Byte) (s : State) : (latchEscape b s).OFF = s.OFF := rfl
@[simp] theorem latchEscape_SRC (b : Byte) (s : State) : (latchEscape b s).SRC = s.SRC := rfl
@[simp] theorem latchEscape_REM (b : Byte) (s : State) : (latchEscape b s).REM = s.REM := rfl
@[simp] theorem latchEscape_START (b : Byte) (s : State) : (latchEscape b s).START = s.START := rfl
@[simp] theorem latchEscape_draws (b : Byte) (s : State) : (latchEscape b s).draws = s.draws := rfl

@[simp] theorem putReader_trees (r : Reader) (s : State) : (putReader r s).trees = s.trees := rfl
@[simp] theorem putReader_WIN (r : Reader) (s : State) : (putReader r s).WIN = r.WIN := rfl
@[simp] theorem putReader_CNT (r : Reader) (s : State) : (putReader r s).CNT = r.CNT := rfl
@[simp] theorem putReader_ICUR (r : Reader) (s : State) : (putReader r s).ICUR = r.ICUR := rfl
@[simp] theorem putReader_NODE (r : Reader) (s : State) : (putReader r s).NODE = r.NODE := rfl
@[simp] theorem putReader_SYM (r : Reader) (s : State) : (putReader r s).SYM = r.SYM := rfl
@[simp] theorem putReader_ESC (r : Reader) (s : State) : (putReader r s).ESC = r.ESC := rfl
@[simp] theorem putReader_CC (r : Reader) (s : State) : (putReader r s).CC = r.CC := rfl
@[simp] theorem putReader_MSB (r : Reader) (s : State) : (putReader r s).MSB = r.MSB := rfl
@[simp] theorem putReader_LSB (r : Reader) (s : State) : (putReader r s).LSB = r.LSB := rfl
@[simp] theorem putReader_KEY (r : Reader) (s : State) : (putReader r s).KEY = r.KEY := rfl
@[simp] theorem putReader_EB (r : Reader) (s : State) : (putReader r s).EB = r.EB := rfl
@[simp] theorem putReader_IN (r : Reader) (s : State) : (putReader r s).IN = s.IN := rfl
@[simp] theorem putReader_INLEN (r : Reader) (s : State) : (putReader r s).INLEN = s.INLEN := rfl
@[simp] theorem putReader_OUTCAP (r : Reader) (s : State) : (putReader r s).OUTCAP = s.OUTCAP := rfl
@[simp] theorem putReader_DECRYPT (r : Reader) (s : State) : (putReader r s).DECRYPT = s.DECRYPT := rfl
@[simp] theorem putReader_ST (r : Reader) (s : State) : (putReader r s).ST = s.ST := rfl
@[simp] theorem putReader_ERR (r : Reader) (s : State) : (putReader r s).ERR = s.ERR := rfl
@[simp] theorem putReader_BYTECOUNT (r : Reader) (s : State) : (putReader r s).BYTECOUNT = s.BYTECOUNT := rfl
@[simp] theorem putReader_OPOS (r : Reader) (s : State) : (putReader r s).OPOS = s.OPOS := rfl
@[simp] theorem putReader_OUT (r : Reader) (s : State) : (putReader r s).OUT = s.OUT := rfl
@[simp] theorem putReader_OFF (r : Reader) (s : State) : (putReader r s).OFF = s.OFF := rfl
@[simp] theorem putReader_SRC (r : Reader) (s : State) : (putReader r s).SRC = s.SRC := rfl
@[simp] theorem putReader_REM (r : Reader) (s : State) : (putReader r s).REM = s.REM := rfl
@[simp] theorem putReader_START (r : Reader) (s : State) : (putReader r s).START = s.START := rfl
@[simp] theorem putReader_draws (r : Reader) (s : State) : (putReader r s).draws = s.draws := rfl

@[simp] theorem putReader_toReader (r : Reader) (s : State) : (putReader r s).toReader = r := rfl

@[simp] theorem inputOf_putReader (r : Reader) (s : State) : inputOf (putReader r s) = inputOf s := rfl

@[simp] theorem inputOf_cells (s : State) : (inputOf s).cells = s.IN := rfl

@[simp] theorem inputOf_len (s : State) : (inputOf s).len = s.INLEN := rfl

@[simp] theorem settle_ok (s : State) : settle (.ok s) = .next s := rfl

@[simp] theorem settle_raise (k : ErrKind) (s : State) : settle (.raise k s) = .next (abort k s) := rfl

/-- Power-on of any block leaves the trees as they were built. -/
@[simp] theorem powerOn_trees (T : Trees) : (State.powerOn T).trees = T := rfl

/-- Power-on memories are in canonical form. -/
theorem reset_memories_wf : Memory.wf State.reset.IN = true ∧ Memory.wf State.reset.OUT = true := ⟨rfl, rfl⟩

end Sys2Proof.Machine
end

