-- ==== Sys2Proof/Laws/Ops.lean ====
section
/-! SUPPORT. What each shared operation can do, once: Emit (R108), a read of OUT (R107, R109), a round of Copy, Copy's loop, the
operands of a duplication (R57), START with Init (R70, R141). -/

namespace Sys2Proof.Machine

theorem emit_ok (v : Byte) {s : State} (h : s.OPOS < s.OUTCAP) :
    emit v s = .ok { s with OUT := Memory.write s.OUT s.OPOS v, OPOS := s.OPOS + 1 } := by
  simp [emit, outFull, h]

theorem emit_full (v : Byte) {s : State} (h : s.OUTCAP ≤ s.OPOS) : emit v s = .raise .ovf s := by
  simp [emit, outFull, h]

/-- A read of OUT changes the draw counter and nothing else. -/
theorem readOut_state (a : Nat) (s : State) :
    readOut a s = ((readOut a s).1, { s with draws := (readOut a s).2.draws }) := by
  unfold readOut
  split <;> rfl

/-- Reading a cell written in this call. -/
theorem readOut_written {a : Nat} {s : State} {v : Byte} (h : a < s.OPOS) (hv : Memory.read s.OUT a = some v) :
    readOut a s = (v, s) := by
  simp [readOut, h, hv]

/-- Reading a cell not written in this call gives the next free byte (R109). -/
theorem readOut_unwritten {a : Nat} {s : State} (h : s.OPOS ≤ a) :
    readOut a s = (Config.freeByte s.draws, { s with draws := s.draws + 1 }) := by
  simp [readOut, Nat.not_lt.2 h]

/-- A round of Copy with a cell left. -/
theorem copyByte_ok {s : State} (h : s.OPOS < s.OUTCAP) :
    copyByte s = .ok { s with
      OUT := Memory.write s.OUT s.OPOS (readOut s.SRC s).1, OPOS := s.OPOS + 1, SRC := s.SRC + 1, REM := s.REM - 1,
      draws := (readOut s.SRC s).2.draws } := by
  unfold copyByte
  generalize hp : readOut s.SRC s = p
  have hs := readOut_state s.SRC s
  rw [hp] at hs
  rw [hs, emit_ok _ (s := { s with draws := p.2.draws }) h]

/-- A round of Copy with no cell left. -/
theorem copyByte_full {s : State} (h : s.OUTCAP ≤ s.OPOS) :
    copyByte s = .raise .ovf { s with draws := (readOut s.SRC s).2.draws } := by
  unfold copyByte
  generalize hp : readOut s.SRC s = p
  have hs := readOut_state s.SRC s
  rw [hp] at hs
  rw [hs, emit_full _ (s := { s with draws := p.2.draws }) h]

/-- What Copy's loop may change: OUT at and above OPOS, and the registers of the copy. -/
structure CopyFrame (s t : State) : Prop where
  rest : t = { s with OUT := t.OUT, OPOS := t.OPOS, SRC := t.SRC, REM := t.REM, draws := t.draws }
  below : ∀ a, a < s.OPOS → Memory.read t.OUT a = Memory.read s.OUT a
  above : ∀ a, t.OPOS ≤ a → Memory.read t.OUT a = Memory.read s.OUT a
  written : ∀ a, s.OPOS ≤ a → a < t.OPOS → (Memory.read t.OUT a).isSome = true
  canonical : Memory.wf s.OUT = true → Memory.wf t.OUT = true

theorem CopyFrame.refl (s : State) : CopyFrame s s :=
  ⟨rfl, fun _ _ => rfl, fun _ _ => rfl, fun a h h' => absurd h (by omega), id⟩

/-- Everything Copy's loop can do: with room for all bytes it completes, and otherwise it raises OVF; either way it stays
within its frame. -/
theorem copyLoop_spec (n : Nat) (s : State) :
    (s.OPOS + n ≤ s.OUTCAP → ∃ t, copyLoop n s = .ok t ∧ t.OPOS = s.OPOS + n ∧ CopyFrame s t) ∧
    (s.OUTCAP < s.OPOS + n → 0 < n → ∃ t, copyLoop n s = .raise .ovf t ∧
      t = { s with OUT := t.OUT, OPOS := t.OPOS, SRC := t.SRC, REM := t.REM, draws := t.draws } ∧
      (Memory.wf s.OUT = true → Memory.wf t.OUT = true)) := by
  induction n generalizing s with
  | zero => exact ⟨fun _ => ⟨s, rfl, rfl, .refl s⟩, fun _ h => absurd h (by omega)⟩
  | succ n ih =>
    by_cases h : s.OPOS < s.OUTCAP
    · have hb := copyByte_ok h
      generalize hu : ({ s with
        OUT := Memory.write s.OUT s.OPOS (readOut s.SRC s).1, OPOS := s.OPOS + 1, SRC := s.SRC + 1, REM := s.REM - 1,
        draws := (readOut s.SRC s).2.draws } : State) = u at hb
      have hO : u.OPOS = s.OPOS + 1 := by rw [← hu]
      have hC : u.OUTCAP = s.OUTCAP := by rw [← hu]
      have hM : u.OUT = Memory.write s.OUT s.OPOS (readOut s.SRC s).1 := by rw [← hu]
      simp only [copyLoop, hb]
      refine ⟨fun hr => ?_, fun hr _ => ?_⟩
      · obtain ⟨t, h1, h2, h3⟩ := (ih u).1 (by omega)
        refine ⟨t, h1, by omega, ⟨?_, fun a ha => ?_, fun a ha => ?_, fun a ha ha' => ?_, fun hw => h3.canonical ?_⟩⟩
        · rw [h3.rest, ← hu]
        · rw [h3.below a (by omega), hM, Memory.read_write_other _ _ _ _ (by omega)]
        · rw [h3.above a ha, hM, Memory.read_write_other _ _ _ _ (by omega)]
        · by_cases he : a = s.OPOS
          · rw [he, h3.below _ (by omega), hM, Memory.read_write_same]; rfl
          · exact h3.written a (by omega) ha'
        · rw [hM]; exact Memory.wf_write _ _ hw
      · have hn : 0 < n := by omega
        obtain ⟨t, h1, h2, h3⟩ := (ih u).2 (by omega) hn
        refine ⟨t, h1, ?_, fun hw => h3 ?_⟩
        · rw [h2, ← hu]
        · rw [hM]; exact Memory.wf_write _ _ hw
    · refine ⟨fun hr => absurd hr (by omega), fun hr _ => ?_⟩
      simp only [copyLoop, copyByte_full (Nat.not_lt.1 h)]
      exact ⟨_, rfl, rfl, id⟩

/-- The offset is the low byte plus 256 times the high one (R105). -/
theorem assembleOffset_toNat (msb : Sym) (lsb : Byte) : (assembleOffset msb lsb).toNat = distance msb lsb := by
  have h1 := lsb.isLt
  have h2 := msb.isLt
  simp only [assembleOffset, distance, BitVec.toNat_or, BitVec.toNat_setWidth, BitVec.toNat_shiftLeft]
  rw [Nat.mod_eq_of_lt (a := lsb.toNat) (by omega), Nat.mod_eq_of_lt (a := msb.toNat) (by omega), Nat.or_comm,
    Nat.mod_eq_of_lt (by rw [Nat.shiftLeft_eq]; omega), ← Nat.shiftLeft_add_eq_or_of_lt (by omega), Nat.shiftLeft_eq]
  omega

/-- The count of format X is exact (R104). -/
theorem countOfEscape_toNat (b : Byte) : (countOfEscape b).toNat = b.toNat + 25 := by
  have := b.isLt
  simp only [countOfEscape, BitVec.toNat_add, BitVec.toNat_setWidth, BitVec.toNat_ofNat]
  omega

/-- The key is 16 - CNT (R93). -/
theorem literalKey_eq (c : Fin 16) : literalKey c = BitVec.ofNat 8 (16 - c.val) := by
  revert c
  decide

/-- The key lies in 1 to 16 (R94). -/
theorem literalKey_toNat (c : Fin 16) : (literalKey c).toNat = 16 - c.val := by
  revert c
  decide

/-- Every meaning of a duplication row is the shared operation, on the state with the escape byte of DUPX in its register. -/
theorem exec_dup {i : Instr} {n : Nat} {msb : Sym} {lsb : Byte} (h : dupForm i = some (n, msb, lsb)) (s : State) :
    ∃ (y : Sym) (c : Count) (u : State), exec i s = duplicate y c msb lsb u ∧ c.toNat = n ∧ 2 ≤ n ∧
      u = { s with SYM := u.SYM, ESC := u.ESC } ∧
      ((∀ b, i ≠ .dupx b msb lsb) → u.ESC = s.ESC) ∧ (∀ b, i = .dupx b msb lsb → u.ESC = b) := by
  cases i <;> simp only [dupForm, reduceCtorEq, Option.some.injEq, Prod.mk.injEq] at h
  case dupx b msb' lsb' =>
    split at h
    · rename_i hb
      simp only [Option.some.injEq, Prod.mk.injEq] at h
      obtain ⟨rfl, rfl, rfl⟩ := h
      refine ⟨sentinel, countOfEscape b, latchEscape b s, ?_, countOfEscape_toNat b, by omega, rfl, fun h => absurd rfl (h b),
        fun b' h => by cases h; rfl⟩
      simp [exec, execDupx, hb]
    · cases h
  all_goals
    obtain ⟨rfl, rfl, rfl⟩ := h
    exact ⟨_, _, s, rfl, rfl, by omega, rfl, fun _ => rfl, fun b h => by cases h⟩

/-- Everything START can do (R70, R141). -/
theorem startCall_cases (s : State) :
    (s.INLEN < 2 ∧ startCall s = .next (abort .eoi { s with ST := .run, ERR := none, START := false })) ∨
    (2 ≤ s.INLEN ∧ startCall s = .next { s with
      ST := .run, ERR := none, START := false, WIN := (inputOf s).window 0, ICUR := 2, CNT := 0, OPOS := 0 }) := by
  unfold startCall sessionInit
  by_cases h : s.INLEN < 2
  · exact .inl ⟨h, by simp [h]⟩
  · exact .inr ⟨by omega, by simp [h, inputOf]⟩

/-- A START that answers a next state was within the contract (R15, R86), and is performed. -/
theorem acceptStart_next {s t : State} (h : acceptStart s = .next t) :
    1 ≤ s.OUTCAP ∧ treesUsable s.trees = true ∧ startCall s = .next t := by
  unfold acceptStart at h
  split at h
  · cases h
  · split at h
    · exact ⟨by omega, ‹_›, h⟩
    · cases h

/-- A START within the contract is performed. -/
theorem acceptStart_eq {s : State} (h : 1 ≤ s.OUTCAP) (hu : treesUsable s.trees = true) : acceptStart s = startCall s := by
  simp [acceptStart, hu, Nat.pos_iff_ne_zero.1 h]

/-- A duplication whose distance passes the check is its copy (R106, R107). -/
theorem duplicate_copies (y : Sym) (c : Count) (msb : Sym) (lsb : Byte) (u : State) (h : distance msb lsb ≤ u.OPOS) :
    duplicate y c msb lsb u =
      settle (copyLoop c.toNat { latchDup y c msb lsb u with SRC := u.OPOS - distance msb lsb, REM := c.toNat }) := by
  have hd := assembleOffset_toNat msb lsb
  have hne : ¬ offsetTooFar (latchDup y c msb lsb u).OFF (latchDup y c msb lsb u) = true := by
    simp [offsetTooFar, hd, h]
  unfold duplicate checkAndCopy copy
  rw [if_neg hne, latchDup_OFF, latchDup_CC, latchDup_OPOS, hd]
  rfl

/-- Everything a duplication can do after its reads (R105 to R108), for a count of at least 1: CORRUPT when the distance exceeds
OPOS, else the copy, else OVF. -/
theorem duplicate_spec (y : Sym) (c : Count) (msb : Sym) (lsb : Byte) (u : State) (hc : 0 < c.toNat) :
    (u.OPOS < distance msb lsb → duplicate y c msb lsb u = .next (abort .corrupt (latchDup y c msb lsb u))) ∧
    (distance msb lsb ≤ u.OPOS → u.OPOS + c.toNat ≤ u.OUTCAP →
      ∃ t, duplicate y c msb lsb u = .next t ∧ t.OPOS = u.OPOS + c.toNat ∧
        copyLoop c.toNat { latchDup y c msb lsb u with SRC := u.OPOS - distance msb lsb, REM := c.toNat } = .ok t ∧
        CopyFrame { latchDup y c msb lsb u with SRC := u.OPOS - distance msb lsb, REM := c.toNat } t) ∧
    (distance msb lsb ≤ u.OPOS → u.OUTCAP < u.OPOS + c.toNat →
      ∃ t, duplicate y c msb lsb u = .next (abort .ovf t) ∧
        t = { latchDup y c msb lsb u with OUT := t.OUT, OPOS := t.OPOS, SRC := t.SRC, REM := t.REM, draws := t.draws } ∧
        (Memory.wf u.OUT = true → Memory.wf t.OUT = true)) := by
  refine ⟨fun h => ?_, fun h hr => ?_, fun h hr => ?_⟩
  · simp [duplicate, checkAndCopy, offsetTooFar, assembleOffset_toNat msb lsb, h]
  · obtain ⟨t, h1, h2, h3⟩ := (copyLoop_spec c.toNat
      { latchDup y c msb lsb u with SRC := u.OPOS - distance msb lsb, REM := c.toNat }).1 hr
    exact ⟨t, by rw [duplicate_copies _ _ _ _ _ h, h1, settle_ok], h2, h1, h3⟩
  · obtain ⟨t, h1, h2, h3⟩ := (copyLoop_spec c.toNat
      { latchDup y c msb lsb u with SRC := u.OPOS - distance msb lsb, REM := c.toNat }).2 hr hc
    exact ⟨t, by rw [duplicate_copies _ _ _ _ _ h, h1, settle_raise], h2, h3⟩

end Sys2Proof.Machine
end

