-- ==== Sys2Proof/Laws/PerInstr.lean ====
section
/-! SUPPORT. The per-instruction statement family Shape: the number of bit-channel bits and byte-channel bytes of every row's
encoding, against the counts of R51, R58 and the code lengths printed in R55 and R56 (the codes: log 1). -/

namespace Sys2Proof.Laws.Shape

/-- The length of the offset code of a value, as R56 prints the codes. -/
def offLength (v : Sym) : Nat :=
  if v.toNat = 0 then 1 else if v.toNat ≤ 2 then 4 else if v.toNat ≤ 6 then 5 else if v.toNat ≤ 13 then 6 else 7

/-- Bits and bytes of an instruction (R51). -/
def counts : Instr → Nat × Nat
  | .lit _ => (1, 1)
  | .litx _ => (1, 1)
  | .dup2 _ => (3, 1)
  | .dup3 msb _ => (1 + 2 + offLength msb, 1)
  | .dup4 msb _ => (1 + 3 + offLength msb, 1)
  | .dup5 msb _ => (1 + 4 + offLength msb, 1)
  | .dup6 msb _ => (1 + 4 + offLength msb, 1)
  | .dup7 msb _ => (1 + 4 + offLength msb, 1)
  | .dup8 msb _ => (1 + 5 + offLength msb, 1)
  | .dup9 msb _ => (1 + 5 + offLength msb, 1)
  | .dup10 msb _ => (1 + 5 + offLength msb, 1)
  | .dup11 msb _ => (1 + 6 + offLength msb, 1)
  | .dup12 msb _ => (1 + 6 + offLength msb, 1)
  | .dup13 msb _ => (1 + 7 + offLength msb, 1)
  | .dup14 msb _ => (1 + 7 + offLength msb, 1)
  | .dup15 msb _ => (1 + 7 + offLength msb, 1)
  | .dup16 msb _ => (1 + 8 + offLength msb, 1)
  | .dup17 msb _ => (1 + 8 + offLength msb, 1)
  | .dup18 msb _ => (1 + 8 + offLength msb, 1)
  | .dup19 msb _ => (1 + 9 + offLength msb, 1)
  | .dup20 msb _ => (1 + 9 + offLength msb, 1)
  | .dup21 msb _ => (1 + 9 + offLength msb, 1)
  | .dup22 msb _ => (1 + 9 + offLength msb, 1)
  | .dup23 msb _ => (1 + 9 + offLength msb, 1)
  | .dup24 msb _ => (1 + 9 + offLength msb, 1)
  | .dupx _ msb _ => (7 + offLength msb, 2)
  | .skip => (7, 1)
  | .endMark => (7, 1)
  | .offhi0 => (offLength 0#5, 0)
  | .offhi1 => (offLength 1#5, 0)
  | .offhi2 => (offLength 2#5, 0)
  | .offhi3 => (offLength 3#5, 0)
  | .offhi4 => (offLength 4#5, 0)
  | .offhi5 => (offLength 5#5, 0)
  | .offhi6 => (offLength 6#5, 0)
  | .offhi7 => (offLength 7#5, 0)
  | .offhi8 => (offLength 8#5, 0)
  | .offhi9 => (offLength 9#5, 0)
  | .offhi10 => (offLength 10#5, 0)
  | .offhi11 => (offLength 11#5, 0)
  | .offhi12 => (offLength 12#5, 0)
  | .offhi13 => (offLength 13#5, 0)
  | .offhi14 => (offLength 14#5, 0)
  | .offhi15 => (offLength 15#5, 0)
  | .offhi16 => (offLength 16#5, 0)
  | .offhi17 => (offLength 17#5, 0)
  | .offhi18 => (offLength 18#5, 0)
  | .offhi19 => (offLength 19#5, 0)
  | .offhi20 => (offLength 20#5, 0)
  | .offhi21 => (offLength 21#5, 0)
  | .offhi22 => (offLength 22#5, 0)
  | .offhi23 => (offLength 23#5, 0)
  | .offhi24 => (offLength 24#5, 0)
  | .offhi25 => (offLength 25#5, 0)
  | .offhi26 => (offLength 26#5, 0)
  | .offhi27 => (offLength 27#5, 0)
  | .offhi28 => (offLength 28#5, 0)
  | .offhi29 => (offLength 29#5, 0)
  | .offhi30 => (offLength 30#5, 0)
  | .offhi31 => (offLength 31#5, 0)

/-- The encoding of the row has the number of bits and bytes R51 gives its format. -/
def Statement (i : Instr) : Prop := countItems (encode i) = counts i

theorem countItems_append (xs ys : List Item) :
    countItems (xs ++ ys) = ((countItems xs).1 + (countItems ys).1, (countItems xs).2 + (countItems ys).2) := by
  induction xs with
  | nil => simp [countItems]
  | cons x xs ih => cases x <;> simp [countItems, ih, Nat.add_right_comm]

theorem countItems_offCode (v : Sym) :
    countItems (bitItems (Machine.codeOf Machine.offsetCodes v.toNat)) = (offLength v, 0) := by
  revert v
  decide

/-- Format D: control bit, length code, offset code, one byte (R51). -/
theorem countItems_itemsD {n k : Nat} (h : countItems (bitItems (Machine.codeOf Machine.lengthCodes n)) = (k, 0)) (msb : Sym)
    (lsb : Byte) : countItems (itemsD n msb lsb) = (1 + k + offLength msb, 1) := by
  simp only [itemsD, List.cons_append, countItems, countItems_append, countItems_offCode, h]
  ext
  · simp
    omega
  · simp

theorem lit (e : Byte) : Statement (.lit e) := rfl
theorem litx (e : Byte) : Statement (.litx e) := rfl
theorem dup2 (lsb : Byte) : Statement (.dup2 lsb) := rfl
theorem dup3 (msb : Sym) (lsb : Byte) : Statement (.dup3 msb lsb) := countItems_itemsD rfl msb lsb
theorem dup4 (msb : Sym) (lsb : Byte) : Statement (.dup4 msb lsb) := countItems_itemsD rfl msb lsb
theorem dup5 (msb : Sym) (lsb : Byte) : Statement (.dup5 msb lsb) := countItems_itemsD rfl msb lsb
theorem dup6 (msb : Sym) (lsb : Byte) : Statement (.dup6 msb lsb) := countItems_itemsD rfl msb lsb
theorem dup7 (msb : Sym) (lsb : Byte) : Statement (.dup7 msb lsb) := countItems_itemsD rfl msb lsb
theorem dup8 (msb : Sym) (lsb : Byte) : Statement (.dup8 msb lsb) := countItems_itemsD rfl msb lsb
theorem dup9 (msb : Sym) (lsb : Byte) : Statement (.dup9 msb lsb) := countItems_itemsD rfl msb lsb
theorem dup10 (msb : Sym) (lsb : Byte) : Statement (.dup10 msb lsb) := countItems_itemsD rfl msb lsb
theorem dup11 (msb : Sym) (lsb : Byte) : Statement (.dup11 msb lsb) := countItems_itemsD rfl msb lsb
theorem dup12 (msb : Sym) (lsb : Byte) : Statement (.dup12 msb lsb) := countItems_itemsD rfl msb lsb
theorem dup13 (msb : Sym) (lsb : Byte) : Statement (.dup13 msb lsb) := countItems_itemsD rfl msb lsb
theorem dup14 (msb : Sym) (lsb : Byte) : Statement (.dup14 msb lsb) := countItems_itemsD rfl msb lsb
theorem dup15 (msb : Sym) (lsb : Byte) : Statement (.dup15 msb lsb) := countItems_itemsD rfl msb lsb
theorem dup16 (msb : Sym) (lsb : Byte) : Statement (.dup16 msb lsb) := countItems_itemsD rfl msb lsb
theorem dup17 (msb : Sym) (lsb : Byte) : Statement (.dup17 msb lsb) := countItems_itemsD rfl msb lsb
theorem dup18 (msb : Sym) (lsb : Byte) : Statement (.dup18 msb lsb) := countItems_itemsD rfl msb lsb
theorem dup19 (msb : Sym) (lsb : Byte) : Statement (.dup19 msb lsb) := countItems_itemsD rfl msb lsb
theorem dup20 (msb : Sym) (lsb : Byte) : Statement (.dup20 msb lsb) := countItems_itemsD rfl msb lsb
theorem dup21 (msb : Sym) (lsb : Byte) : Statement (.dup21 msb lsb) := countItems_itemsD rfl msb lsb
theorem dup22 (msb : Sym) (lsb : Byte) : Statement (.dup22 msb lsb) := countItems_itemsD rfl msb lsb
theorem dup23 (msb : Sym) (lsb : Byte) : Statement (.dup23 msb lsb) := countItems_itemsD rfl msb lsb
theorem dup24 (msb : Sym) (lsb : Byte) : Statement (.dup24 msb lsb) := countItems_itemsD rfl msb lsb
theorem dupx (b : Byte) (msb : Sym) (lsb : Byte) : Statement (.dupx b msb lsb) := by
  simp only [Statement, encode, counts, countItems_append, countItems_offCode, countItems]
  ext <;> simp [itemsSentinel, countItems, bitItems, Machine.codeOf, Machine.lengthCodes, Machine.rowBits, Machine.codeBits]
theorem skip : Statement .skip := rfl
theorem endMark : Statement .endMark := rfl
theorem offhi0 : Statement .offhi0 := rfl
theorem offhi1 : Statement .offhi1 := rfl
theorem offhi2 : Statement .offhi2 := rfl
theorem offhi3 : Statement .offhi3 := rfl
theorem offhi4 : Statement .offhi4 := rfl
theorem offhi5 : Statement .offhi5 := rfl
theorem offhi6 : Statement .offhi6 := rfl
theorem offhi7 : Statement .offhi7 := rfl
theorem offhi8 : Statement .offhi8 := rfl
theorem offhi9 : Statement .offhi9 := rfl
theorem offhi10 : Statement .offhi10 := rfl
theorem offhi11 : Statement .offhi11 := rfl
theorem offhi12 : Statement .offhi12 := rfl
theorem offhi13 : Statement .offhi13 := rfl
theorem offhi14 : Statement .offhi14 := rfl
theorem offhi15 : Statement .offhi15 := rfl
theorem offhi16 : Statement .offhi16 := rfl
theorem offhi17 : Statement .offhi17 := rfl
theorem offhi18 : Statement .offhi18 := rfl
theorem offhi19 : Statement .offhi19 := rfl
theorem offhi20 : Statement .offhi20 := rfl
theorem offhi21 : Statement .offhi21 := rfl
theorem offhi22 : Statement .offhi22 := rfl
theorem offhi23 : Statement .offhi23 := rfl
theorem offhi24 : Statement .offhi24 := rfl
theorem offhi25 : Statement .offhi25 := rfl
theorem offhi26 : Statement .offhi26 := rfl
theorem offhi27 : Statement .offhi27 := rfl
theorem offhi28 : Statement .offhi28 := rfl
theorem offhi29 : Statement .offhi29 := rfl
theorem offhi30 : Statement .offhi30 := rfl
theorem offhi31 : Statement .offhi31 := rfl

end Sys2Proof.Laws.Shape
end

