-- ==== Sys2Proof/Laws/Step.lean ====
section
/-! SUPPORT. What a step and the literal meanings can do, once: the branch a step takes (R90, R128, R140), what fetching answers,
and LIT and LITX with and without a cell left (R92, R93, R108). -/

namespace Sys2Proof.Machine

/-- A block that is not running takes the idle branch. -/
theorem step_of_not_run {s : State} (h : s.ST ≠ .run) : step s = stepIdle s := by
  unfold step
  cases hs : s.ST <;> simp_all

/-- A running call without a START fetches and executes one stream instruction. -/
theorem step_of_run {s : State} (h : s.ST = .run) (h2 : s.START = false) : step s = execFetched (fetch s) := by
  simp [step, h, stepRun, h2, runInstr]

/-- Everything a step can do when it answers a next state. -/
theorem step_cases {s t : State} (h : step s = .next t) :
    (s.ST = .run ∧ s.START = false ∧ execFetched (fetch s) = .next t) ∨
    (s.ST ≠ .run ∧ s.START = false ∧ t = s) ∨
    (s.ST ≠ .run ∧ s.START = true ∧ 1 ≤ s.OUTCAP ∧ treesUsable s.trees = true ∧ startCall s = .next t) := by
  by_cases hr : s.ST = .run
  · by_cases hs : s.START = true
    · simp [step, hr, stepRun, hs] at h
    · have hs' : s.START = false := by simpa using hs
      exact .inl ⟨hr, hs', by rw [← step_of_run hr hs']; exact h⟩
  · rw [step_of_not_run hr] at h
    unfold stepIdle at h
    split at h
    · obtain ⟨h1, h2, h3⟩ := acceptStart_next h
      exact .inr (.inr ⟨hr, ‹_›, h1, h2, h3⟩)
    · cases h
      exact .inr (.inl ⟨hr, by simpa using ‹¬ s.START = true›, rfl⟩)

theorem fetch_of_decode {s : State} {i : Instr} {r : Reader} (h : decodeWith s.trees s.DECRYPT (inputOf s) s.toReader = .got i r) :
    fetch s = .got i { s with toReader := r } := by
  simp [fetch, h, putReader]

theorem fetch_of_stop {s : State} {e : Reject} {r : Reader} (h : decodeWith s.trees s.DECRYPT (inputOf s) s.toReader = .stop e r) :
    fetch s = .raised (rejectKind e) { s with toReader := r } := by
  simp [fetch, h, putReader]

/-- Everything fetching can answer: what the decoder answers, with the reader put into the state. -/
theorem fetch_cases (s : State) :
    (∃ i r, decodeWith s.trees s.DECRYPT (inputOf s) s.toReader = .got i r ∧ fetch s = .got i { s with toReader := r }) ∨
    (∃ e r, decodeWith s.trees s.DECRYPT (inputOf s) s.toReader = .stop e r ∧
      fetch s = .raised (rejectKind e) { s with toReader := r }) := by
  cases h : decodeWith s.trees s.DECRYPT (inputOf s) s.toReader with
  | got i r => exact .inl ⟨i, r, rfl, fetch_of_decode h⟩
  | stop e r => exact .inr ⟨e, r, rfl, fetch_of_stop h⟩

theorem fetch_got {s q : State} {i : Instr} (h : fetch s = .got i q) :
    ∃ r, decodeWith s.trees s.DECRYPT (inputOf s) s.toReader = .got i r ∧ q = { s with toReader := r } := by
  obtain ⟨j, r, h1, h2⟩ | ⟨e, r, h1, h2⟩ := fetch_cases s
  · rw [h2] at h
    cases h
    exact ⟨r, h1, rfl⟩
  · rw [h2] at h
    cases h

/-- LIT with a cell left (R92). -/
theorem exec_lit_ok (e : Byte) {s : State} (h : s.OPOS < s.OUTCAP) :
    exec (.lit e) s = .next { s with EB := e, OUT := Memory.write s.OUT s.OPOS e, OPOS := s.OPOS + 1 } := by
  simp [exec, execLit, emit, outFull, Nat.not_le.2 h, settle]

/-- LIT with no cell left (R92, R108). -/
theorem exec_lit_full (e : Byte) {s : State} (h : s.OUTCAP ≤ s.OPOS) :
    exec (.lit e) s = .next (abort .ovf { s with EB := e }) := by
  simp [exec, execLit, emit, outFull, h]

/-- LITX with a cell left (R93). -/
theorem exec_litx_ok (e : Byte) {s : State} (h : s.OPOS < s.OUTCAP) :
    exec (.litx e) s = .next { s with
      KEY := literalKey s.CNT, EB := e, OUT := Memory.write s.OUT s.OPOS (e ^^^ literalKey s.CNT), OPOS := s.OPOS + 1 } := by
  simp [exec, execLitx, emit, outFull, Nat.not_le.2 h, settle]

/-- LITX with no cell left (R93, R108). -/
theorem exec_litx_full (e : Byte) {s : State} (h : s.OUTCAP ≤ s.OPOS) :
    exec (.litx e) s = .next (abort .ovf { s with KEY := literalKey s.CNT, EB := e }) := by
  simp [exec, execLitx, emit, outFull, h]

/-- A run of any machine that starts with a step that answers a next state. -/
theorem hostRun_succ (M : Host.Core) (k : Nat) {s t : M.State} (h : M.step s = .next t) : M.run (k + 1) s = M.run k t := by
  simp [Host.Core.run, h]

/-- A run that starts with a step that answers a next state. -/
theorem runSteps_succ {s t : State} (k : Nat) (h : step s = .next t) : runSteps (k + 1) s = runSteps k t :=
  hostRun_succ Sys2Proof.core k h

/-- An ended call, and a block before START, stays as it is for any number of steps (log 4). -/
theorem runSteps_quiescent (k : Nat) {s : State} (h : s.ST ≠ .run) (h2 : s.START = false) : runSteps k s = .next s := by
  induction k with
  | zero => rfl
  | succ k ih => rw [runSteps_succ k (t := s) (by simp [step_of_not_run h, stepIdle, h2]), ih]

/-- A stream instruction is a literal, a duplication, or an escape, when it is well formed. -/
theorem stream_cases {i : Instr} (h : i.isStream = true) (hw : i.wf = true) :
    (∃ e, i = .lit e) ∨ (∃ e, i = .litx e) ∨ i = .skip ∨ i = .endMark ∨ ∃ n msb lsb, dupForm i = some (n, msb, lsb) := by
  cases i <;> simp [Instr.isStream, Instr.offHigh] at h <;> simp_all [dupForm, Instr.wf]

end Sys2Proof.Machine
end

