-- ==== Sys2Proof/Laws/Tree.lean ====
section
/-! SUPPORT. The prefix trees: a tree's paths, the walk as "one path is delivered" (R82), and the fields of a ROM word (R84). -/

namespace Sys2Proof.Machine

theorem treeRom_length (t : PrefixTree) : (treeRom t).length = treeSize t := by
  induction t with
  | absent => rfl
  | leaf v => rfl
  | internal z o ihz iho => simp [treeRom, treeSize, ihz, iho]; omega

theorem romIsLeaf_leafWord (v : Sym) : romIsLeaf (leafWord v) = true := by
  simp [romIsLeaf, leafWord]

theorem romValue_leafWord (v : Sym) : romValue (leafWord v) = v := by
  revert v
  decide

theorem internalWord_toNat {d0 d1 : Nat} (h0 : d0 < 64) (h1 : d1 < 64) : (internalWord d0 d1).toNat = d0 + 64 * d1 := by
  simp only [internalWord, BitVec.toNat_ofNat]
  omega

theorem romIsLeaf_internalWord {d0 d1 : Nat} (h0 : d0 < 64) (h1 : d1 < 64) : romIsLeaf (internalWord d0 d1) = false := by
  rw [romIsLeaf, BitVec.getLsbD, internalWord_toNat h0 h1, Nat.testBit_eq_decide_div_mod_eq]
  rw [show (d0 + 64 * d1) / 2 ^ 12 = 0 by omega]
  rfl

theorem romDisplacement_internalWord {d0 d1 : Nat} (h0 : d0 < 64) (h1 : d1 < 64) (b : Bool) :
    romDisplacement (internalWord d0 d1) b = if b then d1 else d0 := by
  cases b
  · simp only [romDisplacement, BitVec.extractLsb'_toNat, internalWord_toNat h0 h1, Nat.shiftRight_eq_div_pow]
    simp only [Bool.false_eq_true, if_false]
    omega
  · simp only [romDisplacement, BitVec.extractLsb'_toNat, internalWord_toNat h0 h1, Nat.shiftRight_eq_div_pow]
    simp only [if_true]
    omega

/-- A walk that answers a value was delivered a path to a leaf with that value. -/
theorem walkTree_got {m : Input} {t : PrefixTree} {n : Nat} {r p : Reader} {v : Sym} (h : walkTree m t n r = .got v p) :
    ∃ bs q, (bs, v) ∈ treePaths t ∧ feed m (bitItems bs) r = some q ∧ p.samePosition q := by
  induction t generalizing n r with
  | absent => cases h
  | leaf w =>
    cases h
    exact ⟨[], r, List.mem_singleton.2 rfl, rfl, rfl, rfl, rfl⟩
  | internal z o ihz iho =>
    obtain ⟨b, r1, h1, h2⟩ := ReadResult.andThen_eq_got h
    obtain ⟨r2, h3, h4⟩ := (h1 ▸ nextBit_congr m (r := { r with NODE := n }) (q := r) ⟨rfl, rfl, rfl⟩).got_left
    cases b
    · obtain ⟨bs, q, hm, hf, hp⟩ := ihz h2
      obtain ⟨q', hf', hq⟩ := feed_congr m _ h4 hf
      exact ⟨false :: bs, q', List.mem_append_left _ (List.mem_map.2 ⟨_, hm, rfl⟩), (feed_bit_of h3 _).trans hf', hp.trans hq⟩
    · obtain ⟨bs, q, hm, hf, hp⟩ := iho h2
      obtain ⟨q', hf', hq⟩ := feed_congr m _ h4 hf
      exact ⟨true :: bs, q', List.mem_append_right _ (List.mem_map.2 ⟨_, hm, rfl⟩), (feed_bit_of h3 _).trans hf', hp.trans hq⟩

/-- A walk that is delivered a path answers the value at its end. -/
theorem walkTree_of_path {m : Input} {t : PrefixTree} {r q : Reader} {v : Sym} {bs : List Bool} (n : Nat)
    (hm : (bs, v) ∈ treePaths t) (hf : feed m (bitItems bs) r = some q) :
    ∃ p, walkTree m t n r = .got v p ∧ p.samePosition q := by
  induction t generalizing n r bs q with
  | absent => cases hm
  | leaf w =>
    cases List.mem_singleton.1 hm
    cases hf
    exact ⟨_, rfl, rfl, rfl, rfl⟩
  | internal z o ihz iho =>
    simp only [treePaths, List.mem_append, List.mem_map, Prod.mk.injEq] at hm
    obtain ⟨x, hx, rfl, rfl⟩ | ⟨x, hx, rfl, rfl⟩ := hm
    all_goals
      obtain ⟨r1, h1, h2⟩ := feed_bit hf
      obtain ⟨r2, h3, h4⟩ := (h1 ▸ nextBit_congr m (q := { r with NODE := n }) (r := r) ⟨rfl, rfl, rfl⟩).got_left
      obtain ⟨q', hf', hq⟩ := feed_congr m _ h4 h2
      simp only [walkTree, h3, ReadResult.andThen_got, Bool.false_eq_true, if_false, if_true]
    · obtain ⟨p, hp, hs⟩ := ihz (bs := x.1) (n + 1) hx hf'
      exact ⟨p, hp, hs.trans hq.symm⟩
    · obtain ⟨p, hp, hs⟩ := iho (bs := x.1) (n + 1 + treeSize z) hx hf'
      exact ⟨p, hp, hs.trans hq.symm⟩

/-- A walk of a complete tree is rejected only at the end of the input (R88). -/
theorem walkTree_stop_of_complete {m : Input} {t : PrefixTree} {n : Nat} {r p : Reader} {e : Reject}
    (hc : treeComplete t = true) (h : walkTree m t n r = .stop e p) : e = .endOfInput := by
  induction t generalizing n r with
  | absent => cases hc
  | leaf v => cases h
  | internal z o ihz iho =>
    simp only [treeComplete, Bool.and_eq_true] at hc
    rcases ReadResult.andThen_eq_stop h with h | ⟨b, r1, -, h2⟩
    · exact (nextBit_stop h).1
    · cases b
      · exact ihz hc.1 h2
      · exact iho hc.2 h2

end Sys2Proof.Machine
end

