-- ==== Sys2Proof/Tests/Slice0.lean ====
section
/-! SUPPORT. The model's own tests. Every expected value is the spec's (its vectors T and V, 95_test_vectors.md) or a hand
calculation from the tables it prints (R51, R55, R56, R66, R112). -/

namespace Sys2Proof.Tests

open Sys2Proof Sys2Proof.Machine

/-! ## Ill-formed terms -/

/-- DUPX's escape byte 0xFD is a count (R60); 0xFE and 0xFF are not (R103). -/
theorem test_wf_dupx_largest : (Instr.dupx 0xFD 0 1).wf = true := by decide
theorem test_wf_refuses_dupx_skip_byte : (Instr.dupx 0xFE 0 1).wf = false := by decide
theorem test_wf_refuses_dupx_end_byte : (Instr.dupx 0xFF 0 1).wf = false := by decide
theorem test_wf_refuses_nothing_else : (Instr.dup24 31 0xFF).wf = true ∧ Instr.skip.wf = true ∧ Instr.offhi31.wf = true := by decide
theorem test_offset_row_is_no_stream_instruction : Instr.offhi0.isStream = false ∧ Instr.skip.isStream = true := by decide
theorem test_mode : (Instr.lit 0).modeOk true = false ∧ (Instr.litx 0).modeOk false = false ∧ Instr.skip.modeOk true = true := by decide

/-! ## Decoding: the bits of R51, R55 and R56, bit 0 of each window first, laid out by hand as R66 says -/

/-- The first stream instruction of a stream. -/
def decoded (d : Bool) (bs : List Byte) : Option Instr :=
  match decode d (Input.ofBytes bs) (Reader.start (Input.ofBytes bs)) with
  | .got i _ => some i
  | .stop _ _ => none

/-- The `off` item at the start of a stream. -/
def decodedOff (bs : List Byte) : Option Instr :=
  match decodeOffset defaultTrees (Input.ofBytes bs) (Reader.start (Input.ofBytes bs)) with
  | .got i _ => some i
  | .stop _ _ => none

/-- `0` [41] (V15). -/
theorem test_decode_lit :
    decoded false [0x00, 0x00, 0x41] = some (.lit 0x41) := by decide
/-- `0` [41] with DECRYPT = 1. -/
theorem test_decode_litx :
    decoded true [0x00, 0x00, 0x41] = some (.litx 0x41) := by decide
/-- `1 10` [01] (V28). -/
theorem test_decode_dup2 :
    decoded false [0xEB, 0x00, 0x01, 0xFF] = some (.dup2 0x01) := by decide
/-- `1 11 0110001` [7A]. -/
theorem test_decode_dup3 :
    decoded false [0x37, 0x02, 0x7A] = some (.dup3 17 0x7A) := by decide
/-- `1 000 0110110` [9F]. -/
theorem test_decode_dup4 :
    decoded false [0x61, 0x03, 0x9F] = some (.dup4 22 0x9F) := by decide
/-- `1 0010 0111011` [C4]. -/
theorem test_decode_dup5 :
    decoded false [0xC9, 0x0D, 0xC4] = some (.dup5 27 0xC4) := by decide
/-- `1 0011 1` [E9]. -/
theorem test_decode_dup6 :
    decoded false [0x39, 0x00, 0xE9] = some (.dup6 0 0xE9) := by decide
/-- `1 0100 00110` [0E]. -/
theorem test_decode_dup7 :
    decoded false [0x85, 0x01, 0x0E] = some (.dup7 5 0x0E) := by decide
/-- `1 01010 010011` [33]. -/
theorem test_decode_dup8 :
    decoded false [0x95, 0x0C, 0x33] = some (.dup8 10 0x33) := by decide
/-- `1 01011 0101111` [58]. -/
theorem test_decode_dup9 :
    decoded false [0xB5, 0x1E, 0x58] = some (.dup9 15 0x58) := by decide
/-- `1 01100 0110100` [7D]. -/
theorem test_decode_dup10 :
    decoded false [0x8D, 0x05, 0x7D] = some (.dup10 20 0x7D) := by decide
/-- `1 011010 0111001` [A2]. -/
theorem test_decode_dup11 :
    decoded false [0x2D, 0x27, 0xA2] = some (.dup11 25 0xA2) := by decide
/-- `1 011011 0111110` [C7]. -/
theorem test_decode_dup12 :
    decoded false [0x6D, 0x1F, 0xC7] = some (.dup12 30 0xC7) := by decide
/-- `1 0111010 00100` [EC]. -/
theorem test_decode_dup13 :
    decoded false [0x5D, 0x04, 0xEC] = some (.dup13 3 0xEC) := by decide
/-- `1 0111011 010001` [11]. -/
theorem test_decode_dup14 :
    decoded false [0xDD, 0x22, 0x11] = some (.dup14 8 0x11) := by decide
/-- `1 0111100 010110` [36]. -/
theorem test_decode_dup15 :
    decoded false [0x3D, 0x1A, 0x36] = some (.dup15 13 0x36) := by decide
/-- `1 01111010 0110010` [5B]. -/
theorem test_decode_dup16 :
    decoded false [0xBD, 0x4C, 0x00, 0x00, 0x5B] = some (.dup16 18 0x5B) := by decide
/-- `1 01111011 0110111` [80]. -/
theorem test_decode_dup17 :
    decoded false [0xBD, 0xED, 0x00, 0x00, 0x80] = some (.dup17 23 0x80) := by decide
/-- `1 01111100 0111100` [A5]. -/
theorem test_decode_dup18 :
    decoded false [0x7D, 0x3C, 0x00, 0x00, 0xA5] = some (.dup18 28 0xA5) := by decide
/-- `1 011111010 0000` [CA]. -/
theorem test_decode_dup19 :
    decoded false [0x7D, 0x01, 0xCA] = some (.dup19 1 0xCA) := by decide
/-- `1 011111011 00111` [EF]. -/
theorem test_decode_dup20 :
    decoded false [0x7D, 0x73, 0xEF] = some (.dup20 6 0xEF) := by decide
/-- `1 011111100 010100` [14]. -/
theorem test_decode_dup21 :
    decoded false [0xFD, 0x28, 0x00, 0x00, 0x14] = some (.dup21 11 0x14) := by decide
/-- `1 011111101 0110000` [39]. -/
theorem test_decode_dup22 :
    decoded false [0xFD, 0x1A, 0x00, 0x00, 0x39] = some (.dup22 16 0x39) := by decide
/-- `1 011111110 0110101` [5E]. -/
theorem test_decode_dup23 :
    decoded false [0xFD, 0x59, 0x01, 0x00, 0x5E] = some (.dup23 21 0x5E) := by decide
/-- `1 011111111 0111010` [83]. -/
theorem test_decode_dup24 :
    decoded false [0xFD, 0xBB, 0x00, 0x00, 0x83] = some (.dup24 26 0x83) := by decide
/-- `1 011100` [FD] `0110010` [9C]. -/
theorem test_decode_dupx :
    decoded false [0x1D, 0x13, 0xFD, 0x9C] = some (.dupx 0xFD 18 0x9C) := by decide
/-- `1 011100` [FE] (T7). -/
theorem test_decode_skip :
    decoded false [0x1D, 0x1D, 0xFE, 0x5A, 0xFF] = some .skip := by decide
/-- `1 011100` [FF] (T6). -/
theorem test_decode_end :
    decoded true [0x1D, 0x00, 0xFF] = some .endMark := by decide
/-- `1`. -/
theorem test_decode_offhi0 :
    decodedOff [0x01, 0x00] = some .offhi0 := by decide
/-- `0000`. -/
theorem test_decode_offhi1 :
    decodedOff [0x00, 0x00] = some .offhi1 := by decide
/-- `0001`. -/
theorem test_decode_offhi2 :
    decodedOff [0x08, 0x00] = some .offhi2 := by decide
/-- `00100`. -/
theorem test_decode_offhi3 :
    decodedOff [0x04, 0x00] = some .offhi3 := by decide
/-- `00101`. -/
theorem test_decode_offhi4 :
    decodedOff [0x14, 0x00] = some .offhi4 := by decide
/-- `00110`. -/
theorem test_decode_offhi5 :
    decodedOff [0x0C, 0x00] = some .offhi5 := by decide
/-- `00111`. -/
theorem test_decode_offhi6 :
    decodedOff [0x1C, 0x00] = some .offhi6 := by decide
/-- `010000`. -/
theorem test_decode_offhi7 :
    decodedOff [0x02, 0x00] = some .offhi7 := by decide
/-- `010001`. -/
theorem test_decode_offhi8 :
    decodedOff [0x22, 0x00] = some .offhi8 := by decide
/-- `010010`. -/
theorem test_decode_offhi9 :
    decodedOff [0x12, 0x00] = some .offhi9 := by decide
/-- `010011`. -/
theorem test_decode_offhi10 :
    decodedOff [0x32, 0x00] = some .offhi10 := by decide
/-- `010100`. -/
theorem test_decode_offhi11 :
    decodedOff [0x0A, 0x00] = some .offhi11 := by decide
/-- `010101`. -/
theorem test_decode_offhi12 :
    decodedOff [0x2A, 0x00] = some .offhi12 := by decide
/-- `010110`. -/
theorem test_decode_offhi13 :
    decodedOff [0x1A, 0x00] = some .offhi13 := by decide
/-- `0101110`. -/
theorem test_decode_offhi14 :
    decodedOff [0x3A, 0x00] = some .offhi14 := by decide
/-- `0101111`. -/
theorem test_decode_offhi15 :
    decodedOff [0x7A, 0x00] = some .offhi15 := by decide
/-- `0110000`. -/
theorem test_decode_offhi16 :
    decodedOff [0x06, 0x00] = some .offhi16 := by decide
/-- `0110001`. -/
theorem test_decode_offhi17 :
    decodedOff [0x46, 0x00] = some .offhi17 := by decide
/-- `0110010`. -/
theorem test_decode_offhi18 :
    decodedOff [0x26, 0x00] = some .offhi18 := by decide
/-- `0110011`. -/
theorem test_decode_offhi19 :
    decodedOff [0x66, 0x00] = some .offhi19 := by decide
/-- `0110100`. -/
theorem test_decode_offhi20 :
    decodedOff [0x16, 0x00] = some .offhi20 := by decide
/-- `0110101`. -/
theorem test_decode_offhi21 :
    decodedOff [0x56, 0x00] = some .offhi21 := by decide
/-- `0110110`. -/
theorem test_decode_offhi22 :
    decodedOff [0x36, 0x00] = some .offhi22 := by decide
/-- `0110111`. -/
theorem test_decode_offhi23 :
    decodedOff [0x76, 0x00] = some .offhi23 := by decide
/-- `0111000`. -/
theorem test_decode_offhi24 :
    decodedOff [0x0E, 0x00] = some .offhi24 := by decide
/-- `0111001`. -/
theorem test_decode_offhi25 :
    decodedOff [0x4E, 0x00] = some .offhi25 := by decide
/-- `0111010`. -/
theorem test_decode_offhi26 :
    decodedOff [0x2E, 0x00] = some .offhi26 := by decide
/-- `0111011`. -/
theorem test_decode_offhi27 :
    decodedOff [0x6E, 0x00] = some .offhi27 := by decide
/-- `0111100`. -/
theorem test_decode_offhi28 :
    decodedOff [0x1E, 0x00] = some .offhi28 := by decide
/-- `0111101`. -/
theorem test_decode_offhi29 :
    decodedOff [0x5E, 0x00] = some .offhi29 := by decide
/-- `0111110`. -/
theorem test_decode_offhi30 :
    decodedOff [0x3E, 0x00] = some .offhi30 := by decide
/-- `0111111`. -/
theorem test_decode_offhi31 :
    decodedOff [0x7E, 0x00] = some .offhi31 := by decide

/-- The opcode table's own word of DUP13 is eight bits: `1 0111010` (log 14). -/
theorem test_table_word_dup13 : decodeTableWord 8 0b10111010 = some (.dup13 1 0) := by decide
theorem test_table_word_end : decodeTableWord 7 0b1011100 = some (.dupx 0 1 0) := by decide
theorem test_table_word_lit : decodeTableWord 1 0 = some (.lit 0) := by decide

/-- Table words are laid out from the first bit of the first window; DUP24's ten bits end in the second byte. -/
theorem test_table_stream : (tableStream 10 0b1011111111).take 2 = [0xFD, 0x03] := by decide

/-- The assembler (R66) on the worked layouts (a) and (b) of R67. -/
theorem test_assemble_a :
    assemble ([Instr.lit 0x41, .lit 0x42, .dup2 2, .endMark].flatMap encode) = [0xAC, 0x03, 0x41, 0x42, 0x02, 0xFF] := by decide
theorem test_assemble_b :
    assemble ([Instr.lit 0x61, .dupx 0 0 1, .endMark].flatMap encode) = [0x3A, 0x3B, 0x61, 0x00, 0x01, 0x00, 0x00, 0xFF] := by decide

/-! ## One step -/

/-- A running call: the stream, the stream position (the window's bytes stand just before `icur` or at the start), the bytes
written so far, the capacity, DECRYPT. -/
def running (bs : List Byte) (win : Window) (icur : Nat) (cnt : Fin 16) (out : List Byte) (cap : Nat) (d : Bool) : State :=
  { loadedRun bs State.reset with
    WIN := win, ICUR := icur, CNT := cnt, OUT := Memory.ofBytes 0 out, OPOS := out.length, OUTCAP := cap, DECRYPT := d }

/-- A running call at the start of its stream. -/
def atStart (bs out : List Byte) (cap : Nat) (d : Bool) : State :=
  running bs ((Input.ofBytes bs).window 0) 2 0 out cap d

/-- What a test looks at: ST, ERR, ICUR, CNT, OPOS. -/
def view (s : State) : Option (Status × Option ErrKind × Nat × Fin 16 × Nat) :=
  (nextOf (step s)).map fun t => (t.ST, t.ERR, t.ICUR, t.CNT, t.OPOS)

/-- The bytes from `a` on that OUT holds after the step. -/
def outAfter (s : State) (a n : Nat) : Option (List (Option Byte)) :=
  (nextOf (step s)).map fun t => (List.range n).map fun i => Memory.read t.OUT (a + i)

/-- V15. -/
theorem test_step_lit :
    view (atStart [0x00, 0x00, 0x41] [] 1000 false) = some (.run, none, 3, 1, 1) ∧
    outAfter (atStart [0x00, 0x00, 0x41] [] 1000 false) 0 1 = some [some 0x41] := by decide
/-- V3: the sixteenth literal takes its byte after the window its control bit loads. -/
theorem test_step_lit_reload :
    outAfter (running [0x30, 0x1D, 0x00, 0x3F] 0 1 15 [] 1000 false) 0 1 = some [some 0x3F] := by decide
/-- T8: CNT is 3 after the control bit, so the key is 0x0D. -/
theorem test_step_litx :
    outAfter (running [0xE8, 0x00, 0x0F, 0x0E, 0x55, 0xFF] 0x00E8 4 2 [0, 0] 1000 true) 2 1 = some [some 0x58] := by decide
/-- V17: the sixteenth literal, key 0x10. -/
theorem test_step_litx_key16 :
    outAfter (running [0x3A, 0x00, 0x40, 0x5E, 0xFF] 0 0 15 [] 1000 true) 0 1 = some [some 0x50] := by decide
/-- V20: the third instruction. -/
theorem test_step_dup2 :
    view (running [0xAC, 0x03, 0x41, 0x42, 0x02, 0xFF] 0x03AC 4 2 [0x41, 0x42] 1000 false) = some (.run, none, 5, 5, 4) ∧
    outAfter (running [0xAC, 0x03, 0x41, 0x42, 0x02, 0xFF] 0x03AC 4 2 [0x41, 0x42] 1000 false) 0 4 = some [some 0x41, some 0x42, some 0x41, some 0x42] := by decide
/-- DUP 3, 3: the last three of 3 bytes repeat the last 3 (R112). -/
theorem test_step_dup3 :
    view (atStart [0x0F, 0x00, 0x03] [0xA1, 0xB2, 0xC3, 0xD4] 1000 false) = some (.run, none, 3, 4, 7) ∧
    outAfter (atStart [0x0F, 0x00, 0x03] [0xA1, 0xB2, 0xC3, 0xD4] 1000 false) 4 4 = some [some 0xB2, some 0xC3, some 0xD4, none] := by decide
/-- DUP 4, 4: the last three of 4 bytes repeat the last 4 (R112). -/
theorem test_step_dup4 :
    view (atStart [0x11, 0x00, 0x04] [0xA1, 0xB2, 0xC3, 0xD4] 1000 false) = some (.run, none, 3, 5, 8) ∧
    outAfter (atStart [0x11, 0x00, 0x04] [0xA1, 0xB2, 0xC3, 0xD4] 1000 false) 5 4 = some [some 0xB2, some 0xC3, some 0xD4, none] := by decide
/-- DUP 5, 1: the last three of 5 bytes repeat the last 1 (R112). -/
theorem test_step_dup5 :
    view (atStart [0x29, 0x00, 0x01] [0xA1, 0xB2, 0xC3, 0xD4] 1000 false) = some (.run, none, 3, 6, 9) ∧
    outAfter (atStart [0x29, 0x00, 0x01] [0xA1, 0xB2, 0xC3, 0xD4] 1000 false) 6 4 = some [some 0xD4, some 0xD4, some 0xD4, none] := by decide
/-- DUP 6, 2: the last three of 6 bytes repeat the last 2 (R112). -/
theorem test_step_dup6 :
    view (atStart [0x39, 0x00, 0x02] [0xA1, 0xB2, 0xC3, 0xD4] 1000 false) = some (.run, none, 3, 6, 10) ∧
    outAfter (atStart [0x39, 0x00, 0x02] [0xA1, 0xB2, 0xC3, 0xD4] 1000 false) 7 4 = some [some 0xD4, some 0xC3, some 0xD4, none] := by decide
/-- DUP 7, 3: the last three of 7 bytes repeat the last 3 (R112). -/
theorem test_step_dup7 :
    view (atStart [0x25, 0x00, 0x03] [0xA1, 0xB2, 0xC3, 0xD4] 1000 false) = some (.run, none, 3, 6, 11) ∧
    outAfter (atStart [0x25, 0x00, 0x03] [0xA1, 0xB2, 0xC3, 0xD4] 1000 false) 8 4 = some [some 0xC3, some 0xD4, some 0xB2, none] := by decide
/-- DUP 8, 4: the last three of 8 bytes repeat the last 4 (R112). -/
theorem test_step_dup8 :
    view (atStart [0x55, 0x00, 0x04] [0xA1, 0xB2, 0xC3, 0xD4] 1000 false) = some (.run, none, 3, 7, 12) ∧
    outAfter (atStart [0x55, 0x00, 0x04] [0xA1, 0xB2, 0xC3, 0xD4] 1000 false) 9 4 = some [some 0xB2, some 0xC3, some 0xD4, none] := by decide
/-- DUP 9, 1: the last three of 9 bytes repeat the last 1 (R112). -/
theorem test_step_dup9 :
    view (atStart [0x75, 0x00, 0x01] [0xA1, 0xB2, 0xC3, 0xD4] 1000 false) = some (.run, none, 3, 7, 13) ∧
    outAfter (atStart [0x75, 0x00, 0x01] [0xA1, 0xB2, 0xC3, 0xD4] 1000 false) 10 4 = some [some 0xD4, some 0xD4, some 0xD4, none] := by decide
/-- DUP 10, 2: the last three of 10 bytes repeat the last 2 (R112). -/
theorem test_step_dup10 :
    view (atStart [0x4D, 0x00, 0x02] [0xA1, 0xB2, 0xC3, 0xD4] 1000 false) = some (.run, none, 3, 7, 14) ∧
    outAfter (atStart [0x4D, 0x00, 0x02] [0xA1, 0xB2, 0xC3, 0xD4] 1000 false) 11 4 = some [some 0xD4, some 0xC3, some 0xD4, none] := by decide
/-- DUP 11, 3: the last three of 11 bytes repeat the last 3 (R112). -/
theorem test_step_dup11 :
    view (atStart [0xAD, 0x00, 0x03] [0xA1, 0xB2, 0xC3, 0xD4] 1000 false) = some (.run, none, 3, 8, 15) ∧
    outAfter (atStart [0xAD, 0x00, 0x03] [0xA1, 0xB2, 0xC3, 0xD4] 1000 false) 12 4 = some [some 0xD4, some 0xB2, some 0xC3, none] := by decide
/-- DUP 12, 4: the last three of 12 bytes repeat the last 4 (R112). -/
theorem test_step_dup12 :
    view (atStart [0xED, 0x00, 0x04] [0xA1, 0xB2, 0xC3, 0xD4] 1000 false) = some (.run, none, 3, 8, 16) ∧
    outAfter (atStart [0xED, 0x00, 0x04] [0xA1, 0xB2, 0xC3, 0xD4] 1000 false) 13 4 = some [some 0xB2, some 0xC3, some 0xD4, none] := by decide
/-- DUP 13, 1: the last three of 13 bytes repeat the last 1 (R112). -/
theorem test_step_dup13 :
    view (atStart [0x5D, 0x01, 0x01] [0xA1, 0xB2, 0xC3, 0xD4] 1000 false) = some (.run, none, 3, 9, 17) ∧
    outAfter (atStart [0x5D, 0x01, 0x01] [0xA1, 0xB2, 0xC3, 0xD4] 1000 false) 14 4 = some [some 0xD4, some 0xD4, some 0xD4, none] := by decide
/-- DUP 14, 2: the last three of 14 bytes repeat the last 2 (R112). -/
theorem test_step_dup14 :
    view (atStart [0xDD, 0x01, 0x02] [0xA1, 0xB2, 0xC3, 0xD4] 1000 false) = some (.run, none, 3, 9, 18) ∧
    outAfter (atStart [0xDD, 0x01, 0x02] [0xA1, 0xB2, 0xC3, 0xD4] 1000 false) 15 4 = some [some 0xD4, some 0xC3, some 0xD4, none] := by decide
/-- DUP 15, 3: the last three of 15 bytes repeat the last 3 (R112). -/
theorem test_step_dup15 :
    view (atStart [0x3D, 0x01, 0x03] [0xA1, 0xB2, 0xC3, 0xD4] 1000 false) = some (.run, none, 3, 9, 19) ∧
    outAfter (atStart [0x3D, 0x01, 0x03] [0xA1, 0xB2, 0xC3, 0xD4] 1000 false) 16 4 = some [some 0xB2, some 0xC3, some 0xD4, none] := by decide
/-- DUP 16, 4: the last three of 16 bytes repeat the last 4 (R112). -/
theorem test_step_dup16 :
    view (atStart [0xBD, 0x02, 0x04] [0xA1, 0xB2, 0xC3, 0xD4] 1000 false) = some (.run, none, 3, 10, 20) ∧
    outAfter (atStart [0xBD, 0x02, 0x04] [0xA1, 0xB2, 0xC3, 0xD4] 1000 false) 17 4 = some [some 0xB2, some 0xC3, some 0xD4, none] := by decide
/-- DUP 17, 1: the last three of 17 bytes repeat the last 1 (R112). -/
theorem test_step_dup17 :
    view (atStart [0xBD, 0x03, 0x01] [0xA1, 0xB2, 0xC3, 0xD4] 1000 false) = some (.run, none, 3, 10, 21) ∧
    outAfter (atStart [0xBD, 0x03, 0x01] [0xA1, 0xB2, 0xC3, 0xD4] 1000 false) 18 4 = some [some 0xD4, some 0xD4, some 0xD4, none] := by decide
/-- DUP 18, 2: the last three of 18 bytes repeat the last 2 (R112). -/
theorem test_step_dup18 :
    view (atStart [0x7D, 0x02, 0x02] [0xA1, 0xB2, 0xC3, 0xD4] 1000 false) = some (.run, none, 3, 10, 22) ∧
    outAfter (atStart [0x7D, 0x02, 0x02] [0xA1, 0xB2, 0xC3, 0xD4] 1000 false) 19 4 = some [some 0xD4, some 0xC3, some 0xD4, none] := by decide
/-- DUP 19, 3: the last three of 19 bytes repeat the last 3 (R112). -/
theorem test_step_dup19 :
    view (atStart [0x7D, 0x05, 0x03] [0xA1, 0xB2, 0xC3, 0xD4] 1000 false) = some (.run, none, 3, 11, 23) ∧
    outAfter (atStart [0x7D, 0x05, 0x03] [0xA1, 0xB2, 0xC3, 0xD4] 1000 false) 20 4 = some [some 0xC3, some 0xD4, some 0xB2, none] := by decide
/-- DUP 20, 4: the last three of 20 bytes repeat the last 4 (R112). -/
theorem test_step_dup20 :
    view (atStart [0x7D, 0x07, 0x04] [0xA1, 0xB2, 0xC3, 0xD4] 1000 false) = some (.run, none, 3, 11, 24) ∧
    outAfter (atStart [0x7D, 0x07, 0x04] [0xA1, 0xB2, 0xC3, 0xD4] 1000 false) 21 4 = some [some 0xB2, some 0xC3, some 0xD4, none] := by decide
/-- DUP 21, 1: the last three of 21 bytes repeat the last 1 (R112). -/
theorem test_step_dup21 :
    view (atStart [0xFD, 0x04, 0x01] [0xA1, 0xB2, 0xC3, 0xD4] 1000 false) = some (.run, none, 3, 11, 25) ∧
    outAfter (atStart [0xFD, 0x04, 0x01] [0xA1, 0xB2, 0xC3, 0xD4] 1000 false) 22 4 = some [some 0xD4, some 0xD4, some 0xD4, none] := by decide
/-- DUP 22, 2: the last three of 22 bytes repeat the last 2 (R112). -/
theorem test_step_dup22 :
    view (atStart [0xFD, 0x06, 0x02] [0xA1, 0xB2, 0xC3, 0xD4] 1000 false) = some (.run, none, 3, 11, 26) ∧
    outAfter (atStart [0xFD, 0x06, 0x02] [0xA1, 0xB2, 0xC3, 0xD4] 1000 false) 23 4 = some [some 0xD4, some 0xC3, some 0xD4, none] := by decide
/-- DUP 23, 3: the last three of 23 bytes repeat the last 3 (R112). -/
theorem test_step_dup23 :
    view (atStart [0xFD, 0x05, 0x03] [0xA1, 0xB2, 0xC3, 0xD4] 1000 false) = some (.run, none, 3, 11, 27) ∧
    outAfter (atStart [0xFD, 0x05, 0x03] [0xA1, 0xB2, 0xC3, 0xD4] 1000 false) 24 4 = some [some 0xD4, some 0xB2, some 0xC3, none] := by decide
/-- DUP 24, 4: the last three of 24 bytes repeat the last 4 (R112). -/
theorem test_step_dup24 :
    view (atStart [0xFD, 0x07, 0x04] [0xA1, 0xB2, 0xC3, 0xD4] 1000 false) = some (.run, none, 3, 11, 28) ∧
    outAfter (atStart [0xFD, 0x07, 0x04] [0xA1, 0xB2, 0xC3, 0xD4] 1000 false) 25 4 = some [some 0xB2, some 0xC3, some 0xD4, none] := by decide
/-- V5: a reload at the odd index 15, in the middle of the instruction. -/
theorem test_step_dup7_reload :
    view (running [0xD4, 0x01, 0x03, 0x77, 0xFF] 0xA000 0 13 [0x1A, 0x1B, 0x1C] 1000 false) = some (.run, none, 3, 3, 10) := by decide
/-- V6: two reloads, every read before the offset check, then CORRUPT. -/
theorem test_step_dup24_corrupt :
    view (running [0xFE, 0x75, 0x1D, 0x00, 0x05, 0xFF] 0x8000 0 15 [0x20, 0x21] 1000 false) = some (.err, some .corrupt, 5, 0, 2) := by decide
/-- V43: CORRUPT, not OVF, although the buffer is full. -/
theorem test_step_dup3_corrupt_first :
    view (running [0xBE, 0x03, 0x01, 0x02, 0xFF] 0x03BE 3 1 [1] 1 false) = some (.err, some .corrupt, 4, 5, 1) := by decide
/-- V31: OVF at the fifth byte. -/
theorem test_step_dup5_overflow :
    (view (running [0xD2, 0x0E, 0xAA, 0x01, 0xFF] 0x0ED2 3 1 [0xAA] 5 false)).map (fun v => (v.1, v.2.1)) = some (.err, some .ovf) := by decide
/-- V46: offset 0 against a full buffer is OVF. -/
theorem test_step_dup2_zero_overflow :
    (view (running [0xD6, 0x01, 0x11, 0x00, 0xFF] 0x01D6 3 1 [0x11] 1 false)).map (fun v => (v.1, v.2.1)) = some (.err, some .ovf) := by decide
/-- V24: escape byte 0x00 copies 25 bytes. -/
theorem test_step_dupx :
    view (running [0x3A, 0x3B, 0x61, 0x00, 0x01, 0x00, 0x00, 0xFF] 0x3B3A 3 1 [0x61] 1000 false) = some (.run, none, 5, 9, 26) ∧
    outAfter (running [0x3A, 0x3B, 0x61, 0x00, 0x01, 0x00, 0x00, 0xFF] 0x3B3A 3 1 [0x61] 1000 false) 24 3 = some [some 0x61, some 0x61, none] := by decide
/-- T7. -/
theorem test_step_skip :
    view (atStart [0x1D, 0x1D, 0xFE, 0x5A, 0xFF] [] 1000 false) = some (.run, none, 3, 7, 0) := by decide
/-- T6. -/
theorem test_step_end :
    view (atStart [0x1D, 0x00, 0xFF] [] 1000 false) = some (.done, none, 3, 7, 0) ∧
    (nextOf (step (atStart [0x1D, 0x00, 0xFF] [] 1000 false))).map (fun t => hostView t) = some (.success [] 0) := by decide
/-- V30: after six bytes END reports six. -/
theorem test_step_end_count :
    (nextOf (step (running [0xD2, 0x0E, 0xAA, 0x01, 0xFF] 0x0ED2 4 7 [1, 2, 3, 4, 5, 6] 6 false))).map (fun t => (t.ST, t.BYTECOUNT)) = some (.done, 6) := by decide
/-- One `off` item, `0111111`: MSB 31 (R81, R100 step d). -/
theorem test_step_offset_item :
    (nextOf (runOffsetItem (atStart [0x7E, 0x00] [] 1000 false))).map (fun t => (t.MSB, t.ICUR, t.CNT)) = some (31, 2, 7) := by decide
theorem test_exec_offhi0 :
    (nextOf (exec .offhi0 State.reset)).map (fun t => t.MSB) = some 0 := by decide
theorem test_exec_offhi1 :
    (nextOf (exec .offhi1 State.reset)).map (fun t => t.MSB) = some 1 := by decide
theorem test_exec_offhi2 :
    (nextOf (exec .offhi2 State.reset)).map (fun t => t.MSB) = some 2 := by decide
theorem test_exec_offhi3 :
    (nextOf (exec .offhi3 State.reset)).map (fun t => t.MSB) = some 3 := by decide
theorem test_exec_offhi4 :
    (nextOf (exec .offhi4 State.reset)).map (fun t => t.MSB) = some 4 := by decide
theorem test_exec_offhi5 :
    (nextOf (exec .offhi5 State.reset)).map (fun t => t.MSB) = some 5 := by decide
theorem test_exec_offhi6 :
    (nextOf (exec .offhi6 State.reset)).map (fun t => t.MSB) = some 6 := by decide
theorem test_exec_offhi7 :
    (nextOf (exec .offhi7 State.reset)).map (fun t => t.MSB) = some 7 := by decide
theorem test_exec_offhi8 :
    (nextOf (exec .offhi8 State.reset)).map (fun t => t.MSB) = some 8 := by decide
theorem test_exec_offhi9 :
    (nextOf (exec .offhi9 State.reset)).map (fun t => t.MSB) = some 9 := by decide
theorem test_exec_offhi10 :
    (nextOf (exec .offhi10 State.reset)).map (fun t => t.MSB) = some 10 := by decide
theorem test_exec_offhi11 :
    (nextOf (exec .offhi11 State.reset)).map (fun t => t.MSB) = some 11 := by decide
theorem test_exec_offhi12 :
    (nextOf (exec .offhi12 State.reset)).map (fun t => t.MSB) = some 12 := by decide
theorem test_exec_offhi13 :
    (nextOf (exec .offhi13 State.reset)).map (fun t => t.MSB) = some 13 := by decide
theorem test_exec_offhi14 :
    (nextOf (exec .offhi14 State.reset)).map (fun t => t.MSB) = some 14 := by decide
theorem test_exec_offhi15 :
    (nextOf (exec .offhi15 State.reset)).map (fun t => t.MSB) = some 15 := by decide
theorem test_exec_offhi16 :
    (nextOf (exec .offhi16 State.reset)).map (fun t => t.MSB) = some 16 := by decide
theorem test_exec_offhi17 :
    (nextOf (exec .offhi17 State.reset)).map (fun t => t.MSB) = some 17 := by decide
theorem test_exec_offhi18 :
    (nextOf (exec .offhi18 State.reset)).map (fun t => t.MSB) = some 18 := by decide
theorem test_exec_offhi19 :
    (nextOf (exec .offhi19 State.reset)).map (fun t => t.MSB) = some 19 := by decide
theorem test_exec_offhi20 :
    (nextOf (exec .offhi20 State.reset)).map (fun t => t.MSB) = some 20 := by decide
theorem test_exec_offhi21 :
    (nextOf (exec .offhi21 State.reset)).map (fun t => t.MSB) = some 21 := by decide
theorem test_exec_offhi22 :
    (nextOf (exec .offhi22 State.reset)).map (fun t => t.MSB) = some 22 := by decide
theorem test_exec_offhi23 :
    (nextOf (exec .offhi23 State.reset)).map (fun t => t.MSB) = some 23 := by decide
theorem test_exec_offhi24 :
    (nextOf (exec .offhi24 State.reset)).map (fun t => t.MSB) = some 24 := by decide
theorem test_exec_offhi25 :
    (nextOf (exec .offhi25 State.reset)).map (fun t => t.MSB) = some 25 := by decide
theorem test_exec_offhi26 :
    (nextOf (exec .offhi26 State.reset)).map (fun t => t.MSB) = some 26 := by decide
theorem test_exec_offhi27 :
    (nextOf (exec .offhi27 State.reset)).map (fun t => t.MSB) = some 27 := by decide
theorem test_exec_offhi28 :
    (nextOf (exec .offhi28 State.reset)).map (fun t => t.MSB) = some 28 := by decide
theorem test_exec_offhi29 :
    (nextOf (exec .offhi29 State.reset)).map (fun t => t.MSB) = some 29 := by decide
theorem test_exec_offhi30 :
    (nextOf (exec .offhi30 State.reset)).map (fun t => t.MSB) = some 30 := by decide
theorem test_exec_offhi31 :
    (nextOf (exec .offhi31 State.reset)).map (fun t => t.MSB) = some 31 := by decide
/-- V40: one byte is not enough for a reload, and it is not consumed. -/
theorem test_reader_reload_past_end :
    view (running [0x00, 0x00, 0x99] 0 2 15 [] 1000 false) = some (.err, some .eoi, 2, 15, 0) := by decide
/-- V1. -/
theorem test_start :
    (nextOf (step (hostStart (hostLoad [0xAC, 0x03, 0x41, 0x42, 0x02, 0xFF] 1000 false State.reset)))).map (fun t => (t.ST, t.WIN, t.ICUR, t.CNT, t.OPOS)) = some (.run, 0x03AC, 2, 0, 0) := by decide
/-- V36. -/
theorem test_start_too_short :
    (nextOf (step (hostStart (hostLoad [0x1D] 1000 false State.reset)))).map (fun t => (t.ST, t.ERR)) = some (.err, some .eoi) := by decide
/-- The step after reset runs the table word it is given (log 15). -/
theorem test_table_word_runs :
    (nextOf (step (State.reset.withFetchWord 8 0b10111010))).map (fun t => (t.ST, t.ERR)) = some (.err, some .corrupt) := by decide

/-! ## Witnesses: for every statement with hypotheses, inputs that meet them, clause by clause at boundary values -/

/-- A reader with these stream registers, the transient ones 0. -/
def reader (win : Window) (cnt : Fin 16) (icur : Nat) : Reader :=
  { Reader.start (Input.ofBytes []) with WIN := win, CNT := cnt, ICUR := icur }

/-- Trees a block may use, not the default ones: length codes `0` for 25, `10` for 3 and `11` for nothing; offset codes `0` for 0
and `1` for nothing. -/
def smallTrees : Trees := ⟨.internal (.leaf 25) (.internal (.leaf 3) .absent), .internal (.leaf 0) .absent⟩

/-- Trees no block may use: no leaf holds 25. -/
def treesWithoutSentinel : Trees := ⟨.internal (.leaf 3) (.leaf 4), .internal (.leaf 0) (.leaf 1)⟩

/-- R86, each condition by itself. -/
theorem test_usable_trees :
    treesUsable smallTrees = true ∧ treesUsable treesWithoutSentinel = false ∧ lengthTreeUsable (.leaf 25) = false ∧
    lengthTreeUsable (.internal (.leaf 25) (.leaf 25)) = false ∧ lengthTreeUsable (.internal (.leaf 25) (.leaf 1)) = false ∧
    lengthTreeUsable (.internal (.leaf 25) (.leaf 26)) = false ∧ lengthTreeUsable (.internal (.leaf 25) (.leaf 2)) = true ∧
    offsetTreeUsable (.leaf 0) = false ∧ offsetTreeUsable .absent = false ∧ offsetTreeUsable (.internal .absent (.leaf 31)) = true := by
  decide

/-- With these trees the bits `1 0` and the byte FF are END (R22, R54, R82). -/
theorem test_step_other_trees_end :
    view { atStart [0x01, 0x00, 0xFF] [9] 9 false with trees := smallTrees } = some (.done, none, 3, 2, 1) := by decide

/-- With these trees the bits `1 10 0` and the byte 01 are DUP3 at distance 1 (R22, R53, R82). -/
theorem test_step_other_trees_dup3 :
    outAfter { atStart [0x03, 0x00, 0x01] [9] 9 false with trees := smallTrees } 0 4 = some [some 9, some 9, some 9, some 9] := by
  decide

/-- The bits `1 11` select an absent reference: CORRUPT, the bits consumed (R82, R122 a). -/
theorem test_step_other_trees_corrupt :
    view { atStart [0x07, 0x00, 0x01] [9] 9 false with trees := smallTrees } = some (.err, some .corrupt, 2, 3, 1) := by decide

/-- A block that is not running, with a START issued. -/
def startPending (st : Status) (bs : List Byte) (outcap : Nat) : State :=
  { hostStart (hostLoad bs outcap false State.reset) with ST := st }

theorem test_witness_StartCreatesTheSession :
    ((startPending .idle [0x1D, 0x00] 1).ST ≠ .run ∧ (startPending .idle [0x1D, 0x00] 1).START = true ∧
      1 ≤ (startPending .idle [0x1D, 0x00] 1).OUTCAP ∧ treesUsable (startPending .idle [0x1D, 0x00] 1).trees = true ∧ 2 ≤ (startPending .idle [0x1D, 0x00] 1).INLEN) ∧
    ((startPending .err [0x1D] 1).ST ≠ .run ∧ (startPending .err [0x1D] 1).START = true ∧
      1 ≤ (startPending .err [0x1D] 1).OUTCAP ∧ treesUsable (startPending .err [0x1D] 1).trees = true ∧ (startPending .err [0x1D] 1).INLEN < 2) := by decide

theorem test_witness_InitLoadsTheFirstWindow :
    2 ≤ (startPending .idle [0x1D, 0x00] 1).INLEN ∧ (startPending .idle [0x1D] 1).INLEN < 2 := by decide

theorem test_witness_StartOutsideTheContractIsRefused :
    ((startPending .run [] 1).START = true ∧ (startPending .run [] 1).ST = .run) ∧
    ((startPending .done [] 0).START = true ∧ (startPending .done [] 0).ST ≠ .run ∧ (startPending .done [] 0).OUTCAP = 0) ∧
    ({ startPending .idle [] 1 with trees := treesWithoutSentinel }.START = true ∧
      { startPending .idle [] 1 with trees := treesWithoutSentinel }.ST ≠ .run ∧
      1 ≤ { startPending .idle [] 1 with trees := treesWithoutSentinel }.OUTCAP ∧
      treesUsable { startPending .idle [] 1 with trees := treesWithoutSentinel }.trees = false) := by
  decide

theorem test_witness_BlockIsQuiescentUntilStart :
    (State.reset.ST ≠ .run ∧ State.reset.START = false) ∧
    ((abort .eoi State.reset).ST ≠ .run ∧ (abort .eoi State.reset).START = false) := by decide

theorem test_witness_NextBitReturnsAndReloads :
    (reader 0 14 2).CNT.val < 15 ∧
    ((reader 0 15 2).CNT.val = 15 ∧ (reader 0 15 2).ICUR + 2 ≤ (Input.ofBytes [0, 0, 1, 2]).len) ∧
    ((reader 0 15 2).CNT.val = 15 ∧ (Input.ofBytes [0, 0, 1]).len < (reader 0 15 2).ICUR + 2) := by decide

theorem test_witness_NextByteReturnsTheByteAtTheCursor :
    (reader 0 0 2).ICUR < (Input.ofBytes [0, 0, 1]).len ∧ (Input.ofBytes [0, 0]).len ≤ (reader 0 0 2).ICUR := by decide

/-- Two inputs of one length that differ only at and beyond it. -/
theorem test_witness_EndOfInputExactlyWhenNoByteIsLeft :
    (Input.mk [(0, 1), (1, 2), (2, 3)] 2).len = (Input.mk [(0, 1), (1, 2), (2, 9)] 2).len ∧
    ∀ a, a < (Input.mk [(0, 1), (1, 2), (2, 3)] 2).len →
      (Input.mk [(0, 1), (1, 2), (2, 3)] 2).byte a = (Input.mk [(0, 1), (1, 2), (2, 9)] 2).byte a := by decide

/-- The path of a leaf, and the path of an absent reference. -/
theorem test_witness_DecodeFollowsOnePath :
    (([true, false], 3) ∈ treePaths smallTrees.L ∧
      ∃ q, feed (Input.ofBytes [0x01, 0x00]) (bitItems [true, false]) (reader 1 0 2) = some q) ∧
    ([true, true] ∈ treeGaps smallTrees.L ∧
      ∃ q, feed (Input.ofBytes [0x03, 0x00]) (bitItems [true, true]) (reader 3 0 2) = some q) ∧
    (∃ p, decodeSym smallTrees.L (Input.ofBytes [0x01, 0x00]) (reader 1 0 2) = .got 3 p) ∧
    (∃ p, decodeSym smallTrees.L (Input.ofBytes [0x03, 0x00]) (reader 3 0 2) = .stop .absentNode p) :=
  ⟨⟨by decide, ⟨_, rfl⟩⟩, ⟨by decide, ⟨_, rfl⟩⟩, ⟨_, rfl⟩, ⟨_, rfl⟩⟩

/-- Other trees with the sentinel and the offset 0, and the default trees where the stream ends. -/
theorem test_witness_UsableTreesDecodeToTheirLeaves :
    treesUsable smallTrees = true ∧
    (∃ p, decodeSym smallTrees.L (Input.ofBytes [0, 0]) (reader 0 0 2) = .got 25 p) ∧
    (∃ p, decodeSym smallTrees.O (Input.ofBytes [0, 0]) (reader 0 0 2) = .got 0 p) ∧
    treesUsable defaultTrees = true ∧ treeComplete defaultTrees.L = true ∧ treeComplete defaultTrees.O = true ∧
    (∃ q, decodeWith defaultTrees false (Input.ofBytes [0x0F, 0x00]) (reader 0x000F 0 2) = .stop .endOfInput q) :=
  ⟨by decide, ⟨_, rfl⟩, ⟨_, rfl⟩, by decide, by decide, by decide, ⟨_, rfl⟩⟩

/-- A tree with an absent reference, and the two default trees. -/
theorem test_witness_RomWalkIsTheTreeWalk :
    treeFits (.internal (.leaf 3) .absent) = true ∧ treeFits defaultTrees.L = true ∧
    treeFits defaultTrees.O = true := by decide

/-- The longest length code and the shortest offset code. -/
theorem test_witness_EveryCodeDecodesToItsValue :
    (∃ q, feed (Input.ofBytes [0xFE, 0x01]) (bitItems (rowBits ⟨24, 9, 0b011111111⟩)) (reader 0x01FE 0 2) = some q ∧
      (⟨24, 9, 0b011111111⟩ : Code) ∈ lengthCodes) ∧
    (∃ q, feed (Input.ofBytes [0x01, 0x00]) (bitItems (rowBits ⟨0, 1, 0b1⟩)) (reader 1 0 2) = some q ∧
      (⟨0, 1, 0b1⟩ : Code) ∈ offsetCodes) :=
  ⟨⟨_, rfl, by decide⟩, ⟨_, rfl, by decide⟩⟩

theorem test_witness_DecodedValuesAreDeclaredCodes :
    (∃ p, decodeSym defaultTrees.L (Input.ofBytes [0xFE, 0x01]) (reader 0x01FE 0 2) = .got 24 p) ∧
    (∃ p, decodeSym defaultTrees.O (Input.ofBytes [0x7E, 0x00]) (reader 0x007E 0 2) = .got 31 p) := ⟨⟨_, rfl⟩, ⟨_, rfl⟩⟩

theorem test_witness_DefaultTreesNeverRejectABitString :
    ∃ e q, decode false (Input.ofBytes [0x0F, 0x00]) (reader 0x000F 0 2) = .stop e q := ⟨_, _, rfl⟩

/-- DUPX with escape byte 0xFD and MSB 31. -/
theorem test_witness_DecodeReadsBackEncode :
    (Instr.dupx 0xFD 31 0x80).wf = true ∧ (Instr.dupx 0xFD 31 0x80).isStream = true ∧ (Instr.dupx 0xFD 31 0x80).modeOk true = true ∧
    ∃ q, feed (Input.ofBytes [0x1D, 0x3F, 0xFD, 0x80]) (encode (.dupx 0xFD 31 0x80)) (reader 0x3F1D 0 2) = some q :=
  ⟨by decide, by decide, by decide, ⟨_, rfl⟩⟩

theorem test_witness_DecodedItemsAreTheEncoding :
    ∃ p, decode true (Input.ofBytes [0x1D, 0x3F, 0xFD, 0x80]) (reader 0x3F1D 0 2) = .got (.dupx 0xFD 31 0x80) p := ⟨_, rfl⟩

/-- V6: two reloads in one instruction. -/
theorem test_witness_InstructionLengthFromItsItems :
    ∃ p, decode false (Input.ofBytes [0xFE, 0x75, 0x1D, 0x00, 0x05]) (reader 0x8000 15 0) = .got (.dup24 14 0x05) p := ⟨_, rfl⟩

theorem test_witness_AssembledInstructionsDecodeInOrder :
    ∀ i ∈ [Instr.lit 0x61, .dupx 0xFD 31 0xFF, .skip, .endMark], i.wf = true ∧ i.isStream = true ∧ i.modeOk false = true := by
  decide

theorem test_witness_OffsetRowsDecode :
    Instr.offhi31.offHigh = some 31 ∧
    ∃ q, feed (Input.ofBytes [0x7E, 0x00]) (encode .offhi31) (reader 0x007E 0 2) = some q := ⟨rfl, ⟨_, rfl⟩⟩

/-- A literal, a duplication, and a stream that ends. -/
theorem test_witness_DecryptSelectsOnlyTheLiteral :
    (∃ q, decodeWith defaultTrees false (Input.ofBytes [0, 0, 0x41]) (reader 0 0 2) = .got (.lit 0x41) q) ∧
    (∃ q, decodeWith defaultTrees false (Input.ofBytes [0xEB, 0, 1]) (reader 0x00EB 0 2) = .got (.dup2 1) q) ∧
    (∃ e q, decodeWith defaultTrees false (Input.ofBytes [0, 0]) (reader 0 0 2) = .stop e q) := ⟨⟨_, rfl⟩, ⟨_, rfl⟩, ⟨_, _, rfl⟩⟩

/-- The last cell, and none; a copy of two bytes into one cell. -/
theorem test_witness_EmitWritesExactlyWhenACellIsLeft :
    ((atStart [] [1, 2] 3 false).OPOS ≤ (atStart [] [1, 2] 3 false).OUTCAP ∧
      (atStart [] [1, 2] 3 false).OUTCAP < (atStart [] [1, 2] 3 false).OPOS + 2) ∧
    (atStart [] [1, 2] 3 false).OPOS < (atStart [] [1, 2] 3 false).OUTCAP ∧
    (atStart [] [1, 2] 2 false).OUTCAP ≤ (atStart [] [1, 2] 2 false).OPOS := by decide

theorem test_witness_CopyRepeatsThePeriod :
    1 ≤ 3 ∧ 3 ≤ (atStart [] [1, 2, 3] 10 false).OPOS ∧ (atStart [] [1, 2, 3] 10 false).OPOS + 7 ≤ (atStart [] [1, 2, 3] 10 false).OUTCAP ∧
    OutputWritten (atStart [] [1, 2, 3] 10 false) := by decide

theorem test_witness_LitWritesItsByte : (atStart [] [1, 2] 3 false).OPOS < (atStart [] [1, 2] 3 false).OUTCAP := by decide
theorem test_witness_LitxWritesTheUnmaskedByte : (atStart [] [] 1 true).OPOS < (atStart [] [] 1 true).OUTCAP := by decide
theorem test_witness_LiteralOverflowEndsTheCall : (atStart [] [1] 1 false).OUTCAP ≤ (atStart [] [1] 1 false).OPOS := by decide

/-- V38, V32 and V15: no byte left, no cell left, one of each. -/
theorem test_witness_LitStepReadsThenWrites :
    (∃ r, nextBit (inputOf (atStart [0, 0] [] 1 false)) (atStart [0, 0] [] 1 false).toReader = .got false r ∧
      (atStart [0, 0] [] 1 false).INLEN ≤ r.ICUR) ∧
    (∃ r, nextBit (inputOf (atStart [0, 0, 7] [1] 1 false)) (atStart [0, 0, 7] [1] 1 false).toReader = .got false r ∧
      r.ICUR < (atStart [0, 0, 7] [1] 1 false).INLEN ∧ (atStart [0, 0, 7] [1] 1 false).OUTCAP ≤ (atStart [0, 0, 7] [1] 1 false).OPOS) ∧
    (∃ r, nextBit (inputOf (atStart [0, 0, 7] [1] 2 false)) (atStart [0, 0, 7] [1] 2 false).toReader = .got false r ∧
      r.ICUR < (atStart [0, 0, 7] [1] 2 false).INLEN ∧ (atStart [0, 0, 7] [1] 2 false).OPOS < (atStart [0, 0, 7] [1] 2 false).OUTCAP) ∧
    (atStart [0, 0, 7] [1] 2 false).ST = .run ∧ (atStart [0, 0, 7] [1] 2 false).START = false ∧
    (atStart [0, 0, 7] [1] 2 false).DECRYPT = false :=
  ⟨⟨_, rfl, by decide⟩, ⟨_, rfl, by decide, by decide⟩, ⟨_, rfl, by decide, by decide⟩, rfl, rfl, rfl⟩

/-- The same with DECRYPT = 1, the last at CNT = 15, where the control bit loads the next window. -/
theorem test_witness_LitxStepReadsThenWrites :
    (∃ r, nextBit (inputOf (atStart [0, 0] [] 1 true)) (atStart [0, 0] [] 1 true).toReader = .got false r ∧
      (atStart [0, 0] [] 1 true).INLEN ≤ r.ICUR) ∧
    (∃ r, nextBit (inputOf (atStart [0, 0, 7] [1] 1 true)) (atStart [0, 0, 7] [1] 1 true).toReader = .got false r ∧
      r.ICUR < (atStart [0, 0, 7] [1] 1 true).INLEN ∧ (atStart [0, 0, 7] [1] 1 true).OUTCAP ≤ (atStart [0, 0, 7] [1] 1 true).OPOS) ∧
    (∃ r, nextBit (inputOf (running [1, 2, 7] 0 0 15 [1] 2 true)) (running [1, 2, 7] 0 0 15 [1] 2 true).toReader = .got false r ∧
      r.ICUR < (running [1, 2, 7] 0 0 15 [1] 2 true).INLEN ∧
      (running [1, 2, 7] 0 0 15 [1] 2 true).OPOS < (running [1, 2, 7] 0 0 15 [1] 2 true).OUTCAP) ∧
    (atStart [0, 0, 7] [1] 1 true).ST = .run ∧ (atStart [0, 0, 7] [1] 1 true).START = false ∧
    (atStart [0, 0, 7] [1] 1 true).DECRYPT = true :=
  ⟨⟨_, rfl, by decide⟩, ⟨_, rfl, by decide, by decide⟩, ⟨_, rfl, by decide, by decide⟩, rfl, rfl, rfl⟩

/-- Control bits at CNT = 14 and CNT = 15. -/
theorem test_witness_LiteralKeyByPosition :
    (∃ q b, nextBit (Input.ofBytes [0, 0]) (reader 0 14 2) = .got b q) ∧
    (∃ q b, nextBit (Input.ofBytes [0, 0, 1, 2]) (reader 0 15 2) = .got b q) := ⟨⟨_, _, rfl⟩, ⟨_, _, rfl⟩⟩

/-- DUP2 at a distance of OPOS that fills the buffer; DUPX with its largest escape byte. -/
theorem test_witness_DuplicationCopiesItsCount :
    (dupForm (.dup2 2) = some (2, 0, 2) ∧ 1 ≤ distance 0 2 ∧ distance 0 2 ≤ (atStart [] [1, 2] 4 false).OPOS ∧
      (atStart [] [1, 2] 4 false).OPOS + 2 ≤ (atStart [] [1, 2] 4 false).OUTCAP ∧ OutputWritten (atStart [] [1, 2] 4 false)) ∧
    (dupForm (.dupx 0xFD 0 1) = some (278, 0, 1) ∧ 1 ≤ distance 0 1 ∧ distance 0 1 ≤ (atStart [] [1] 279 false).OPOS ∧
      (atStart [] [1] 279 false).OPOS + 278 ≤ (atStart [] [1] 279 false).OUTCAP ∧ OutputWritten (atStart [] [1] 279 false)) := by
  decide

theorem test_witness_DuplicationAtDistanceZeroWritesFreeBytes :
    dupForm (.dup3 0 0) = some (3, 0, 0) ∧ distance 0 0 = 0 ∧
    (atStart [] [] 3 false).OPOS + 3 ≤ (atStart [] [] 3 false).OUTCAP := by decide

theorem test_witness_DuplicationFrame :
    dupForm (.dup24 0 1) = some (24, 0, 1) ∧ distance 0 1 ≤ (atStart [] [1] 25 false).OPOS ∧
    (atStart [] [1] 25 false).OPOS + 24 ≤ (atStart [] [1] 25 false).OUTCAP ∧
    ∃ t, exec (.dup24 0 1) (atStart [] [1] 25 false) = .next t := ⟨by decide, by decide, by decide, ⟨_, rfl⟩⟩

/-- A distance one beyond OPOS, and one equal to it. -/
theorem test_witness_OffsetBeyondOutputIsCorrupt :
    ({ atStart [] [1] 9 false with OFF := 2 }.OPOS < { atStart [] [1] 9 false with OFF := 2 }.OFF.toNat ∧
      { atStart [] [1] 9 false with OFF := 1 }.OFF.toNat ≤ { atStart [] [1] 9 false with OFF := 1 }.OPOS) ∧
    (dupForm (.dup4 0 2) = some (4, 0, 2) ∧ (atStart [] [1] 9 false).OPOS < distance 0 2) ∧
    (dupForm (.dup4 0 1) = some (4, 0, 1) ∧ distance 0 1 ≤ (atStart [] [1] 9 false).OPOS ∧ (atStart [] [1] 9 false).ERR = none ∧
      ∃ t, exec (.dup4 0 1) (atStart [] [1] 9 false) = .next t) :=
  ⟨by decide, ⟨by decide, by decide⟩, by decide, by decide, by decide, ⟨_, rfl⟩⟩

theorem test_witness_DuplicationOverflowEndsTheCall :
    dupForm (.dup4 0 1) = some (4, 0, 1) ∧ distance 0 1 ≤ (atStart [] [1] 4 false).OPOS ∧
    (atStart [] [1] 4 false).OUTCAP < (atStart [] [1] 4 false).OPOS + 4 := by decide

theorem test_witness_ReservedEscapeByteStops : 0xFD < (0xFE : Byte).toNat ∧ 0xFD < (0xFF : Byte).toNat := by decide

theorem test_witness_SkipStepOnlyConsumes :
    (atStart [0x1D, 0x00, 0xFE] [] 1 false).ST = .run ∧ (atStart [0x1D, 0x00, 0xFE] [] 1 false).START = false ∧
    (atStart [0x1D, 0x00, 0xFE] [] 1 false).trees = defaultTrees ∧
    (∃ q, fetch (atStart [0x1D, 0x00, 0xFE] [] 1 false) = .got .skip q) ∧
    ∃ q, fetch { atStart [0x01, 0x00, 0xFE] [] 1 false with trees := smallTrees } = .got .skip q :=
  ⟨rfl, rfl, rfl, ⟨_, rfl⟩, ⟨_, rfl⟩⟩

theorem test_witness_OffsetRowDeliversItsValue : Instr.offhi0.offHigh = some 0 ∧ Instr.offhi31.offHigh = some 31 := by decide

theorem test_witness_StepRunsTheDecodedInstruction :
    (atStart [0xEB, 0x00, 0x01] [9] 9 true).ST = .run ∧ (atStart [0xEB, 0x00, 0x01] [9] 9 true).START = false ∧
    ∃ r, decodeWith (atStart [0xEB, 0x00, 0x01] [9] 9 true).trees (atStart [0xEB, 0x00, 0x01] [9] 9 true).DECRYPT (inputOf (atStart [0xEB, 0x00, 0x01] [9] 9 true))
      (atStart [0xEB, 0x00, 0x01] [9] 9 true).toReader = .got (.dup2 1) r := ⟨rfl, rfl, ⟨_, rfl⟩⟩

theorem test_witness_OffsetItemRunsTheDecodedRow :
    ∃ r, decodeOffset (atStart [0x7E, 0x00] [] 1 false).trees (inputOf (atStart [0x7E, 0x00] [] 1 false)) (atStart [0x7E, 0x00] [] 1 false).toReader =
      .got .offhi31 r := ⟨_, rfl⟩

/-- V37: END without its escape byte; and, with other trees, a bit that selects an absent reference. -/
theorem test_witness_FailedReadEndsTheCall :
    ((atStart [0x1D, 0x00] [] 1 false).ST = .run ∧ (atStart [0x1D, 0x00] [] 1 false).START = false ∧
      ∃ r, decodeWith (atStart [0x1D, 0x00] [] 1 false).trees (atStart [0x1D, 0x00] [] 1 false).DECRYPT
        (inputOf (atStart [0x1D, 0x00] [] 1 false)) (atStart [0x1D, 0x00] [] 1 false).toReader = .stop .endOfInput r) ∧
    ({ atStart [0x07, 0x00] [] 1 false with trees := smallTrees }.ST = .run ∧
      { atStart [0x07, 0x00] [] 1 false with trees := smallTrees }.START = false ∧
      ∃ r, decodeWith smallTrees false (inputOf { atStart [0x07, 0x00] [] 1 false with trees := smallTrees })
        { atStart [0x07, 0x00] [] 1 false with trees := smallTrees }.toReader = .stop .absentNode r) :=
  ⟨⟨rfl, rfl, ⟨_, rfl⟩⟩, rfl, rfl, ⟨_, rfl⟩⟩

theorem test_witness_RunningCallAlwaysSteps :
    (atStart [0x1D, 0x00] [] 1 false).ST = .run ∧ (atStart [0x1D, 0x00] [] 1 false).START = false := by decide

/-- LIT and LITX with no cell left and with the last one; SKIP and END; a duplication whose distance is OPOS and whose bytes do
not fit, and one whose distance is OPOS + 1. -/
theorem test_witness_ErrorsOfTheFetchedInstruction :
    (∃ q t, fetch (atStart [0, 0, 7] [1] 1 false) = .got (.lit 7) q ∧ step (atStart [0, 0, 7] [1] 1 false) = .next t) ∧
    (∃ q t, fetch (atStart [0, 0, 7] [1] 2 false) = .got (.lit 7) q ∧ step (atStart [0, 0, 7] [1] 2 false) = .next t) ∧
    (∃ q t, fetch (atStart [0, 0, 7] [1] 1 true) = .got (.litx 7) q ∧ step (atStart [0, 0, 7] [1] 1 true) = .next t) ∧
    (∃ q t, fetch (atStart [0, 0, 7] [1] 2 true) = .got (.litx 7) q ∧ step (atStart [0, 0, 7] [1] 2 true) = .next t) ∧
    (∃ q t, fetch (atStart [0x1D, 0, 0xFE] [1] 1 false) = .got .skip q ∧ step (atStart [0x1D, 0, 0xFE] [1] 1 false) = .next t) ∧
    (∃ q t, fetch (atStart [0x1D, 0, 0xFF] [1] 1 false) = .got .endMark q ∧ step (atStart [0x1D, 0, 0xFF] [1] 1 false) = .next t) ∧
    (∃ q t, fetch (atStart [0xEB, 0, 1] [1] 2 false) = .got (.dup2 1) q ∧ step (atStart [0xEB, 0, 1] [1] 2 false) = .next t ∧
      dupForm (.dup2 1) = some (2, 0, 1) ∧ distance 0 1 = (atStart [0xEB, 0, 1] [1] 2 false).OPOS) ∧
    (∃ q t, fetch (atStart [0xEB, 0, 2] [1] 9 false) = .got (.dup2 2) q ∧ step (atStart [0xEB, 0, 2] [1] 9 false) = .next t ∧
      dupForm (.dup2 2) = some (2, 0, 2) ∧ distance 0 2 = (atStart [0xEB, 0, 2] [1] 9 false).OPOS + 1) ∧
    ∀ bs o c d, (atStart bs o c d).ST = .run ∧ (atStart bs o c d).START = false ∧ (atStart bs o c d).ERR = none :=
  ⟨⟨_, _, rfl, rfl⟩, ⟨_, _, rfl, rfl⟩, ⟨_, _, rfl, rfl⟩, ⟨_, _, rfl, rfl⟩, ⟨_, _, rfl, rfl⟩, ⟨_, _, rfl, rfl⟩,
    ⟨_, _, rfl, rfl, rfl, rfl⟩, ⟨_, _, rfl, rfl, rfl, rfl⟩, fun _ _ _ _ => ⟨rfl, rfl, rfl⟩⟩

/-- A running call that meets the invariant and whose next instruction is END. -/
theorem test_witness_OnlyEndEndsWell :
    Invariant (atStart [0x1D, 0x00, 0xFF] [1, 2] 2 false) ∧ (atStart [0x1D, 0x00, 0xFF] [1, 2] 2 false).ST = .run ∧
    ∃ t, step (atStart [0x1D, 0x00, 0xFF] [1, 2] 2 false) = .next t ∧ t.ST = .done :=
  ⟨by decide, rfl, ⟨_, rfl, rfl⟩⟩

theorem test_witness_EveryStepKeepsTheInvariant :
    Invariant (atStart [0, 0, 7] [1] 2 false) ∧ (∃ t, step (atStart [0, 0, 7] [1] 2 false) = .next t) ∧
    Invariant (startPending .idle [0x1D] 1) ∧ ∃ t, step (startPending .idle [0x1D] 1) = .next t :=
  ⟨by decide, ⟨_, rfl⟩, by decide, ⟨_, rfl⟩⟩

/-- A block after power-on, and one after a call that ended well. -/
theorem test_witness_HostMovesKeepTheInvariant :
    (State.reset.ST ≠ .run ∧ Invariant State.reset) ∧
    ({ atStart [0, 0] [1, 2] 2 false with ST := .done, BYTECOUNT := 2 }.ST ≠ .run ∧
      Invariant { atStart [0, 0] [1, 2] 2 false with ST := .done, BYTECOUNT := 2 }) := by decide

theorem test_witness_PowerOnMeetsTheInvariant : treesUsable smallTrees = true := by decide

theorem test_witness_EveryCallEnds : State.reset.ST ≠ .run ∧ Invariant State.reset ∧ 1 ≤ 1 := by decide

theorem test_witness_ParametersAreNeverWritten : ∃ t, step (atStart [0, 0, 7] [1] 2 false) = .next t := ⟨_, rfl⟩

theorem test_witness_OutputIsWrittenOnceInOrder :
    (atStart [0, 0, 7] [1] 2 false).ST = .run ∧ ∃ t, step (atStart [0, 0, 7] [1] 2 false) = .next t ∧ t.ST ≠ .err :=
  ⟨rfl, ⟨_, rfl, by decide⟩⟩

theorem test_witness_EveryRunEnds :
    Invariant (atStart [0, 0] [] 1 false) ∧ (atStart [0, 0] [] 1 false).ST = .run ∧ (atStart [0, 0] [] 1 false).START = false := by
  decide

/-- Two calls that differ in DECRYPT and in the bytes written. -/
theorem test_witness_ControlIsIndependentOfTheData :
    SameControl (atStart [0, 0, 7] [1] 2 false) (atStart [0, 0, 7] [9] 2 true) ∧
    ∃ t, step (atStart [0, 0, 7] [1] 2 false) = .next t := ⟨by decide, ⟨_, rfl⟩⟩

/-- Two points of one call that differ in transient registers and in OUT above OPOS. -/
theorem test_witness_StepDependsOnTheSessionAlone :
    SameSession (atStart [0, 0, 7] [1] 2 false)
      { atStart [0, 0, 7] [1] 2 false with KEY := 9, SRC := 5, OUT := [(0, 1), (1, 77)], BYTECOUNT := 4 } ∧
    ∃ t, step (atStart [0, 0, 7] [1] 2 false) = .next t := ⟨by decide, ⟨_, rfl⟩⟩

/-- A block after power-on and one after an ended call. -/
theorem test_witness_StartForgetsEarlierCalls :
    SameCall (startPending .idle [0, 0, 7] 2) { startPending .done [0, 0, 7] 2 with OUT := [(0, 5)], OPOS := 1, BYTECOUNT := 1 } ∧
    (startPending .idle [0, 0, 7] 2).ST ≠ .run ∧ (startPending .done [0, 0, 7] 2).ST ≠ .run ∧
    (startPending .idle [0, 0, 7] 2).START = true ∧ (startPending .done [0, 0, 7] 2).START = true ∧
    ∃ t, step (startPending .idle [0, 0, 7] 2) = .next t := ⟨by decide, by decide, by decide, rfl, rfl, ⟨_, rfl⟩⟩

end Sys2Proof.Tests
end

section
/-! PROOFS. The statements about the state (10_state.md): the numeric codes of ST and ERR (R17), and that no step writes the
parameters of the call, IN or the trees (R15, R22, R31). -/

namespace Sys2Proof.Machine

/-! ## What keeps the host's side -/

theorem KeepsHostSide.refl (s : State) : KeepsHostSide s s := ⟨rfl, rfl, rfl, rfl, rfl, rfl⟩

theorem KeepsHostSide.trans {s t u : State} (h : KeepsHostSide s t) (h' : KeepsHostSide t u) : KeepsHostSide s u := by
  obtain ⟨hT, hI, hL, hC, hD, hS⟩ := h
  obtain ⟨hT', hI', hL', hC', hD', hS'⟩ := h'
  exact ⟨hT'.trans hT, hI'.trans hI, hL'.trans hL, hC'.trans hC, hD'.trans hD, hS'.trans hS⟩

theorem keepsHostSide_putReader (r : Reader) (s : State) : KeepsHostSide s (putReader r s) := .refl s

theorem exec_lit_keepsHostSide {e : Byte} {s t : State} (h : exec (.lit e) s = .next t) : KeepsHostSide s t := by
  rcases Nat.lt_or_ge s.OPOS s.OUTCAP with hroom | hfull
  · cases (exec_lit_ok e hroom).symm.trans h
    exact .refl s
  · cases (exec_lit_full e hfull).symm.trans h
    exact .refl s

theorem exec_litx_keepsHostSide {e : Byte} {s t : State} (h : exec (.litx e) s = .next t) : KeepsHostSide s t := by
  rcases Nat.lt_or_ge s.OPOS s.OUTCAP with hroom | hfull
  · cases (exec_litx_ok e hroom).symm.trans h
    exact .refl s
  · cases (exec_litx_full e hfull).symm.trans h
    exact .refl s

/-- The three ways a duplication can end (R106 to R108) all keep the host's side. -/
theorem duplicate_keepsHostSide {y : Sym} {c : Count} {msb : Sym} {lsb : Byte} {u t : State} (hc : 0 < c.toNat)
    (h : duplicate y c msb lsb u = .next t) : KeepsHostSide u t := by
  obtain ⟨hfar, hcopy, hovf⟩ := duplicate_spec y c msb lsb u hc
  rcases Nat.lt_or_ge u.OPOS (distance msb lsb) with hd | hd
  · cases (hfar hd).symm.trans h
    exact .refl u
  · rcases Nat.lt_or_ge u.OUTCAP (u.OPOS + c.toNat) with hr | hr
    · obtain ⟨v, hv, hrest, -⟩ := hovf hd hr
      cases hv.symm.trans h
      rw [hrest]
      exact .refl u
    · obtain ⟨v, hv, -, -, hframe⟩ := hcopy hd hr
      cases hv.symm.trans h
      rw [hframe.rest]
      exact .refl u

theorem exec_dup_keepsHostSide {i : Instr} {n : Nat} {msb : Sym} {lsb : Byte} {s t : State}
    (hi : dupForm i = some (n, msb, lsb)) (h : exec i s = .next t) : KeepsHostSide s t := by
  obtain ⟨y, c, u, hexec, hc, hn, hu, -, -⟩ := exec_dup hi s
  have hsu : KeepsHostSide s u := by rw [hu]; exact .refl s
  exact hsu.trans (duplicate_keepsHostSide (by omega) (hexec.symm.trans h))

/-- Executing any well-formed stream instruction keeps the host's side, whether it completes or ends the call. -/
theorem exec_keepsHostSide {i : Instr} {s t : State} (hs : i.isStream = true) (hw : i.wf = true) (h : exec i s = .next t) :
    KeepsHostSide s t := by
  obtain ⟨e, rfl⟩ | ⟨e, rfl⟩ | rfl | rfl | ⟨n, msb, lsb, hi⟩ := stream_cases hs hw
  · exact exec_lit_keepsHostSide h
  · exact exec_litx_keepsHostSide h
  · cases h
    exact .refl s
  · cases h
    exact .refl s
  · exact exec_dup_keepsHostSide hi h

/-- One stream instruction, read and executed, keeps the host's side; so does the error of a failing read (R124). -/
theorem execFetched_fetch_keepsHostSide {s t : State} (h : execFetched (fetch s) = .next t) : KeepsHostSide s t := by
  obtain ⟨i, r, hdec, hf⟩ | ⟨e, r, -, hf⟩ := fetch_cases s
  · rw [hf] at h
    obtain ⟨hw, hs, -⟩ := decodeWith_got_wf hdec
    exact (keepsHostSide_putReader r s).trans (exec_keepsHostSide hs hw h)
  · rw [hf] at h
    cases h
    exact .refl s

/-- START uses up the command; the rest of the host's side is as it was (R18). -/
theorem startCall_keepsHostSide {s t : State} (h : startCall s = .next t) : KeepsHostSide { s with START := false } t := by
  obtain ⟨-, hstart⟩ | ⟨-, hstart⟩ := startCall_cases s
  all_goals
    cases hstart.symm.trans h
    exact .refl _

/-! ## The obligations -/

/-- Settles O53: a step that answers a next state executes one instruction, does nothing, or performs START, and each keeps
the host's side, but for the START command. -/
theorem parametersAreNeverWritten : Obligations.ParametersAreNeverWritten := by
  intro s t h
  obtain ⟨-, -, hrun⟩ | ⟨-, -, rfl⟩ | ⟨-, -, -, -, hstart⟩ := step_cases h
  · obtain ⟨hT, hI, hL, hC, hD, -⟩ := execFetched_fetch_keepsHostSide hrun
    exact ⟨hI, hL, hC, hD, hT⟩
  · exact ⟨rfl, rfl, rfl, rfl, rfl⟩
  · obtain ⟨hT, hI, hL, hC, hD, -⟩ := startCall_keepsHostSide hstart
    exact ⟨hI, hL, hC, hD, hT⟩

/-- Settles O6: each code is the one R17 assigns, by the equations of `statusCode` and `errCode`. -/
theorem statusAndErrorCodes : Obligations.StatusAndErrorCodes := ⟨rfl, rfl, rfl, rfl, rfl, rfl, rfl, rfl⟩

end Sys2Proof.Machine
end

section
/-! PROOFS. The statements about the bitstream reader (40_bitstream_reader.md): what Init, NextBit and NextByte answer (R70 to R72),
and that no byte at or beyond INLEN is read (R74). For R74: the decoder reaches the input through NextBit and NextByte alone, so two
inputs those two primitives cannot tell apart decode alike. -/

namespace Sys2Proof

/-! ## What each primitive answers, case by case -/

theorem nextBit_within {m : Input} {r : Reader} (h : r.CNT.val < 15) :
    nextBit m r = .got (r.WIN.getLsbD r.CNT.val) { r with CNT := r.CNT + 1 } :=
  if_neg fun hc => by simp [hc] at h

theorem nextBit_reload {m : Input} {r : Reader} (h : r.CNT.val = 15) (hroom : r.ICUR + 2 ≤ m.len) :
    nextBit m r = .got (r.WIN.getLsbD 15) { r with WIN := m.window r.ICUR, ICUR := r.ICUR + 2, CNT := 0 } := by
  rw [nextBit, if_pos (Fin.ext h), if_neg (by omega), h]

theorem nextBit_ended {m : Input} {r : Reader} (h : r.CNT.val = 15) (hend : m.len < r.ICUR + 2) :
    nextBit m r = .stop .endOfInput r := by
  rw [nextBit, if_pos (Fin.ext h), if_pos hend]

theorem nextByte_within {m : Input} {r : Reader} (h : r.ICUR < m.len) :
    nextByte m r = .got (m.byte r.ICUR) { r with ICUR := r.ICUR + 1 } := if_neg (Nat.not_le.2 h)

theorem nextByte_ended {m : Input} {r : Reader} (h : m.len ≤ r.ICUR) : nextByte m r = .stop .endOfInput r := if_pos h

theorem nextBit_stops_iff (m : Input) (r : Reader) :
    (∃ e q, nextBit m r = .stop e q) ↔ r.CNT.val = 15 ∧ m.len < r.ICUR + 2 := by
  constructor
  · rintro ⟨e, q, h⟩
    obtain ⟨-, -, hc, hend⟩ := nextBit_stop h
    exact ⟨congrArg Fin.val hc, hend⟩
  · rintro ⟨hc, hend⟩
    exact ⟨_, _, nextBit_ended hc hend⟩

theorem nextByte_stops_iff (m : Input) (r : Reader) : (∃ e q, nextByte m r = .stop e q) ↔ m.len ≤ r.ICUR := by
  constructor
  · rintro ⟨e, q, h⟩
    obtain ⟨-, -, hend⟩ := nextByte_stop h
    exact hend
  · exact fun hend => ⟨_, _, nextByte_ended hend⟩

/-! ## The decoder reaches the input through the two primitives alone -/

section

variable {m n : Input} (hbit : nextBit m = nextBit n) (hbyte : nextByte m = nextByte n)

include hbit

theorem walkTree_eq_of_nextBit_eq (t : PrefixTree) (k : Nat) (r : Reader) : walkTree m t k r = walkTree n t k r := by
  induction t generalizing k r with
  | absent => rfl
  | leaf v => rfl
  | internal z o ihz iho => simp only [walkTree, hbit, ihz, iho]

theorem decodeSym_eq_of_nextBit_eq (t : PrefixTree) (r : Reader) : decodeSym t m r = decodeSym t n r :=
  walkTree_eq_of_nextBit_eq hbit t 0 _

include hbyte

theorem readOffset_eq_of_primitives_eq (T : Trees) (r : Reader) : readOffset T m r = readOffset T n r := by
  simp only [readOffset, decodeSym_eq_of_nextBit_eq hbit, hbyte]

theorem decodeDup_eq_of_primitives_eq (T : Trees) (r : Reader) : decodeDup T m r = decodeDup T n r := by
  have hoffset := readOffset_eq_of_primitives_eq hbit hbyte T
  have hescape (q : Reader) : decodeEscape T m q = decodeEscape T n q := by simp only [decodeEscape, hbyte, hoffset]
  have hshort (q : Reader) : decodeShort m q = decodeShort n q := by simp only [decodeShort, hbyte]
  have hplain (sym : Sym) (q : Reader) : decodePlain T m sym q = decodePlain T n sym q := by
    simp only [decodePlain, hoffset]
  simp only [decodeDup, decodeSym_eq_of_nextBit_eq hbit, hescape, hshort, hplain]

theorem decodeWith_eq_of_primitives_eq (T : Trees) (d : Bool) (r : Reader) : decodeWith T d m r = decodeWith T d n r := by
  have hliteral (q : Reader) : decodeLiteral d m q = decodeLiteral d n q := by simp only [decodeLiteral, hbyte]
  simp only [decodeWith, hbit, decodeDup_eq_of_primitives_eq hbit hbyte, hliteral]

end

/-! ## Inputs that agree below INLEN -/

/-- The two inputs have one length and the same byte at every index below it; beyond it they may differ (R74). -/
structure Input.AgreeBelow (m n : Input) : Prop where
  len_eq  : m.len = n.len
  byte_eq : ∀ a, a < m.len → m.byte a = n.byte a

theorem Input.AgreeBelow.window_eq {m n : Input} (h : m.AgreeBelow n) {a : Nat} (ha : a + 2 ≤ m.len) :
    m.window a = n.window a := by
  rw [window, window, h.byte_eq a (by omega), h.byte_eq (a + 1) (by omega)]

theorem Input.AgreeBelow.nextBit_eq {m n : Input} (h : m.AgreeBelow n) : nextBit m = nextBit n := by
  funext r
  have hlen := h.len_eq
  rcases (Nat.le_of_lt_succ r.CNT.isLt).lt_or_eq with hc | hc
  · rw [nextBit_within hc, nextBit_within hc]
  · rcases Nat.lt_or_ge m.len (r.ICUR + 2) with hend | hroom
    · rw [nextBit_ended hc hend, nextBit_ended hc (hlen ▸ hend)]
    · rw [nextBit_reload hc hroom, nextBit_reload hc (hlen ▸ hroom), h.window_eq hroom]

theorem Input.AgreeBelow.nextByte_eq {m n : Input} (h : m.AgreeBelow n) : nextByte m = nextByte n := by
  funext r
  obtain ⟨hlen, hbyte⟩ := h
  rcases Nat.lt_or_ge r.ICUR m.len with hroom | hend
  · rw [nextByte_within hroom, nextByte_within (hlen ▸ hroom), hbyte _ hroom]
  · rw [nextByte_ended hend, nextByte_ended (hlen ▸ hend)]

namespace Machine

/-! ## Init -/

theorem sessionInit_loads {s : State} (h : 2 ≤ s.INLEN) :
    sessionInit s = .ok { s with WIN := (inputOf s).window 0, ICUR := 2, CNT := 0, OPOS := 0 } := if_neg (Nat.not_lt.2 h)

theorem sessionInit_ended {s : State} (h : s.INLEN < 2) : sessionInit s = .raise .eoi s := if_pos h

theorem sessionInit_raises_iff (s : State) : (∃ t, sessionInit s = .raise .eoi t) ↔ s.INLEN < 2 := by
  constructor
  · rintro ⟨t, ht⟩
    by_contra hlong
    cases (sessionInit_loads (Nat.not_lt.1 hlong)).symm.trans ht
  · exact fun hshort => ⟨s, sessionInit_ended hshort⟩

/-! ## The obligations -/

/-- Settles O9: the three conditions are those under which each primitive stops; and inputs that agree below INLEN give the same
first window and the same two primitives, so the same decoding. -/
theorem endOfInputExactlyWhenNoByteIsLeft : Obligations.EndOfInputExactlyWhenNoByteIsLeft := by
  refine ⟨sessionInit_raises_iff, nextBit_stops_iff, nextByte_stops_iff, fun m n r T d hlen hbytes => ?_⟩
  have h : m.AgreeBelow n := ⟨hlen, hbytes⟩
  exact ⟨h.window_eq, congrFun h.nextBit_eq r, congrFun h.nextByte_eq r,
    decodeWith_eq_of_primitives_eq h.nextBit_eq h.nextByte_eq T d r⟩

/-- Settles O2: Init on at least two bytes loads `Input.window 0`, which is the little-endian pair, and raises EOI on fewer. -/
theorem initLoadsTheFirstWindow : Obligations.InitLoadsTheFirstWindow :=
  fun s => ⟨sessionInit_loads, (sessionInit_raises_iff s).2⟩

/-- Settles O7: by the three cases of NextBit: within the window, at its last bit with two bytes left, and without. -/
theorem nextBitReturnsAndReloads : Obligations.NextBitReturnsAndReloads :=
  fun _ _ => ⟨nextBit_within, nextBit_reload, nextBit_ended⟩

/-- Settles O8: by the two cases of NextByte. -/
theorem nextByteReturnsTheByteAtTheCursor : Obligations.NextByteReturnsTheByteAtTheCursor :=
  fun _ _ => ⟨nextByte_within, nextByte_ended⟩

end Machine

end Sys2Proof
end

section
/-! PROOFS. The statements about the control bit and the literals (42_control_and_literal.md): the whole step of a literal, in both
modes (R92, R93). What the two modes share is said once, over DECRYPT: which row a literal is and which byte it writes. -/

namespace Sys2Proof

/-! ## Reading a literal -/

/-- The row of a literal (R62): LITX with DECRYPT, LIT without. -/
def literalRow (d : Bool) (e : Byte) : Instr := if d then .litx e else .lit e

theorem decodeWith_literal {m : Input} {r q : Reader} (h : nextBit m r = .got false q) (T : Trees) (d : Bool) :
    decodeWith T d m r = decodeLiteral d m q := by
  rw [decodeWith, h]
  rfl

theorem decodeLiteral_within {m : Input} {r : Reader} (d : Bool) (h : r.ICUR < m.len) :
    ∃ p, decodeLiteral d m r = .got (literalRow d (m.byte r.ICUR)) p ∧ p.samePosition { r with ICUR := r.ICUR + 1 } := by
  cases d with
  | false =>
    rw [decodeLiteral, if_neg Bool.false_ne_true, nextByte_within h]
    exact ⟨_, rfl, .refl _⟩
  | true =>
    rw [decodeLiteral, if_pos rfl, nextByte_within (r := { r with KEY := Machine.literalKey r.CNT }) h]
    exact ⟨_, rfl, .refl _⟩

theorem decodeLiteral_ended {m : Input} {r : Reader} (d : Bool) (h : m.len ≤ r.ICUR) :
    ∃ p, decodeLiteral d m r = .stop .endOfInput p := by
  cases d with
  | false =>
    rw [decodeLiteral, if_neg Bool.false_ne_true, nextByte_ended h]
    exact ⟨_, rfl⟩
  | true =>
    rw [decodeLiteral, if_pos rfl, nextByte_ended (r := { r with KEY := Machine.literalKey r.CNT }) h]
    exact ⟨_, rfl⟩

namespace Machine

/-! ## A step by what the decoder answers -/

theorem endsInError_abort (k : ErrKind) {s u : State} (h : KeepsHostSide s u) : EndsInError k s (.next (abort k u)) :=
  ⟨_, rfl, rfl, rfl, h⟩

section

variable {s : State} {p : Reader} (hrun : s.ST = .run) (hstart : s.START = false)

include hrun hstart

theorem step_of_decode_got {i : Instr} (h : decodeWith s.trees s.DECRYPT (inputOf s) s.toReader = .got i p) :
    step s = exec i (putReader p s) := by
  rw [step_of_run hrun hstart, fetch_of_decode h]
  rfl

theorem step_of_decode_stop {e : Reject} (h : decodeWith s.trees s.DECRYPT (inputOf s) s.toReader = .stop e p) :
    EndsInError (rejectKind e) s (step s) := by
  rw [step_of_run hrun hstart, fetch_of_stop h]
  exact endsInError_abort _ (keepsHostSide_putReader p s)

end

/-! ## Executing a literal -/

/-- The byte a literal writes (R92, R93): the byte read, XOR the key with DECRYPT. -/
def literalByte (d : Bool) (e : Byte) (c : Fin 16) : Byte := if d then e ^^^ literalKey c else e

theorem keepsOutOutside_write {s t : State} {v : Byte} (h : t.OUT = Memory.write s.OUT s.OPOS v) :
    KeepsOutOutside s.OPOS (s.OPOS + 1) s t := by
  intro a ha
  rw [h, Memory.read_write_other _ _ _ _ (by omega)]

theorem exec_literalRow_room (d : Bool) (e : Byte) {u : State} (h : u.OPOS < u.OUTCAP) :
    ∃ t, exec (literalRow d e) u = .next t ∧ t.OUT = Memory.write u.OUT u.OPOS (literalByte d e u.CNT) ∧
      t.OPOS = u.OPOS + 1 ∧ KeepsPosition u t ∧ KeepsHostSide u t ∧ KeepsResult u t := by
  cases d with
  | false => exact ⟨_, exec_lit_ok e h, rfl, rfl, ⟨rfl, rfl, rfl, rfl⟩, .refl u, ⟨rfl, rfl, rfl⟩⟩
  | true => exact ⟨_, exec_litx_ok e h, rfl, rfl, ⟨rfl, rfl, rfl, rfl⟩, .refl u, ⟨rfl, rfl, rfl⟩⟩

theorem exec_literalRow_full (d : Bool) (e : Byte) {s u : State} (hs : KeepsHostSide s u) (h : u.OUTCAP ≤ u.OPOS) :
    EndsInError .ovf s (exec (literalRow d e) u) := by
  cases d with
  | false => exact exec_lit_full e h ▸ endsInError_abort .ovf hs
  | true => exact exec_litx_full e h ▸ endsInError_abort .ovf hs

/-! ## The whole step of a literal, in either mode -/

section

variable {s : State} {r : Reader} (hrun : s.ST = .run) (hstart : s.START = false)
  (hbit : nextBit (inputOf s) s.toReader = .got false r)

include hrun hstart hbit

theorem step_literal_ended (hend : s.INLEN ≤ r.ICUR) : EndsInError .eoi s (step s) := by
  obtain ⟨p, hp⟩ := decodeLiteral_ended (m := inputOf s) s.DECRYPT hend
  exact step_of_decode_stop hrun hstart ((decodeWith_literal hbit _ _).trans hp)

/-- With a byte left, the step is the literal's row, executed one byte further on in the stream. -/
theorem step_literal_within (hbyte : r.ICUR < s.INLEN) :
    ∃ p, step s = exec (literalRow s.DECRYPT ((inputOf s).byte r.ICUR)) (putReader p s) ∧
      p.samePosition { r with ICUR := r.ICUR + 1 } := by
  obtain ⟨p, hp, hpos⟩ := decodeLiteral_within (m := inputOf s) s.DECRYPT hbyte
  exact ⟨p, step_of_decode_got hrun hstart ((decodeWith_literal hbit _ _).trans hp), hpos⟩

theorem step_literal_full (hbyte : r.ICUR < s.INLEN) (hfull : s.OUTCAP ≤ s.OPOS) : EndsInError .ovf s (step s) := by
  obtain ⟨p, hstep, -⟩ := step_literal_within hrun hstart hbit hbyte
  exact hstep ▸ exec_literalRow_full _ _ (keepsHostSide_putReader p s) hfull

theorem step_literal_room (hbyte : r.ICUR < s.INLEN) (hroom : s.OPOS < s.OUTCAP) :
    ∃ t, step s = .next t ∧ t.ST = .run ∧
      Memory.read t.OUT s.OPOS = some (literalByte s.DECRYPT ((inputOf s).byte r.ICUR) r.CNT) ∧
      KeepsOutOutside s.OPOS (s.OPOS + 1) s t ∧
      t.OPOS = s.OPOS + 1 ∧ t.ICUR = r.ICUR + 1 ∧ t.CNT = r.CNT ∧ t.WIN = r.WIN ∧
      KeepsHostSide s t ∧ t.ERR = s.ERR ∧ t.BYTECOUNT = s.BYTECOUNT := by
  obtain ⟨p, hstep, hpWin, hpCnt, hpCur⟩ := step_literal_within hrun hstart hbit hbyte
  obtain ⟨t, ht, hOut, hPos, ⟨hWin, hCnt, hCur, -⟩, hHost, hST, hERR, hBytes⟩ :=
    exec_literalRow_room s.DECRYPT ((inputOf s).byte r.ICUR) (u := putReader p s) hroom
  have hOut' : t.OUT = Memory.write s.OUT s.OPOS (literalByte s.DECRYPT ((inputOf s).byte r.ICUR) r.CNT) :=
    hpCnt ▸ hOut
  exact ⟨t, hstep.trans ht, hST.trans hrun, by rw [hOut', Memory.read_write_same], keepsOutOutside_write hOut',
    hPos, hCur.trans hpCur, hCnt.trans hpCnt, hWin.trans hpWin, (keepsHostSide_putReader p s).trans hHost, hERR, hBytes⟩

end

/-! ## The obligations -/

/-- Settles O31: the step of a literal in either mode, where without DECRYPT the byte written is the byte read. -/
theorem litStepReadsThenWrites : Obligations.LitStepReadsThenWrites := by
  intro s r hrun hstart hplain hbit
  have hroom := step_literal_room hrun hstart hbit
  rw [hplain] at hroom
  exact ⟨step_literal_ended hrun hstart hbit, step_literal_full hrun hstart hbit, hroom⟩

/-- Settles O32: the step of a literal in either mode, where with DECRYPT the byte written is the byte read XOR the key, which
`literalKey_eq` writes out. -/
theorem litxStepReadsThenWrites : Obligations.LitxStepReadsThenWrites := by
  intro s r hrun hstart hdecrypt hbit
  have hroom := step_literal_room hrun hstart hbit
  rw [hdecrypt, literalByte, if_pos rfl, literalKey_eq] at hroom
  exact ⟨step_literal_ended hrun hstart hbit, step_literal_full hrun hstart hbit, hroom⟩

end Machine

end Sys2Proof
end

section
/-! PROOFS. The statements about duplication and copy (43_duplication_and_copy.md): the offset check (R106), Emit and a copy that
does not fit (R108), the whole step of a SKIP (R110), and END (R111). -/

namespace Sys2Proof

/-! ## Reading a SKIP -/

/-- The only way the decoder reads a SKIP (R100, R103): control bit 1, the sentinel, the escape byte 0xFE. -/
theorem decodeWith_got_skip {T : Trees} {d : Bool} {m : Input} {r p : Reader} (h : decodeWith T d m r = .got .skip p) :
    ∃ r1 r2 r3, nextBit m r = .got true r1 ∧ decodeSym T.L m r1 = .got Machine.sentinel r2 ∧
      nextByte m { r2 with SYM := Machine.sentinel } = .got Machine.escSkip r3 ∧ p = { r3 with ESC := Machine.escSkip } := by
  obtain ⟨c, r1, hbit, ⟨rfl, hdup⟩ | ⟨-, hlit⟩⟩ := decodeWith_got h
  · obtain ⟨sym, r2, hsym, ⟨rfl, hesc⟩ | ⟨-, hshort⟩ | ⟨-, -, hplain⟩⟩ := decodeDup_got hdup
    · obtain ⟨b, r3, hbyte, ⟨rfl, -, rfl⟩ | ⟨-, hi, -⟩ | ⟨-, -, o, -, hi⟩⟩ := decodeEscape_got hesc
      · exact ⟨r1, r2, r3, hbit, hsym, hbyte, rfl⟩
      · cases hi
      · cases hi
    · obtain ⟨lsb, r3, -, hi, -⟩ := decodeShort_got hshort
      cases hi
    · obtain ⟨o, -, hrow⟩ := decodePlain_got hplain
      obtain ⟨-, -, -, -, hform⟩ := dupRow_some hrow
      cases hform
  · obtain ⟨e, q, -, hi, -⟩ := decodeLiteral_got hlit
    cases d <;> cases hi

/-- In the default length tree the sentinel has one path, its code (R55, R80; log 1). -/
theorem sentinel_path {bs : List Bool} (h : (bs, Machine.sentinel) ∈ Machine.treePaths Machine.defaultTrees.L) :
    bs = Machine.codeOf Machine.lengthCodes 25 := by
  have hall : ∀ x ∈ Machine.treePaths Machine.defaultTrees.L, x.2 = Machine.sentinel →
      x.1 = Machine.codeOf Machine.lengthCodes 25 := by decide
  exact hall _ h rfl

/-- With the default trees a decoded sentinel was delivered as its code. -/
theorem feed_of_decodeSym_sentinel {m : Input} {r p : Reader}
    (h : decodeSym Machine.defaultTrees.L m r = .got Machine.sentinel p) :
    ∃ q, feed m (bitItems (Machine.codeOf Machine.lengthCodes 25)) r = some q ∧ p.samePosition q := by
  obtain ⟨bs, q, hmem, hfeed, hpos⟩ := Machine.walkTree_got h
  obtain ⟨q', hfeed', hpos'⟩ := feed_congr m _ (r := { r with NODE := 0 }) (q := r) ⟨rfl, rfl, rfl⟩ hfeed
  exact ⟨q', sentinel_path hmem ▸ hfeed', hpos.trans hpos'⟩

/-- Items followed by a byte, when the byte is read at the position the items lead to. -/
theorem feed_append_byte {m : Input} {is : List Item} {r q p p' : Reader} {v : Byte} (hfeed : feed m is r = some q)
    (hpos : p.samePosition q) (hbyte : nextByte m p = .got v p') :
    ∃ q', feed m (is ++ [.byte v]) r = some q' ∧ p'.samePosition q' := by
  obtain ⟨q', hq', hpos'⟩ := (hbyte ▸ nextByte_congr m hpos).got_left
  refine ⟨q', ?_, hpos'⟩
  rw [feed_append, hfeed, Option.bind_some, feed_byte_of hq']
  rfl

/-- With the default trees the items of a decoded SKIP are those of its encoding, and it ends right after them. -/
theorem feed_encode_of_decode_skip {d : Bool} {m : Input} {r p : Reader} (h : decode d m r = .got .skip p) :
    ∃ q, feed m (encode .skip) r = some q ∧ p.samePosition q := by
  obtain ⟨r1, r2, r3, hbit, hsym, hbyte, rfl⟩ := decodeWith_got_skip h
  obtain ⟨q, hcode, hpos⟩ := feed_of_decodeSym_sentinel hsym
  have hsentinel : feed m itemsSentinel r = some q := (feed_bit_of hbit _).trans hcode
  obtain ⟨q', hfeed, hpos'⟩ := feed_append_byte hsentinel (p := { r2 with SYM := Machine.sentinel }) hpos hbyte
  exact ⟨q', hfeed, hpos'⟩

namespace Machine

/-! ## The offset check -/

theorem checkAndCopy_of_tooFar {s : State} (h : s.OPOS < s.OFF.toNat) : checkAndCopy s = .raise .corrupt s :=
  if_pos (decide_eq_true h)

theorem checkAndCopy_of_within {s : State} (h : s.OFF.toNat ≤ s.OPOS) :
    checkAndCopy s = copy s.CC.toNat s.OFF.toNat s :=
  if_neg fun hfar => Nat.not_lt.2 h (of_decide_eq_true hfar)

section

variable {i : Instr} {n : Nat} {msb : Sym} {lsb : Byte} {s : State} (hi : dupForm i = some (n, msb, lsb))

include hi

theorem exec_dup_tooFar (hd : s.OPOS < distance msb lsb) : EndsInError .corrupt s (exec i s) := by
  obtain ⟨y, c, u, hexec, hc, hn, hu, -, -⟩ := exec_dup hi s
  obtain ⟨hfar, -, -⟩ := duplicate_spec y c msb lsb u (by omega)
  have hpos : u.OPOS = s.OPOS := by rw [hu]
  have hhost : KeepsHostSide s (latchDup y c msb lsb u) := by rw [hu]; exact .refl s
  exact (hexec.trans (hfar (hpos ▸ hd))) ▸ endsInError_abort .corrupt hhost

/-- A duplication whose distance passes the check leaves ERR alone or ends in OVF (R107, R108). -/
theorem exec_dup_within_err {t : State} (hd : distance msb lsb ≤ s.OPOS) (h : exec i s = .next t) :
    t.ERR = s.ERR ∨ t.ERR = some .ovf := by
  obtain ⟨y, c, u, hexec, hc, hn, hu, -, -⟩ := exec_dup hi s
  obtain ⟨-, hcopy, hovf⟩ := duplicate_spec y c msb lsb u (by omega)
  have hpos : u.OPOS = s.OPOS := by rw [hu]
  have herr : u.ERR = s.ERR := by rw [hu]
  rcases Nat.lt_or_ge u.OUTCAP (u.OPOS + c.toNat) with hfull | hroom
  · obtain ⟨v, hv, -, -⟩ := hovf (hpos ▸ hd) hfull
    cases (hexec.trans hv).symm.trans h
    exact .inr rfl
  · obtain ⟨v, hv, -, -, hframe⟩ := hcopy (hpos ▸ hd) hroom
    cases (hexec.trans hv).symm.trans h
    rw [hframe.rest]
    exact .inl herr

end

/-! ## A copy that does not fit -/

theorem copyLoop_add {k : Nat} {s t : State} (n : Nat) (h : copyLoop k s = .ok t) :
    copyLoop (k + n) s = copyLoop n t := by
  induction k generalizing s with
  | zero =>
    cases h
    rw [Nat.zero_add]
  | succ k ih =>
    rw [Nat.succ_add, copyLoop]
    rw [copyLoop] at h
    cases hbyte : copyByte s with
    | ok u => exact ih (by rwa [hbyte] at h)
    | raise e u =>
      rw [hbyte] at h
      cases h

/-- A copy that does not fit fills the buffer, as the copy of just the bytes that fit does, then raises OVF (R108). -/
theorem copyLoop_overfull {n : Nat} {s : State} (hpos : s.OPOS ≤ s.OUTCAP) (hfull : s.OUTCAP < s.OPOS + n) :
    ∃ t, copyLoop n s = .raise .ovf t ∧ t.OPOS = s.OUTCAP ∧ KeepsOutOutside s.OPOS s.OUTCAP s t ∧
      ∀ a, s.OPOS ≤ a → a < s.OUTCAP → (Memory.read t.OUT a).isSome = true := by
  obtain ⟨k, hk⟩ := Nat.exists_eq_add_of_le hpos
  obtain ⟨j, rfl⟩ : ∃ j, n = k + (j + 1) := ⟨n - k - 1, by omega⟩
  obtain ⟨u, hloop, hend, hframe⟩ := (copyLoop_spec k s).1 hk.ge
  have hcap : u.OUTCAP = s.OUTCAP := by rw [hframe.rest]
  have hu : u.OPOS = s.OUTCAP := hend.trans hk.symm
  refine ⟨{ u with draws := (readOut u.SRC u).2.draws }, ?_, hu, ?_, fun a hlo hhi => hframe.written a hlo (hu ▸ hhi)⟩
  · rw [copyLoop_add _ hloop, copyLoop, copyByte_full (hcap.trans hu.symm).le]
  · rintro a (hlo | hhi)
    · exact hframe.below a hlo
    · exact hframe.above a (hu ▸ hhi)

/-! ## Ending a call well -/

theorem hostView_of_done {s : State} (h : s.ST = .done) :
    hostView s = .success ((List.range s.BYTECOUNT).map (Memory.read s.OUT)) s.BYTECOUNT := by
  rw [hostView, h]

/-! ## The obligations -/

/-- Settles O37: by the two sides of the check; a distance that passes it leaves ERR at NONE or gives OVF. -/
theorem offsetBeyondOutputIsCorrupt : Obligations.OffsetBeyondOutputIsCorrupt := by
  refine ⟨fun s => ⟨checkAndCopy_of_tooFar, checkAndCopy_of_within⟩, fun i n msb lsb s hi => ⟨exec_dup_tooFar hi, ?_⟩⟩
  intro hd hnone t ht
  rcases exec_dup_within_err hi hd ht with h | h
  · simp [h, hnone]
  · simp [h]

/-- Settles O26: by the two cases of Emit, and for the copy by running the bytes that fit before the one that does not. -/
theorem emitWritesExactlyWhenACellIsLeft : Obligations.EmitWritesExactlyWhenACellIsLeft := by
  refine fun v s => ⟨fun hroom => ?_, emit_full v, fun n => copyLoop_overfull⟩
  exact ⟨_, emit_ok v hroom, rfl, Memory.read_write_same _ _ _, keepsOutOutside_write rfl⟩

/-- Settles O41: the items are those of the only way the decoder reads a SKIP, and executing it touches SYM and ESC alone. -/
theorem skipStepOnlyConsumes : Obligations.SkipStepOnlyConsumes := by
  intro s q hrun hstart hfetch
  have hstep : step s = .next (latchEscape escSkip q) := by
    rw [step_of_run hrun hstart, hfetch]
    rfl
  obtain ⟨r, hdec, rfl⟩ := fetch_got hfetch
  refine ⟨fun htrees => ?_, _, hstep, hrun, rfl, rfl, .refl r, .refl s, rfl⟩
  rw [htrees] at hdec
  exact feed_encode_of_decode_skip hdec

/-- Settles O42: END writes SYM, ESC, BYTECOUNT and ST, and the host's view of a done call follows from BYTECOUNT and OUT. -/
theorem endReportsTheByteCount : Obligations.EndReportsTheByteCount := by
  intro s
  exact ⟨{ latchEscape escEnd s with BYTECOUNT := s.OPOS, ST := .done }, rfl, rfl, rfl, rfl, hostView_of_done rfl, rfl, rfl,
    rfl, rfl, .refl s, ⟨rfl, rfl, rfl, rfl⟩, ⟨rfl, rfl, rfl, rfl, rfl, rfl, rfl⟩, rfl, rfl⟩

end Machine

end Sys2Proof
end

section
/-! PROOFS. The statement about power-on (70_reset_and_hazards.md): the status and the error before any START (R140). -/

namespace Sys2Proof

namespace Machine

/-! ## The call status at power-on, with any trees -/

@[simp] theorem powerOn_ST (T : Trees) : (State.powerOn T).ST = .idle := rfl

@[simp] theorem powerOn_ERR (T : Trees) : (State.powerOn T).ERR = none := rfl

/-! ## The obligation -/

/-- Settles O1: the reset state is power-on with the default trees, and power-on with any trees is idle and without an error. -/
theorem powerOnIsIdleWithoutError : Obligations.PowerOnIsIdleWithoutError :=
  ⟨powerOn_ST defaultTrees, powerOn_ERR defaultTrees⟩

end Machine

end Sys2Proof
end

section
/-! PROOFS. The statements about the decoder of the code trees (41_prefix_decoder.md): the walk over a tree's ROM image (R82,
R84), one path to each answer (R82), what the trees a block may use decode to (R86, R88), and the default trees (R80, R81;
log 1). -/

namespace Sys2Proof

namespace Machine

/-! ## The walk over a ROM image -/

/-- The ROM holds the tree's image from index `n` on (R84). -/
def RomHolds (R : List RomWord) (n : Nat) (t : PrefixTree) : Prop := treeRom t <+: R.drop n

theorem romHolds_treeRom (t : PrefixTree) : RomHolds (treeRom t) 0 t := List.prefix_refl _

theorem RomHolds.leaf {R : List RomWord} {n : Nat} {v : Sym} (h : RomHolds R n (.leaf v)) : R[n]? = some (leafWord v) := by
  obtain ⟨rest, hrest⟩ := h
  have hhead : (R.drop n)[0]? = some (leafWord v) := by rw [← hrest]; rfl
  simpa using hhead

/-- The image of an internal node is its word, then the images of its two subtrees. -/
theorem RomHolds.internal {R : List RomWord} {n : Nat} {z o : PrefixTree} (h : RomHolds R n (.internal z o)) :
    R[n]? = some (internalWord (childDisplacement z 1) (childDisplacement o (1 + treeSize z))) ∧
    RomHolds R (n + 1) z ∧ RomHolds R (n + 1 + treeSize z) o := by
  obtain ⟨rest, hrest⟩ := h
  have htail : treeRom z ++ (treeRom o ++ rest) = R.drop (n + 1) := by
    rw [← List.drop_drop, ← hrest]
    simp [treeRom]
  refine ⟨?_, ⟨_, htail⟩, ⟨rest, ?_⟩⟩
  · have hhead : (R.drop n)[0]? = some (internalWord (childDisplacement z 1) (childDisplacement o (1 + treeSize z))) := by
      rw [← hrest]
      rfl
    simpa using hhead
  · rw [← List.drop_drop, ← htail, ← treeRom_length z, List.drop_left]

@[simp] theorem childDisplacement_absent (d : Nat) : childDisplacement .absent d = 0 := rfl

theorem childDisplacement_present {c : PrefixTree} (h : c ≠ .absent) (d : Nat) : childDisplacement c d = d := by
  cases c with
  | absent => exact absurd rfl h
  | leaf v => rfl
  | internal z o => rfl

theorem childDisplacement_le (c : PrefixTree) (d : Nat) : childDisplacement c d ≤ d := by
  cases c with
  | absent => exact Nat.zero_le d
  | leaf v => exact Nat.le_refl d
  | internal z o => exact Nat.le_refl d

theorem romChild_internalWord {d0 d1 : Nat} (h0 : d0 < 64) (h1 : d1 < 64) (n : Nat) (b : Bool) :
    romChild (internalWord d0 d1) n b = if (if b then d1 else d0) = 0 then none else some (n + if b then d1 else d0) := by
  rw [romChild, romDisplacement_internalWord h0 h1]

/-- One node of a ROM walk: at a leaf word it answers the value. -/
theorem walkRom_leaf {R : List RomWord} {m : Input} {r : Reader} {w : RomWord} (k : Nat) (hw : R[r.NODE]? = some w)
    (hl : romIsLeaf w = true) : walkRom R m (k + 1) r = .got (romValue w) r := by
  simp [walkRom, hw, hl]

/-- One node of a ROM walk: at an internal word it reads a bit and goes on to the child, if there is one. -/
theorem walkRom_internal {R : List RomWord} {m : Input} {r : Reader} {w : RomWord} {k : Nat}
    {x : Bool → Reader → ReadResult Sym} (hw : R[r.NODE]? = some w) (hl : romIsLeaf w = false)
    (hnone : ∀ b r1, romChild w r.NODE b = none → x b r1 = .stop .absentNode r1)
    (hsome : ∀ b r1 n, romChild w r.NODE b = some n → x b r1 = walkRom R m k { r1 with NODE := n }) :
    walkRom R m (k + 1) r = (nextBit m r).andThen x := by
  simp only [walkRom, hw, hl, Bool.false_eq_true, if_false]
  congr 1
  funext b r1
  cases hc : romChild w r.NODE b with
  | none => exact (hnone b r1 hc).symm
  | some n => exact (hsome b r1 n hc).symm

/-- From a node whose image the ROM holds, the ROM walk is the tree walk, when it may visit as many nodes as the tree has. -/
theorem walkRom_eq_walkTree {R : List RomWord} {m : Input} (t : PrefixTree) (n k : Nat) (r : Reader) (hpresent : t ≠ .absent)
    (hrom : RomHolds R n t) (hfits : treeFits t = true) (hk : treeSize t ≤ k) :
    walkRom R m k { r with NODE := n } = walkTree m t n r := by
  induction t generalizing n k r with
  | absent => exact absurd rfl hpresent
  | leaf v =>
    obtain ⟨j, rfl⟩ : ∃ j, k = j + 1 := ⟨k - 1, by simp only [treeSize] at hk; omega⟩
    rw [walkRom_leaf j (r := { r with NODE := n }) hrom.leaf (romIsLeaf_leafWord v), romValue_leafWord]
    rfl
  | internal z o ihz iho =>
    simp only [treeSize] at hk
    simp only [treeFits, Bool.and_eq_true, decide_eq_true_eq] at hfits
    obtain ⟨⟨hsize, hfitsz⟩, hfitso⟩ := hfits
    obtain ⟨j, rfl⟩ : ∃ j, k = j + 1 := ⟨k - 1, by omega⟩
    obtain ⟨hword, hromz, hromo⟩ := hrom.internal
    have hd0 : childDisplacement z 1 < 64 := (childDisplacement_le z 1).trans_lt (by omega)
    have hd1 : childDisplacement o (1 + treeSize z) < 64 := (childDisplacement_le o _).trans_lt hsize
    have hz (q : Reader) (hp : z ≠ .absent) := ihz (n + 1) j q hp hromz hfitsz (by omega)
    have ho (q : Reader) (hp : o ≠ .absent) := iho (n + 1 + treeSize z) j q hp hromo hfitso (by omega)
    refine walkRom_internal (r := { r with NODE := n }) hword (romIsLeaf_internalWord hd0 hd1) (fun b r1 hc => ?_)
      (fun b r1 n' hc => ?_)
    all_goals rw [romChild_internalWord hd0 hd1] at hc
    · cases b with
      | false =>
        by_cases hp : z = .absent
        · subst hp
          rfl
        · simp [childDisplacement_present hp] at hc
      | true =>
        by_cases hp : o = .absent
        · subst hp
          rfl
        · simp [childDisplacement_present hp] at hc
    · cases b with
      | false =>
        by_cases hp : z = .absent
        · simp [hp] at hc
        · simp only [childDisplacement_present hp, Bool.false_eq_true, if_false, one_ne_zero, Option.some.injEq] at hc
          exact hc ▸ (hz r1 hp).symm
      | true =>
        by_cases hp : o = .absent
        · simp [hp] at hc
        · simp only [childDisplacement_present hp, if_true, Nat.add_eq_zero_iff, one_ne_zero, false_and, if_false,
            Option.some.injEq, ← Nat.add_assoc] at hc
          exact hc ▸ (ho r1 hp).symm

theorem decodeRom_treeRom {T : PrefixTree} (m : Input) (r : Reader) (hfits : treeFits T = true) :
    decodeRom (treeRom T) m r = decodeSym T m r := by
  by_cases hp : T = .absent
  · subst hp
    rfl
  · exact walkRom_eq_walkTree T 0 _ { r with NODE := 0 } hp (romHolds_treeRom T) hfits
      (treeRom_length T ▸ Nat.le_succ _)

/-! ## One path to each answer -/

/-- A walk that is delivered the path to an absent reference is rejected there. -/
theorem walkTree_of_gap {m : Input} {t : PrefixTree} {r q : Reader} {bs : List Bool} (n : Nat) (hm : bs ∈ treeGaps t)
    (hf : feed m (bitItems bs) r = some q) : ∃ p, walkTree m t n r = .stop .absentNode p ∧ p.samePosition q := by
  induction t generalizing n r bs q with
  | absent =>
    cases List.mem_singleton.1 hm
    cases hf
    exact ⟨r, rfl, .refl r⟩
  | leaf w => cases hm
  | internal z o ihz iho =>
    simp only [treeGaps, List.mem_append, List.mem_map] at hm
    obtain ⟨x, hx, rfl⟩ | ⟨x, hx, rfl⟩ := hm
    all_goals
      obtain ⟨r1, h1, h2⟩ := feed_bit hf
      obtain ⟨r2, h3, h4⟩ := (h1 ▸ nextBit_congr m (q := { r with NODE := n }) (r := r) ⟨rfl, rfl, rfl⟩).got_left
      obtain ⟨q', hf', hq⟩ := feed_congr m _ h4 h2
      simp only [walkTree, h3, ReadResult.andThen_got, Bool.false_eq_true, if_false, if_true]
    · obtain ⟨p, hp, hs⟩ := ihz (n + 1) hx hf'
      exact ⟨p, hp, hs.trans hq.symm⟩
    · obtain ⟨p, hp, hs⟩ := iho (n + 1 + treeSize z) hx hf'
      exact ⟨p, hp, hs.trans hq.symm⟩

/-- A walk rejected at an absent reference was delivered a path to one. -/
theorem walkTree_absentNode {m : Input} {t : PrefixTree} {n : Nat} {r p : Reader} (h : walkTree m t n r = .stop .absentNode p) :
    ∃ bs q, bs ∈ treeGaps t ∧ feed m (bitItems bs) r = some q ∧ p.samePosition q := by
  induction t generalizing n r with
  | absent =>
    cases h
    exact ⟨[], p, List.mem_singleton.2 rfl, rfl, .refl p⟩
  | leaf w => cases h
  | internal z o ihz iho =>
    obtain h1 | ⟨b, r1, h1, h2⟩ := ReadResult.andThen_eq_stop h
    · cases (nextBit_stop h1).1
    · obtain ⟨r2, h3, h4⟩ := (h1 ▸ nextBit_congr m (r := { r with NODE := n }) (q := r) ⟨rfl, rfl, rfl⟩).got_left
      cases b
      · obtain ⟨bs, q, hm, hf, hp⟩ := ihz h2
        obtain ⟨q', hf', hq⟩ := feed_congr m _ h4 hf
        exact ⟨false :: bs, q', List.mem_append_left _ (List.mem_map.2 ⟨_, hm, rfl⟩), (feed_bit_of h3 _).trans hf', hp.trans hq⟩
      · obtain ⟨bs, q, hm, hf, hp⟩ := iho h2
        obtain ⟨q', hf', hq⟩ := feed_congr m _ h4 hf
        exact ⟨true :: bs, q', List.mem_append_right _ (List.mem_map.2 ⟨_, hm, rfl⟩), (feed_bit_of h3 _).trans hf', hp.trans hq⟩

/-- Where the walk register points when a decoding starts makes no difference to what is delivered. -/
theorem feed_from_root {m : Input} {is : List Item} {r q : Reader} :
    (feed m is r = some q → ∃ q', feed m is { r with NODE := 0 } = some q' ∧ q.samePosition q') ∧
    (feed m is { r with NODE := 0 } = some q → ∃ q', feed m is r = some q' ∧ q.samePosition q') :=
  ⟨feed_congr m is (r := r) (q := { r with NODE := 0 }) ⟨rfl, rfl, rfl⟩,
    feed_congr m is (r := { r with NODE := 0 }) (q := r) ⟨rfl, rfl, rfl⟩⟩

section

variable {T : PrefixTree} {m : Input} {r : Reader}

theorem decodeSym_of_path {bs : List Bool} {v : Sym} {q : Reader} (hm : (bs, v) ∈ treePaths T)
    (hf : feed m (bitItems bs) r = some q) : ∃ p, decodeSym T m r = .got v p ∧ p.samePosition q := by
  obtain ⟨q', hf', hq⟩ := feed_from_root.1 hf
  obtain ⟨p, hp, hpos⟩ := walkTree_of_path 0 hm hf'
  exact ⟨p, hp, hpos.trans hq.symm⟩

theorem decodeSym_of_gap {bs : List Bool} {q : Reader} (hm : bs ∈ treeGaps T) (hf : feed m (bitItems bs) r = some q) :
    ∃ p, decodeSym T m r = .stop .absentNode p ∧ p.samePosition q := by
  obtain ⟨q', hf', hq⟩ := feed_from_root.1 hf
  obtain ⟨p, hp, hpos⟩ := walkTree_of_gap 0 hm hf'
  exact ⟨p, hp, hpos.trans hq.symm⟩

theorem decodeSym_got {v : Sym} {p : Reader} (h : decodeSym T m r = .got v p) :
    ∃ bs q, (bs, v) ∈ treePaths T ∧ feed m (bitItems bs) r = some q ∧ p.samePosition q := by
  obtain ⟨bs, q, hm, hf, hpos⟩ := walkTree_got h
  obtain ⟨q', hf', hq⟩ := feed_from_root.2 hf
  exact ⟨bs, q', hm, hf', hpos.trans hq⟩

theorem decodeSym_absentNode {p : Reader} (h : decodeSym T m r = .stop .absentNode p) :
    ∃ bs q, bs ∈ treeGaps T ∧ feed m (bitItems bs) r = some q ∧ p.samePosition q := by
  obtain ⟨bs, q, hm, hf, hpos⟩ := walkTree_absentNode h
  obtain ⟨q', hf', hq⟩ := feed_from_root.2 hf
  exact ⟨bs, q', hm, hf', hpos.trans hq⟩

end

/-! ## The trees a block may use -/

theorem treePaths_length_le {t : PrefixTree} {x : List Bool × Sym} (h : x ∈ treePaths t) : x.1.length ≤ treeDepth t := by
  induction t generalizing x with
  | absent => cases h
  | leaf v =>
    cases List.mem_singleton.1 h
    exact Nat.le_refl 0
  | internal z o ihz iho =>
    simp only [treePaths, List.mem_append, List.mem_map] at h
    obtain ⟨y, hy, rfl⟩ | ⟨y, hy, rfl⟩ := h
    · have := ihz hy
      simp only [treeDepth, List.length_cons]
      omega
    · have := iho hy
      simp only [treeDepth, List.length_cons]
      omega

/-- No code of a tree with an internal root is empty (R86 c). -/
theorem treePaths_length_pos {t : PrefixTree} {x : List Bool × Sym} (hroot : rootInternal t = true) (h : x ∈ treePaths t) :
    1 ≤ x.1.length := by
  cases t with
  | absent => cases hroot
  | leaf v => cases hroot
  | internal z o =>
    simp only [treePaths, List.mem_append, List.mem_map] at h
    obtain ⟨y, -, rfl⟩ | ⟨y, -, rfl⟩ := h <;> simp

/-- One leaf alone of a usable length tree holds the sentinel (R86 d), so one path alone leads to it. -/
theorem lengthTreeUsable_sentinel_path {t : PrefixTree} (h : lengthTreeUsable t = true) :
    ∃ bs, ∀ bs', (bs', sentinel) ∈ treePaths t ↔ bs' = bs := by
  simp only [lengthTreeUsable, Bool.and_eq_true, decide_eq_true_eq] at h
  obtain ⟨-, hone⟩ := h
  obtain ⟨⟨bs, v⟩, hx⟩ := List.length_eq_one_iff.1 hone
  have hmem (y : List Bool × Sym) : y ∈ treePaths t ∧ y.2 = sentinel ↔ y = (bs, v) := by
    rw [← List.mem_singleton (b := (bs, v)), ← hx, List.mem_filter, decide_eq_true_eq]
  have hv : v = sentinel := ((hmem (bs, v)).2 rfl).2
  subst hv
  exact ⟨bs, fun bs' => by simpa using hmem (bs', sentinel)⟩

theorem lengthTreeUsable_root {t : PrefixTree} (h : lengthTreeUsable t = true) : rootInternal t = true := by
  simp only [lengthTreeUsable, Bool.and_eq_true] at h
  exact h.1.1

theorem lengthTreeUsable_value {t : PrefixTree} {x : List Bool × Sym} (h : lengthTreeUsable t = true) (hx : x ∈ treePaths t) :
    2 ≤ x.2.toNat ∧ x.2.toNat ≤ 25 := by
  simp only [lengthTreeUsable, Bool.and_eq_true] at h
  simpa [lengthValueOk] using List.all_eq_true.1 h.1.2 x hx

theorem offsetTreeUsable_root {t : PrefixTree} (h : offsetTreeUsable t = true) : rootInternal t = true := by
  simp only [offsetTreeUsable, Bool.and_eq_true] at h
  exact h.1

theorem treesUsable_iff (T : Trees) : treesUsable T = true ↔ lengthTreeUsable T.L = true ∧ offsetTreeUsable T.O = true := by
  rw [treesUsable, Bool.and_eq_true]

/-- A value decoded with a tree whose root is internal is a leaf's, read through at least one bit and at most the tree's
depth. -/
theorem decodeSym_got_bounded {T : PrefixTree} {m : Input} {r p : Reader} {v : Sym} (hroot : rootInternal T = true)
    (h : decodeSym T m r = .got v p) :
    ∃ bs q, (bs, v) ∈ treePaths T ∧ 1 ≤ bs.length ∧ bs.length ≤ treeDepth T ∧
      feed m (bitItems bs) r = some q ∧ p.samePosition q := by
  obtain ⟨bs, q, hm, hf, hpos⟩ := decodeSym_got h
  exact ⟨bs, q, hm, treePaths_length_pos hroot hm, treePaths_length_le hm, hf, hpos⟩

end Machine

/-! ## Reads that are rejected only at the end of the input (R88) -/

/-- The only rejection this read can answer is the end of the input. -/
def ReadResult.StopsOnlyAtEnd {α : Type} (x : ReadResult α) : Prop := ∀ e q, x = .stop e q → e = .endOfInput

theorem ReadResult.stopsOnlyAtEnd_got {α : Type} (a : α) (r : Reader) : (ReadResult.got a r).StopsOnlyAtEnd :=
  fun _ _ h => nomatch h

theorem ReadResult.StopsOnlyAtEnd.andThen {α β : Type} {x : ReadResult α} {f : α → Reader → ReadResult β}
    (hx : x.StopsOnlyAtEnd) (hf : ∀ a r, x = .got a r → (f a r).StopsOnlyAtEnd) : (x.andThen f).StopsOnlyAtEnd := by
  intro e q h
  obtain h | ⟨a, r, ha, h⟩ := ReadResult.andThen_eq_stop h
  · exact hx e q h
  · exact hf a r ha e q h

theorem nextBit_stopsOnlyAtEnd (m : Input) (r : Reader) : (nextBit m r).StopsOnlyAtEnd := fun _ _ h => (nextBit_stop h).1

theorem nextByte_stopsOnlyAtEnd (m : Input) (r : Reader) : (nextByte m r).StopsOnlyAtEnd := fun _ _ h => (nextByte_stop h).1

theorem decodeSym_stopsOnlyAtEnd {T : PrefixTree} (hc : Machine.treeComplete T = true) (m : Input) (r : Reader) :
    (decodeSym T m r).StopsOnlyAtEnd := fun _ _ h => Machine.walkTree_stop_of_complete hc h

theorem decodeLiteral_stopsOnlyAtEnd (d : Bool) (m : Input) (r : Reader) : (decodeLiteral d m r).StopsOnlyAtEnd := by
  cases d with
  | false => exact (nextByte_stopsOnlyAtEnd m _).andThen fun _ _ _ => ReadResult.stopsOnlyAtEnd_got _ _
  | true => exact (nextByte_stopsOnlyAtEnd m _).andThen fun _ _ _ => ReadResult.stopsOnlyAtEnd_got _ _

theorem decodeShort_stopsOnlyAtEnd (m : Input) (r : Reader) : (decodeShort m r).StopsOnlyAtEnd :=
  (nextByte_stopsOnlyAtEnd m _).andThen fun _ _ _ => ReadResult.stopsOnlyAtEnd_got _ _

/-- Every length symbol from 3 to 24 has a format-D row (R53). -/
theorem dupRow_isSome {sym : Sym} (h2 : 2 ≤ sym.toNat) (h25 : sym.toNat ≤ 25) (hsentinel : sym ≠ Machine.sentinel)
    (hshort : sym ≠ Machine.shortSym) (msb : Sym) (lsb : Byte) : ∃ i, dupRow sym msb lsb = some i := by
  have hrows : ∀ v : Sym, 2 ≤ v.toNat → v.toNat ≤ 25 → v ≠ Machine.sentinel → v ≠ Machine.shortSym →
      dupRow v 0 0 ≠ none := by decide
  exact Option.ne_none_iff_exists'.1 ((dupRow_none_iff sym msb 0 lsb 0).not.2 (hrows sym h2 h25 hsentinel hshort))

section

variable {T : Trees} (hO : Machine.treeComplete T.O = true) (m : Input)

include hO

theorem readOffset_stopsOnlyAtEnd (r : Reader) : (readOffset T m r).StopsOnlyAtEnd :=
  (decodeSym_stopsOnlyAtEnd hO m r).andThen fun _ _ _ =>
    (nextByte_stopsOnlyAtEnd m _).andThen fun _ _ _ => ReadResult.stopsOnlyAtEnd_got _ _

theorem decodeEscape_stopsOnlyAtEnd (r : Reader) : (decodeEscape T m r).StopsOnlyAtEnd := by
  refine (nextByte_stopsOnlyAtEnd m r).andThen fun b r1 _ => ?_
  split
  · exact ReadResult.stopsOnlyAtEnd_got _ _
  · split
    · exact ReadResult.stopsOnlyAtEnd_got _ _
    · exact (readOffset_stopsOnlyAtEnd hO m _).andThen fun _ _ _ => ReadResult.stopsOnlyAtEnd_got _ _

theorem decodePlain_stopsOnlyAtEnd {sym : Sym} (hrow : ∀ msb lsb, ∃ i, dupRow sym msb lsb = some i) (r : Reader) :
    (decodePlain T m sym r).StopsOnlyAtEnd := by
  obtain ⟨i, hi⟩ := hrow 0 0
  simp only [decodePlain, hi]
  refine (readOffset_stopsOnlyAtEnd hO m _).andThen fun o r1 _ => ?_
  obtain ⟨j, hj⟩ := hrow o.1 o.2
  simp only [hj]
  exact ReadResult.stopsOnlyAtEnd_got _ _

/-- With usable trees that have no absent reference, a stream that does not decode has ended (R88). -/
theorem decodeWith_stopsOnlyAtEnd (hL : Machine.treeComplete T.L = true) (hu : Machine.lengthTreeUsable T.L = true) (d : Bool)
    (r : Reader) : (decodeWith T d m r).StopsOnlyAtEnd := by
  refine (nextBit_stopsOnlyAtEnd m r).andThen fun c r1 _ => ?_
  cases c with
  | false => exact decodeLiteral_stopsOnlyAtEnd d m r1
  | true =>
    refine (decodeSym_stopsOnlyAtEnd hL m r1).andThen fun sym r2 hsym => ?_
    obtain ⟨bs, q, hpath, -, -⟩ := Machine.decodeSym_got hsym
    obtain ⟨hlo, hhi⟩ := Machine.lengthTreeUsable_value hu hpath
    split
    · exact decodeEscape_stopsOnlyAtEnd hO m _
    · split
      · exact decodeShort_stopsOnlyAtEnd m _
      · exact decodePlain_stopsOnlyAtEnd hO m (dupRow_isSome hlo hhi ‹_› ‹_›) _

end

namespace Machine

/-! ## The default trees -/

theorem defaultTrees_usable : treesUsable defaultTrees = true := by decide

theorem defaultTrees_L_usable : lengthTreeUsable defaultTrees.L = true := ((treesUsable_iff _).1 defaultTrees_usable).1

theorem defaultTrees_L_complete : treeComplete defaultTrees.L = true := by decide

theorem defaultTrees_O_complete : treeComplete defaultTrees.O = true := by decide

/-- Every row of the length table is a path of the default length tree. -/
theorem lengthCodes_paths : ∀ c ∈ lengthCodes, (rowBits c, BitVec.ofNat 5 c.value) ∈ treePaths defaultTrees.L := by decide

/-- Every row of the offset table is a path of the default offset tree. -/
theorem offsetCodes_paths : ∀ c ∈ offsetCodes, (rowBits c, BitVec.ofNat 5 c.value) ∈ treePaths defaultTrees.O := by decide

/-- Every path of the default length tree is a row of the length table. -/
theorem paths_lengthCodes : ∀ x ∈ treePaths defaultTrees.L,
    ∃ c ∈ lengthCodes, c.value = x.2.toNat ∧ c.len ≤ 9 ∧ rowBits c = x.1 := by decide

/-- Every path of the default offset tree is a row of the offset table. -/
theorem paths_offsetCodes : ∀ x ∈ treePaths defaultTrees.O,
    ∃ c ∈ offsetCodes, c.value = x.2.toNat ∧ c.len ≤ 7 ∧ rowBits c = x.1 := by decide

/-! ## The obligations -/

/-- Settles O13: by induction on the tree, for a ROM that holds its image from the walk's node on. -/
theorem romWalkIsTheTreeWalk : Obligations.RomWalkIsTheTreeWalk := fun _ m r hfits => decodeRom_treeRom m r hfits

/-- Settles O10: a walk delivered a path to a leaf or to an absent reference ends there, and every answer of either kind came of
such a path. -/
theorem decodeFollowsOnePath : Obligations.DecodeFollowsOnePath :=
  fun _ _ _ => ⟨fun _ _ _ => decodeSym_of_path, fun _ _ => decodeSym_of_gap, fun _ _ => decodeSym_got,
    fun _ => decodeSym_absentNode⟩

/-- Settles O11: every decoded value is a leaf's, whose range R86 gives; and with complete trees each read of the decoder is
rejected at the end of the input alone. -/
theorem usableTreesDecodeToTheirLeaves : Obligations.UsableTreesDecodeToTheirLeaves := by
  intro T m r hu
  obtain ⟨hL, hO⟩ := (treesUsable_iff T).1 hu
  refine ⟨fun v p h => ?_, fun v p h => ⟨Nat.le_of_lt_succ v.isLt, ?_⟩, lengthTreeUsable_sentinel_path hL,
    fun d e q hcL hcO => decodeWith_stopsOnlyAtEnd hcO m hcL hL d r e q⟩
  · obtain ⟨bs, q, hpath, hrest⟩ := decodeSym_got_bounded (lengthTreeUsable_root hL) h
    obtain ⟨hlo, hhi⟩ := lengthTreeUsable_value hL hpath
    exact ⟨hlo, hhi, bs, q, hpath, hrest⟩
  · exact decodeSym_got_bounded (offsetTreeUsable_root hO) h

/-- Settles O15: the rows of both tables are paths of the default trees. -/
theorem everyCodeDecodesToItsValue : Obligations.EveryCodeDecodesToItsValue :=
  fun _ _ _ c hf => ⟨fun hc => decodeSym_of_path (lengthCodes_paths c hc) hf,
    fun hc => decodeSym_of_path (offsetCodes_paths c hc) hf⟩

/-- Settles O16: the paths of the default trees are rows of the two tables. -/
theorem decodedValuesAreDeclaredCodes : Obligations.DecodedValuesAreDeclaredCodes := by
  intro m r p v
  constructor
  · intro h
    obtain ⟨bs, q, hpath, hf, hpos⟩ := decodeSym_got h
    obtain ⟨c, hc, hvalue, hlen, hbits⟩ := paths_lengthCodes _ hpath
    exact ⟨c, hc, hvalue, hlen, q, hbits ▸ hf, hpos⟩
  · intro h
    obtain ⟨bs, q, hpath, hf, hpos⟩ := decodeSym_got h
    obtain ⟨c, hc, hvalue, hlen, hbits⟩ := paths_offsetCodes _ hpath
    exact ⟨c, hc, hvalue, hlen, q, hbits ▸ hf, hpos⟩

/-- Settles O17: the default trees are usable and no reference of them is absent. -/
theorem defaultTreesNeverRejectABitString : Obligations.DefaultTreesNeverRejectABitString :=
  fun m r q d e => decodeWith_stopsOnlyAtEnd defaultTrees_O_complete m defaultTrees_L_complete defaultTrees_L_usable d r e q

/-- Settles O12: by evaluating the two tries of the code tables. -/
theorem defaultTreesAreUsable : Obligations.DefaultTreesAreUsable :=
  ⟨defaultTrees_usable, rfl, rfl, rfl, rfl, defaultTrees_L_complete, defaultTrees_O_complete⟩

/-- Settles O14: by evaluating the images of the two tries. -/
theorem romWordsHoldTheCodeTables : Obligations.RomWordsHoldTheCodeTables := by
  unfold Obligations.RomWordsHoldTheCodeTables
  decide

end Machine

end Sys2Proof
end

section
/-! PROOFS. The statements about the encoding (30_encoding.md): decoding what was encoded and encoding what was decoded (R51 to
R57), the length of an instruction (R58), what DECRYPT selects (R62), the offset rows (R63) and the assembler (R66). -/

namespace Sys2Proof

namespace Machine

/-! ## Reads that answer a given value at a given position -/

theorem sameAnswer_got_iff {α : Type} {x : ReadResult α} {a : α} {q : Reader} :
    SameAnswer x (.got a q) ↔ ∃ p, x = .got a p ∧ p.samePosition q := by
  constructor
  · intro h
    obtain ⟨p, hp, hpos⟩ := h.symm.got_left
    exact ⟨p, hp, hpos.symm⟩
  · rintro ⟨p, rfl, hpos⟩
    exact ⟨rfl, hpos⟩

/-- Go on from a read that answers a given value at a given position. -/
theorem SameAnswer.andThen_got {α β : Type} {x : ReadResult α} {a : α} {q : Reader} {f : α → Reader → ReadResult β}
    {y : ReadResult β} (h : SameAnswer x (.got a q)) (hf : ∀ p, p.samePosition q → SameAnswer (f a p) y) :
    SameAnswer (x.andThen f) y := by
  obtain ⟨p, rfl, hpos⟩ := sameAnswer_got_iff.1 h
  exact hf p hpos

end Machine

open Machine

theorem nextBit_sameAnswer {m : Input} {r q p : Reader} {b : Bool} (h : nextBit m r = .got b q) (hp : p.samePosition r) :
    SameAnswer (nextBit m p) (.got b q) := h ▸ nextBit_congr m hp

theorem nextByte_sameAnswer {m : Input} {r q p : Reader} {v : Byte} (h : nextByte m r = .got v q) (hp : p.samePosition r) :
    SameAnswer (nextByte m p) (.got v q) := h ▸ nextByte_congr m hp

/-! ## Items delivered in two parts -/

theorem feed_append_split {m : Input} {xs ys : List Item} {r q : Reader} (h : feed m (xs ++ ys) r = some q) :
    ∃ p, feed m xs r = some p ∧ feed m ys p = some q := by
  rw [feed_append] at h
  exact Option.bind_eq_some_iff.1 h

theorem feed_last_byte {m : Input} {v : Byte} {r q : Reader} (h : feed m [.byte v] r = some q) : nextByte m r = .got v q := by
  obtain ⟨p, hp, hq⟩ := feed_byte h
  cases hq
  exact hp

/-- Items delivered up to a position, and more items delivered from there. -/
theorem feed_append_join {m : Input} {xs ys : List Item} {r q p p' : Reader} (hxs : feed m xs r = some q)
    (hpos : p.samePosition q) (hys : feed m ys p = some p') : ∃ q', feed m (xs ++ ys) r = some q' ∧ p'.samePosition q' := by
  obtain ⟨q', hq', hpos'⟩ := feed_congr m ys hpos hys
  exact ⟨q', by rw [feed_append, hxs, Option.bind_some, hq'], hpos'⟩

/-! ## Codes and values of the default trees (log 1) -/

theorem lengthCode_path (v : Sym) (h2 : 2 ≤ v.toNat) (h25 : v.toNat ≤ 25) :
    (codeOf lengthCodes v.toNat, v) ∈ treePaths defaultTrees.L := by
  revert v
  decide

theorem offsetCode_path (v : Sym) : (codeOf offsetCodes v.toNat, v) ∈ treePaths defaultTrees.O := by
  revert v
  decide

theorem path_lengthCode : ∀ x ∈ treePaths defaultTrees.L, x.1 = codeOf lengthCodes x.2.toNat := by decide

theorem path_offsetCode : ∀ x ∈ treePaths defaultTrees.O, x.1 = codeOf offsetCodes x.2.toNat := by decide

section

variable {m : Input} {r q p : Reader}

theorem decodeSym_of_lengthCode {v : Sym} (h2 : 2 ≤ v.toNat) (h25 : v.toNat ≤ 25)
    (hf : feed m (bitItems (codeOf lengthCodes v.toNat)) r = some q) :
    SameAnswer (decodeSym defaultTrees.L m r) (.got v q) :=
  sameAnswer_got_iff.2 (decodeSym_of_path (lengthCode_path v h2 h25) hf)

theorem decodeSym_of_offsetCode {v : Sym} (hf : feed m (bitItems (codeOf offsetCodes v.toNat)) r = some q) :
    SameAnswer (decodeSym defaultTrees.O m r) (.got v q) :=
  sameAnswer_got_iff.2 (decodeSym_of_path (offsetCode_path v) hf)

theorem feed_lengthCode {v : Sym} (h : decodeSym defaultTrees.L m r = .got v p) :
    ∃ q, feed m (bitItems (codeOf lengthCodes v.toNat)) r = some q ∧ p.samePosition q := by
  obtain ⟨bs, q, hpath, hf, hpos⟩ := decodeSym_got h
  exact ⟨q, path_lengthCode _ hpath ▸ hf, hpos⟩

theorem feed_offsetCode {v : Sym} (h : decodeSym defaultTrees.O m r = .got v p) :
    ∃ q, feed m (bitItems (codeOf offsetCodes v.toNat)) r = some q ∧ p.samePosition q := by
  obtain ⟨bs, q, hpath, hf, hpos⟩ := decodeSym_got h
  exact ⟨q, path_offsetCode _ hpath ▸ hf, hpos⟩

/-! ## Decoding what was encoded, format by format -/

/-- The items of an offset: its high byte's code, then its low byte (R51). -/
def offsetItems (msb : Sym) (lsb : Byte) : List Item := bitItems (codeOf offsetCodes msb.toNat) ++ [.byte lsb]

theorem readOffset_of_items {msb : Sym} {lsb : Byte} (hf : feed m (offsetItems msb lsb) r = some q) (hp : p.samePosition r) :
    SameAnswer (readOffset defaultTrees m p) (.got (msb, lsb) q) := by
  obtain ⟨q1, hcode, hbyte⟩ := feed_append_split hf
  refine (readOffset_congr defaultTrees m hp).trans ?_
  refine (decodeSym_of_offsetCode hcode).andThen_got fun p1 hp1 => ?_
  refine (nextByte_sameAnswer (feed_last_byte hbyte) (p := { p1 with MSB := msb }) hp1).andThen_got fun p2 hp2 => ?_
  exact ⟨rfl, hp2⟩

theorem decodeLiteral_of_byte {d : Bool} {e : Byte} (h : nextByte m r = .got e q) :
    SameAnswer (decodeLiteral d m r) (.got (literalRow d e) q) := by
  cases d with
  | false => exact (nextByte_sameAnswer h (.refl r)).andThen_got fun _ hp => ⟨rfl, hp⟩
  | true =>
    refine (nextByte_sameAnswer h (p := { r with KEY := literalKey r.CNT }) ⟨rfl, rfl, rfl⟩).andThen_got fun p1 hp1 => ?_
    exact ⟨rfl, hp1⟩

theorem decodeEscape_of_skip (h : nextByte m r = .got escSkip q) (T : Trees) :
    SameAnswer (decodeEscape T m r) (.got .skip q) :=
  (nextByte_sameAnswer h (.refl r)).andThen_got fun _ hp => ⟨rfl, hp⟩

theorem decodeEscape_of_end (h : nextByte m r = .got escEnd q) (T : Trees) :
    SameAnswer (decodeEscape T m r) (.got .endMark q) :=
  (nextByte_sameAnswer h (.refl r)).andThen_got fun _ hp => ⟨rfl, hp⟩

theorem ne_escape_of_le {b : Byte} (h : b.toNat ≤ 0xFD) : b ≠ escSkip ∧ b ≠ escEnd := by
  constructor <;> rintro rfl <;> exact absurd h (by decide)

theorem decodeEscape_of_count {b : Byte} {msb : Sym} {lsb : Byte} (hb : b.toNat ≤ 0xFD)
    (hf : feed m (.byte b :: offsetItems msb lsb) r = some q) :
    SameAnswer (decodeEscape defaultTrees m r) (.got (.dupx b msb lsb) q) := by
  obtain ⟨hskip, hend⟩ := ne_escape_of_le hb
  obtain ⟨q1, hbyte, hoff⟩ := feed_byte hf
  refine (nextByte_sameAnswer hbyte (.refl r)).andThen_got fun p1 hp1 => ?_
  rw [if_neg hskip, if_neg hend]
  refine (readOffset_of_items hoff (p := { p1 with ESC := b, CC := countOfEscape b }) hp1).andThen_got fun p2 hp2 => ?_
  exact ⟨rfl, hp2⟩

theorem decodeShort_of_byte {lsb : Byte} (h : nextByte m r = .got lsb q) : SameAnswer (decodeShort m r) (.got (.dup2 lsb) q) :=
  (nextByte_sameAnswer h (p := { r with CC := countOfSym shortSym, MSB := 0 }) ⟨rfl, rfl, rfl⟩).andThen_got
    fun _ hp => ⟨rfl, hp⟩

theorem decodePlain_of_items {sym msb : Sym} {lsb : Byte} {i : Instr} (hrow : dupRow sym msb lsb = some i)
    (hf : feed m (offsetItems msb lsb) r = some q) : SameAnswer (decodePlain defaultTrees m sym r) (.got i q) := by
  obtain ⟨j, hj⟩ := Option.ne_none_iff_exists'.1 ((dupRow_none_iff sym msb 0 lsb 0).not.1 (by simp [hrow]))
  simp only [decodePlain, hj]
  refine (readOffset_of_items hf (p := { r with CC := countOfSym sym }) ⟨rfl, rfl, rfl⟩).andThen_got fun p1 hp1 => ?_
  simp only [hrow]
  exact ⟨rfl, hp1⟩

/-- After a control bit of 1 and a length code, the rest of a duplication or an escape is read. -/
theorem decode_of_lengthCode {d : Bool} {v : Sym} {items : List Item} {i : Instr} (h2 : 2 ≤ v.toNat) (h25 : v.toNat ≤ 25)
    (hf : feed m (.bit true :: (bitItems (codeOf lengthCodes v.toNat) ++ items)) r = some q)
    (hrest : ∀ r1, feed m items r1 = some q → SameAnswer
      (if v = sentinel then decodeEscape defaultTrees m r1
        else if v = shortSym then decodeShort m r1 else decodePlain defaultTrees m v r1) (.got i q)) :
    SameAnswer (decode d m r) (.got i q) := by
  obtain ⟨r1, hbit, hf⟩ := feed_bit hf
  obtain ⟨r2, hcode, hf⟩ := feed_append_split hf
  refine (nextBit_sameAnswer hbit (.refl r)).andThen_got fun p1 hp1 => ?_
  refine SameAnswer.trans (decodeDup_congr defaultTrees m hp1) ?_
  refine (decodeSym_of_lengthCode h2 h25 hcode).andThen_got fun p2 hp2 => ?_
  have hpos : ({ p2 with SYM := v } : Reader).samePosition r2 := hp2
  refine SameAnswer.trans ?_ (hrest r2 hf)
  split
  · exact decodeEscape_congr defaultTrees m hpos
  · split
    · exact decodeShort_congr m hpos
    · exact decodePlain_congr defaultTrees m v hpos

theorem decode_of_literal {d : Bool} {e : Byte} (hf : feed m [.bit false, .byte e] r = some q) :
    SameAnswer (decode d m r) (.got (literalRow d e) q) := by
  obtain ⟨r1, hbit, hf⟩ := feed_bit hf
  refine (nextBit_sameAnswer hbit (.refl r)).andThen_got fun p1 hp1 => ?_
  exact (decodeLiteral_congr d m hp1).trans (decodeLiteral_of_byte (feed_last_byte hf))

theorem decode_of_sentinel {d : Bool} {items : List Item} {i : Instr} (hf : feed m (itemsSentinel ++ items) r = some q)
    (hrest : ∀ r1, feed m items r1 = some q → SameAnswer (decodeEscape defaultTrees m r1) (.got i q)) :
    SameAnswer (decode d m r) (.got i q) :=
  decode_of_lengthCode (v := sentinel) (by decide) (by decide) hf fun r1 h => by rw [if_pos rfl]; exact hrest r1 h

end

/-- Every duplication row is DUP2, a format-D row, or DUPX (R51). -/
theorem dupForm_cases {i : Instr} {n : Nat} {msb : Sym} {lsb : Byte} (h : dupForm i = some (n, msb, lsb)) :
    i = .dup2 lsb ∨ (∃ sym, dupRow sym msb lsb = some i) ∨ ∃ b, b.toNat ≤ 0xFD ∧ i = .dupx b msb lsb := by
  cases i <;> simp only [dupForm, reduceCtorEq, Option.some.injEq, Prod.mk.injEq] at h
  case dup2 lsb' =>
    obtain ⟨-, -, rfl⟩ := h
    exact .inl rfl
  case dupx b msb' lsb' =>
    split at h
    · simp only [Option.some.injEq, Prod.mk.injEq] at h
      obtain ⟨-, rfl, rfl⟩ := h
      exact .inr (.inr ⟨b, ‹_›, rfl⟩)
    · cases h
  all_goals
    obtain ⟨hn, rfl, rfl⟩ := h
    exact .inr (.inl ⟨BitVec.ofNat 5 n, by rw [← hn]; rfl⟩)

/-- The length symbols of format-D rows (R53). -/
theorem dupRow_sym {sym msb : Sym} {lsb : Byte} {i : Instr} (h : dupRow sym msb lsb = some i) :
    2 ≤ sym.toNat ∧ sym.toNat ≤ 25 ∧ sym ≠ sentinel ∧ sym ≠ shortSym := by
  have hsyms : ∀ v : Sym, dupRow v 0 0 ≠ none → 2 ≤ v.toNat ∧ v.toNat ≤ 25 ∧ v ≠ sentinel ∧ v ≠ shortSym := by decide
  exact hsyms sym ((dupRow_none_iff sym msb 0 lsb 0).not.1 (by simp [h]))

theorem decode_of_encode_dup {d : Bool} {i : Instr} {n : Nat} {msb : Sym} {lsb : Byte} {m : Input} {r q : Reader}
    (hi : dupForm i = some (n, msb, lsb)) (hf : feed m (encode i) r = some q) : SameAnswer (decode d m r) (.got i q) := by
  obtain rfl | ⟨sym, hrow⟩ | ⟨b, hb, rfl⟩ := dupForm_cases hi
  · exact decode_of_lengthCode (v := shortSym) (by decide) (by decide) hf fun r1 h => decodeShort_of_byte (feed_last_byte h)
  · obtain ⟨henc, -⟩ := dupRow_some hrow
    obtain ⟨h2, h25, hsentinel, hshort⟩ := dupRow_sym hrow
    rw [henc, itemsD, List.cons_append, List.cons_append, List.append_assoc] at hf
    refine decode_of_lengthCode h2 h25 hf fun r1 h => ?_
    rw [if_neg hsentinel, if_neg hshort]
    exact decodePlain_of_items hrow h
  · rw [encode, List.append_assoc, List.append_assoc] at hf
    exact decode_of_sentinel hf fun r1 h => decodeEscape_of_count hb h

/-- Decode after encode, for every well-formed stream instruction. -/
theorem decode_of_encode {d : Bool} {i : Instr} {m : Input} {r q : Reader} (hw : i.wf = true) (hs : i.isStream = true)
    (hm : i.modeOk d = true) (hf : feed m (encode i) r = some q) : SameAnswer (decode d m r) (.got i q) := by
  obtain ⟨e, rfl⟩ | ⟨e, rfl⟩ | rfl | rfl | ⟨n, msb, lsb, hi⟩ := stream_cases hs hw
  · cases d with
    | false => exact decode_of_literal hf
    | true => cases hm
  · cases d with
    | false => cases hm
    | true => exact decode_of_literal hf
  · exact decode_of_sentinel hf fun r1 h => decodeEscape_of_skip (feed_last_byte h) _
  · exact decode_of_sentinel hf fun r1 h => decodeEscape_of_end (feed_last_byte h) _
  · exact decode_of_encode_dup hi hf

/-! ## Encoding what was decoded -/

section

variable {m : Input} {r p : Reader} {i : Instr}

theorem feed_byte_of_got {v : Byte} (h : nextByte m r = .got v p) : feed m [.byte v] r = some p := feed_byte_of h []

theorem feed_offsetItems {o : Sym × Byte} (h : readOffset defaultTrees m r = .got o p) :
    ∃ q, feed m (offsetItems o.1 o.2) r = some q ∧ p.samePosition q := by
  obtain ⟨r1, r2, hsym, hbyte, rfl⟩ := readOffset_got h
  obtain ⟨q, hcode, hpos⟩ := feed_offsetCode hsym
  obtain ⟨q', hf, hpos'⟩ := feed_append_byte hcode (p := { r1 with MSB := o.1 }) hpos hbyte
  exact ⟨q', hf, hpos'⟩

/-- An escape's items after the sentinel: its byte, and for DUPX its offset. -/
theorem feed_of_decodeEscape (h : decodeEscape defaultTrees m r = .got i p) :
    ∃ items q, encode i = itemsSentinel ++ items ∧ feed m items r = some q ∧ p.samePosition q := by
  obtain ⟨b, r1, hbyte, ⟨rfl, rfl, rfl⟩ | ⟨rfl, rfl, rfl⟩ | ⟨-, -, o, hoff, rfl⟩⟩ := decodeEscape_got h
  · exact ⟨_, r1, rfl, feed_byte_of_got hbyte, ⟨rfl, rfl, rfl⟩⟩
  · exact ⟨_, r1, rfl, feed_byte_of_got hbyte, ⟨rfl, rfl, rfl⟩⟩
  · obtain ⟨q, hf, hpos⟩ := feed_offsetItems hoff
    obtain ⟨q', hf', hpos'⟩ := feed_congr m _ (r := { r1 with ESC := b, CC := countOfEscape b }) (q := r1)
      ⟨rfl, rfl, rfl⟩ hf
    refine ⟨.byte b :: offsetItems o.1 o.2, q', ?_, (feed_byte_of hbyte _).trans hf', hpos.trans hpos'⟩
    simp [encode, offsetItems]

/-- What follows the length code of a decoded duplication or escape. -/
theorem feed_of_decodeDup (h : decodeDup defaultTrees m r = .got i p) :
    ∃ items q, encode i = .bit true :: items ∧ feed m items r = some q ∧ p.samePosition q := by
  obtain ⟨sym, r1, hsym, hrest⟩ := decodeDup_got h
  obtain ⟨q1, hcode, hpos1⟩ := feed_lengthCode hsym
  have hpos : ({ r1 with SYM := sym } : Reader).samePosition q1 := hpos1
  obtain ⟨rfl, hesc⟩ | ⟨rfl, hshort⟩ | ⟨-, -, hplain⟩ := hrest
  · obtain ⟨items, q, henc, hf, hq⟩ := feed_of_decodeEscape hesc
    obtain ⟨q', hf', hq'⟩ := feed_append_join hcode hpos hf
    exact ⟨_, q', henc, hf', hq.trans hq'⟩
  · obtain ⟨lsb, r2, hbyte, rfl, rfl⟩ := decodeShort_got hshort
    obtain ⟨q', hf', hq'⟩ := feed_append_byte hcode
      (p := { r1 with SYM := shortSym, CC := countOfSym shortSym, MSB := 0 }) hpos hbyte
    exact ⟨_, q', rfl, hf', hq'⟩
  · obtain ⟨o, hoff, hrow⟩ := decodePlain_got hplain
    obtain ⟨henc, -⟩ := dupRow_some hrow
    obtain ⟨q, hf, hq⟩ := feed_offsetItems hoff
    obtain ⟨q', hf', hq'⟩ := feed_append_join hcode (p := { r1 with SYM := sym, CC := countOfSym sym }) hpos hf
    refine ⟨_, q', ?_, hf', hq.trans hq'⟩
    rw [henc, itemsD, offsetItems, List.cons_append, List.cons_append, List.append_assoc]

/-- Encode after decode: what was delivered is the encoding of what was decoded. -/
theorem feed_encode_of_decode {d : Bool} (h : decode d m r = .got i p) :
    ∃ q, feed m (encode i) r = some q ∧ p.samePosition q := by
  obtain ⟨c, r1, hbit, ⟨rfl, hdup⟩ | ⟨rfl, hlit⟩⟩ := decodeWith_got h
  · obtain ⟨items, q, henc, hf, hpos⟩ := feed_of_decodeDup hdup
    exact ⟨q, by rw [henc, feed_bit_of hbit, hf], hpos⟩
  · obtain ⟨e, q, hbyte, rfl, hpos⟩ := decodeLiteral_got hlit
    refine ⟨q, ?_, hpos⟩
    have henc : encode (if d then .litx e else .lit e) = [.bit false, .byte e] := by cases d <;> rfl
    rw [henc, feed_bit_of hbit, feed_byte_of_got hbyte]

end

/-! ## What DECRYPT selects -/

/-- Without a literal's control bit, DECRYPT makes no difference. -/
theorem decodeWith_dup {m : Input} {r q : Reader} (h : nextBit m r = .got true q) (T : Trees) (d : Bool) :
    decodeWith T d m r = decodeDup T m q := by
  rw [decodeWith, h]
  rfl

theorem decodeWith_ended {m : Input} {r q : Reader} {e : Reject} (h : nextBit m r = .stop e q) (T : Trees) (d : Bool) :
    decodeWith T d m r = .stop e q := by
  rw [decodeWith, h]
  rfl

/-- An instruction that either value of DECRYPT allows is no literal (R62). -/
theorem not_literal_of_modeOk {i : Instr} (hplain : i.modeOk false = true) (hmask : i.modeOk true = true) (e : Byte) :
    i ≠ .lit e ∧ i ≠ .litx e := by
  constructor
  · rintro rfl
    cases hmask
  · rintro rfl
    cases hplain

/-- What another DECRYPT makes of a stream that decodes: the same instruction, or the other literal with the same byte. -/
theorem decodeWith_got_other_mode {T : Trees} {d : Bool} {m : Input} {r q : Reader} {i : Instr}
    (h : decodeWith T d m r = .got i q) (d' : Bool) :
    ∃ j p, decodeWith T d' m r = .got j p ∧ p.samePosition q ∧
      ((∃ e, i = literalRow d e ∧ j = literalRow d' e) ∨ (i = j ∧ ∀ e, i ≠ .lit e ∧ i ≠ .litx e)) := by
  obtain ⟨c, r1, hbit, ⟨rfl, hdup⟩ | ⟨rfl, hlit⟩⟩ := decodeWith_got h
  · have hany (d : Bool) : decodeWith T d m r = .got i q := (decodeWith_dup hbit T d).trans hdup
    obtain ⟨-, -, hplain⟩ := decodeWith_got_wf (hany false)
    obtain ⟨-, -, hmask⟩ := decodeWith_got_wf (hany true)
    exact ⟨i, q, hany d', .refl q, .inr ⟨rfl, not_literal_of_modeOk hplain hmask⟩⟩
  · obtain ⟨e, q1, hbyte, hi, hpos⟩ := decodeLiteral_got hlit
    obtain ⟨p, hp, hpos'⟩ := sameAnswer_got_iff.1 (decodeLiteral_of_byte (d := d') hbyte)
    exact ⟨_, p, (decodeWith_literal hbit T d').trans hp, hpos'.trans hpos.symm, .inl ⟨e, hi, rfl⟩⟩

theorem decodeLiteral_stop {d : Bool} {m : Input} {r q : Reader} {e : Reject} (h : decodeLiteral d m r = .stop e q) :
    e = .endOfInput ∧ q.samePosition r ∧ m.len ≤ r.ICUR := by
  cases d with
  | false =>
    obtain hbyte | ⟨b, q1, -, hgot⟩ := ReadResult.andThen_eq_stop h
    · obtain ⟨rfl, rfl, hend⟩ := nextByte_stop hbyte
      exact ⟨rfl, .refl q, hend⟩
    · cases hgot
  | true =>
    obtain hbyte | ⟨b, q1, -, hgot⟩ := ReadResult.andThen_eq_stop h
    · obtain ⟨rfl, rfl, hend⟩ := nextByte_stop hbyte
      exact ⟨rfl, ⟨rfl, rfl, rfl⟩, hend⟩
    · cases hgot

/-- A stream that does not decode does not with another DECRYPT either. -/
theorem decodeWith_stop_other_mode {T : Trees} {d : Bool} {m : Input} {r q : Reader} {e : Reject}
    (h : decodeWith T d m r = .stop e q) (d' : Bool) : ∃ p, decodeWith T d' m r = .stop e p ∧ p.samePosition q := by
  cases hbit : nextBit m r with
  | stop e' q' => exact ⟨q, (decodeWith_ended hbit T d').trans ((decodeWith_ended hbit T d).symm.trans h), .refl q⟩
  | got c r1 =>
    cases c with
    | true => exact ⟨q, (decodeWith_dup hbit T d').trans ((decodeWith_dup hbit T d).symm.trans h), .refl q⟩
    | false =>
      obtain ⟨rfl, hpos, hend⟩ := decodeLiteral_stop ((decodeWith_literal hbit T d).symm.trans h)
      obtain ⟨p, hp⟩ := decodeLiteral_ended d' hend
      obtain ⟨-, hpos', -⟩ := decodeLiteral_stop hp
      exact ⟨p, (decodeWith_literal hbit T d').trans hp, hpos'.trans hpos.symm⟩

/-! ## The assembler -/

theorem byte_ofBytes (bs : List Byte) (a : Nat) : (Input.ofBytes bs).byte a = bs[a]?.getD (Config.unplacedByte a) := by
  rw [Input.byte, Input.ofBytes, Memory.read_ofBytes bs 0 a (Nat.zero_le a), Nat.sub_zero]

/-- The window at an index of a list of bytes (R34). -/
def windowAt (bs : List Byte) (a : Nat) : Window := (Input.ofBytes bs).window a

theorem windowAt_congr {bs cs : List Byte} {a : Nat} (h0 : bs[a]? = cs[a]?) (h1 : bs[a + 1]? = cs[a + 1]?) :
    windowAt bs a = windowAt cs a := by
  simp only [windowAt, Input.window, byte_ofBytes, h0, h1]

/-- Bits 0 to 7 of a window are its first byte, bits 8 to 15 its second (R34, R35). -/
theorem windowAt_getLsbD (bs : List Byte) (a : Nat) {j : Nat} (hj : j < 16) :
    (windowAt bs a).getLsbD j =
      if j < 8 then (bs[a]?.getD (Config.unplacedByte a)).getLsbD j
      else (bs[a + 1]?.getD (Config.unplacedByte (a + 1))).getLsbD (j - 8) := by
  simp only [windowAt, Input.window, byte_ofBytes, BitVec.getLsbD_or, BitVec.getLsbD_setWidth, BitVec.getLsbD_shiftLeft]
  split
  · simp [hj, ‹j < 8›]
  · have hhigh : (bs[a]?.getD (Config.unplacedByte a)).getLsbD j = false := BitVec.getLsbD_of_ge _ _ (by omega)
    simp [hj, ‹¬ j < 8›, hhigh]
    omega

@[simp] theorem setWindowBit_length (out : List Byte) (slot c : Nat) : (setWindowBit out slot c).length = out.length := by
  unfold setWindowBit
  split <;> simp

/-- Setting a window bit touches the two bytes of the window alone. -/
theorem setWindowBit_other (out : List Byte) {slot i : Nat} (c : Nat) (h0 : i ≠ slot) (h1 : i ≠ slot + 1) :
    (setWindowBit out slot c)[i]? = out[i]? := by
  unfold setWindowBit
  split
  · simp [h0.symm]
  · simp [h1.symm]

theorem getLsbD_or_bit (b : Byte) (c : Nat) {j : Nat} (hj : j < 8) :
    (b ||| (1#8 <<< c)).getLsbD j = (decide (j = c) || b.getLsbD j) := by
  rw [BitVec.getLsbD_or, BitVec.getLsbD_shiftLeft, BitVec.getLsbD_one, Bool.or_comm]
  have hbit : (decide (j < 8) && !decide (j < c) && (decide (0 < 8) && decide (j - c = 0))) = decide (j = c) := by
    rw [Bool.eq_iff_iff]
    simp
    omega
  rw [hbit]

/-- Setting a window bit sets that bit and no other (R66). -/
theorem windowAt_setWindowBit {out : List Byte} {slot c j : Nat} (hslot : slot + 2 ≤ out.length) (hc : c < 16) (hj : j < 16) :
    (windowAt (setWindowBit out slot c) slot).getLsbD j = (decide (j = c) || (windowAt out slot).getLsbD j) := by
  have h0 : out[slot]? = some out[slot] := List.getElem?_eq_getElem (by omega)
  have h1 : out[slot + 1]? = some out[slot + 1] := List.getElem?_eq_getElem (by omega)
  rw [windowAt_getLsbD _ _ hj, windowAt_getLsbD _ _ hj, setWindowBit]
  rcases Nat.lt_or_ge c 8 with hlow | hhigh
  · rcases Nat.lt_or_ge j 8 with hj8 | hj8
    · rw [if_pos hlow, if_pos hj8, if_pos hj8, List.getElem?_modify_eq, h0]
      exact getLsbD_or_bit _ _ hj8
    · simp [hlow, Nat.not_lt.2 hj8, h1, show j ≠ c by omega]
  · rcases Nat.lt_or_ge j 8 with hj8 | hj8
    · simp [Nat.not_lt.2 hhigh, hj8, h0, show j ≠ c by omega]
    · rw [if_neg hhigh.not_gt, if_neg hj8.not_gt, if_neg hj8.not_gt, List.getElem?_modify_eq, h1]
      refine (getLsbD_or_bit _ (c - 8) (by omega)).trans ?_
      simp [show j - 8 = c - 8 ↔ j = c by omega]

/-- A layout in the course of assembling: the window being filled is laid out, and its bits from `c` on are still 0. -/
structure Layout.Open (a : Layout) : Prop where
  slot_le : a.slot + 2 ≤ a.out.length
  c_lt : a.c < 16
  zeros : ∀ j, a.c ≤ j → j < 16 → (windowAt a.out a.slot).getLsbD j = false

/-- The bytes hold what the layout has placed: all its bytes but the open window's, and the bits placed in that window. -/
structure Layout.PlacedIn (a : Layout) (bs : List Byte) : Prop where
  length_le : a.out.length ≤ bs.length
  bytes : ∀ i, i < a.out.length → i ≠ a.slot → i ≠ a.slot + 1 → bs[i]? = a.out[i]?
  bits : ∀ j, j < a.c → (windowAt bs a.slot).getLsbD j = (windowAt a.out a.slot).getLsbD j

theorem Layout.PlacedIn.refl (a : Layout) : a.PlacedIn a.out := ⟨Nat.le_refl _, fun _ _ _ _ => rfl, fun _ _ => rfl⟩

theorem layoutStart_open : layoutStart.Open := by
  refine ⟨by decide, by decide, fun j _ hj => ?_⟩
  rw [show windowAt layoutStart.out layoutStart.slot = 0 from rfl]
  exact BitVec.getLsbD_zero

/-- The bytes after placing a bit, before a full window makes room for the next one. -/
def placeBit (b : Bool) (a : Layout) : List Byte := if b then setWindowBit a.out a.slot a.c else a.out

@[simp] theorem placeBit_length (b : Bool) (a : Layout) : (placeBit b a).length = a.out.length := by
  cases b with
  | false => rfl
  | true => exact setWindowBit_length _ _ _

theorem placeBit_other (b : Bool) (a : Layout) {i : Nat} (h0 : i ≠ a.slot) (h1 : i ≠ a.slot + 1) :
    (placeBit b a)[i]? = a.out[i]? := by
  cases b with
  | false => rfl
  | true => exact setWindowBit_other _ _ h0 h1

theorem windowAt_placeBit (b : Bool) {a : Layout} (h : a.Open) {j : Nat} (hj : j < 16) :
    (windowAt (placeBit b a) a.slot).getLsbD j = if j = a.c then b else (windowAt a.out a.slot).getLsbD j := by
  obtain ⟨hslot, hc, hzeros⟩ := h
  cases b with
  | false =>
    split
    · exact hzeros j (by omega) hj
    · rfl
  | true =>
    rw [placeBit, if_pos rfl, windowAt_setWindowBit hslot hc hj]
    split <;> simp [*]

theorem putBit_within (b : Bool) {a : Layout} (h : a.c < 15) : putBit b a = ⟨placeBit b a, a.slot, a.c + 1⟩ := by
  rw [putBit, if_neg (by omega)]
  rfl

theorem putBit_full (b : Bool) {a : Layout} (h : a.c = 15) :
    putBit b a = ⟨placeBit b a ++ [0, 0], (placeBit b a).length, 0⟩ := by
  rw [putBit, if_pos (by omega)]
  rfl

/-- A window just made room for holds no bit yet. -/
theorem windowAt_room (bs : List Byte) : windowAt (bs ++ [0, 0]) bs.length = 0 := by
  simp [windowAt, Input.window, byte_ofBytes]

theorem putBit_open (b : Bool) {a : Layout} (h : a.Open) : (putBit b a).Open := by
  rcases Nat.lt_or_ge a.c 15 with hc | hc
  · rw [putBit_within b hc]
    refine ⟨by simpa using h.slot_le, by simp only; omega, fun j hlo hj => ?_⟩
    rw [windowAt_placeBit b h hj, if_neg (by simp only at hlo; omega)]
    exact h.zeros j (by simp only at hlo; omega) hj
  · rw [putBit_full b (by have := h.c_lt; omega)]
    refine ⟨by simp, Nat.zero_lt_succ _, fun j _ _ => ?_⟩
    rw [windowAt_room]
    exact BitVec.getLsbD_zero

theorem putByte_open (v : Byte) {a : Layout} (h : a.Open) : (putByte v a).Open := by
  have hslot := h.slot_le
  refine ⟨by simp only [putByte, List.length_append]; omega, h.c_lt, fun j hlo hj => ?_⟩
  have hwin : windowAt (a.out ++ [v]) a.slot = windowAt a.out a.slot :=
    windowAt_congr (List.getElem?_append_left (by omega)) (List.getElem?_append_left (by omega))
  exact hwin ▸ h.zeros j hlo hj

/-- Bytes that hold a layout after a bit was put hold the layout before, and the bit in its window. -/
theorem placedIn_of_putBit {b : Bool} {a : Layout} {bs : List Byte} (h : a.Open) (hb : (putBit b a).PlacedIn bs) :
    a.PlacedIn bs ∧ (windowAt bs a.slot).getLsbD a.c = b ∧ (a.c = 15 → a.out.length + 2 ≤ bs.length) := by
  have hbit := windowAt_placeBit b h h.c_lt
  rw [if_pos rfl] at hbit
  suffices hplaced : a.out.length ≤ bs.length ∧ (∀ i, i < a.out.length → i ≠ a.slot → i ≠ a.slot + 1 → bs[i]? = a.out[i]?) ∧
      (∀ j, j ≤ a.c → (windowAt bs a.slot).getLsbD j = (windowAt (placeBit b a) a.slot).getLsbD j) ∧
      (a.c = 15 → a.out.length + 2 ≤ bs.length) by
    obtain ⟨hlen, hbytes, hbits, hroom⟩ := hplaced
    refine ⟨⟨hlen, hbytes, fun j hj => ?_⟩, (hbits _ (Nat.le_refl _)).trans hbit, hroom⟩
    rw [hbits j hj.le, windowAt_placeBit b h (hj.trans h.c_lt), if_neg hj.ne]
  rcases Nat.lt_or_ge a.c 15 with hc | hc
  · rw [putBit_within b hc] at hb
    obtain ⟨hlen, hbytes, hbits⟩ := hb
    simp only [placeBit_length] at hlen hbytes
    refine ⟨hlen, fun i hi h0 h1 => ?_, fun j hj => hbits j (Nat.lt_succ_of_le hj), fun h15 => absurd h15 hc.ne⟩
    rw [hbytes i hi h0 h1, placeBit_other b a h0 h1]
  · rw [putBit_full b (by have := h.c_lt; omega)] at hb
    obtain ⟨hlen, hbytes, -⟩ := hb
    simp only [placeBit_length, List.length_append, List.length_cons, List.length_nil] at hlen hbytes
    have hold (i : Nat) (hi : i < a.out.length) : bs[i]? = (placeBit b a)[i]? := by
      rw [hbytes i (by omega) (by omega) (by omega), List.getElem?_append_left (by simpa using hi)]
    have hslot := h.slot_le
    refine ⟨by omega, fun i hi h0 h1 => ?_, fun j _ => ?_, fun _ => by omega⟩
    · rw [hold i hi, placeBit_other b a h0 h1]
    · rw [windowAt_congr (hold a.slot (by omega)) (hold (a.slot + 1) (by omega))]

/-- Bytes that hold a layout after a byte was put hold the layout before, and the byte after it. -/
theorem placedIn_of_putByte {v : Byte} {a : Layout} {bs : List Byte} (h : a.Open) (hb : (putByte v a).PlacedIn bs) :
    a.PlacedIn bs ∧ bs[a.out.length]? = some v := by
  obtain ⟨hlen, hbytes, hbits⟩ := hb
  simp only [putByte, List.length_append, List.length_cons, List.length_nil] at hlen hbytes hbits
  have hslot := h.slot_le
  refine ⟨⟨by omega, fun i hi h0 h1 => ?_, fun j hj => ?_⟩, ?_⟩
  · rw [hbytes i (by omega) h0 h1, List.getElem?_append_left hi]
  · rw [hbits j hj, windowAt_congr (List.getElem?_append_left (by omega)) (List.getElem?_append_left (by omega))]
  · rw [hbytes _ (by omega) (by omega) (by omega), List.getElem?_concat_length]

/-- Whatever is placed later, what a layout holds stays placed. -/
theorem placedIn_putItems (items : List Item) {a : Layout} (h : a.Open) : a.PlacedIn (putItems items a).out := by
  induction items generalizing a with
  | nil => exact .refl a
  | cons i is ih =>
    cases i with
    | bit b => exact (placedIn_of_putBit h (ih (putBit_open b h))).1
    | byte v => exact (placedIn_of_putByte h (ih (putByte_open v h))).1

/-- The reader stands where the layout was when the next item was placed. -/
structure Layout.ReaderAt (a : Layout) (bs : List Byte) (r : Reader) : Prop where
  window : r.WIN = windowAt bs a.slot
  bit : r.CNT.val = a.c
  cursor : r.ICUR = a.out.length

/-- Reading a placed bit. -/
theorem nextBit_placed {b : Bool} {a : Layout} {bs : List Byte} {r : Reader} (h : a.Open) (hb : (putBit b a).PlacedIn bs)
    (hr : a.ReaderAt bs r) : ∃ p, nextBit (Input.ofBytes bs) r = .got b p ∧ (putBit b a).ReaderAt bs p := by
  obtain ⟨hwin, hcnt, hcur⟩ := hr
  obtain ⟨-, hbit, hroom⟩ := placedIn_of_putBit h hb
  have hval : r.WIN.getLsbD r.CNT.val = b := by rw [hwin, hcnt, hbit]
  rcases Nat.lt_or_ge a.c 15 with hc | hc
  · rw [putBit_within b hc, nextBit_within (by omega), hval]
    refine ⟨_, rfl, hwin, ?_, by simpa using hcur⟩
    simp only [Fin.val_add, Fin.val_one, hcnt]
    omega
  · have h15 : a.c = 15 := by have := h.c_lt; omega
    have hval15 : r.WIN.getLsbD 15 = b := by rw [← hval, hcnt, h15]
    rw [putBit_full b h15, nextBit_reload (hcnt.trans h15) (hcur ▸ hroom h15), hval15]
    exact ⟨_, rfl, by simp [hcur, windowAt], rfl, by simp [hcur]⟩

/-- Reading a placed byte. -/
theorem nextByte_placed {v : Byte} {a : Layout} {bs : List Byte} {r : Reader} (h : a.Open) (hb : (putByte v a).PlacedIn bs)
    (hr : a.ReaderAt bs r) : ∃ p, nextByte (Input.ofBytes bs) r = .got v p ∧ (putByte v a).ReaderAt bs p := by
  obtain ⟨hwin, hcnt, hcur⟩ := hr
  obtain ⟨-, hbyte⟩ := placedIn_of_putByte h hb
  have hlt : r.ICUR < bs.length := hcur ▸ (List.getElem?_eq_some_iff.1 hbyte).1
  rw [nextByte_within hlt, byte_ofBytes, hcur, hbyte]
  exact ⟨_, rfl, hwin, hcnt, by simp [putByte]⟩

/-- From where a layout was, the bytes laid out for more items deliver those items and are used up. -/
theorem feed_putItems (items : List Item) {a : Layout} {r : Reader} (h : a.Open)
    (hr : a.ReaderAt (putItems items a).out r) :
    ∃ q, feed (Input.ofBytes (putItems items a).out) items r = some q ∧ q.ICUR = (putItems items a).out.length := by
  induction items generalizing a r with
  | nil => exact ⟨r, rfl, hr.cursor⟩
  | cons i is ih =>
    cases i with
    | bit b =>
      have hopen := putBit_open b h
      obtain ⟨p, hp, hat⟩ := nextBit_placed h (placedIn_putItems is hopen) hr
      exact (feed_bit_of hp is).symm ▸ ih hopen hat
    | byte v =>
      have hopen := putByte_open v h
      obtain ⟨p, hp, hat⟩ := nextByte_placed h (placedIn_putItems is hopen) hr
      exact (feed_byte_of hp is).symm ▸ ih hopen hat

theorem feed_assemble (items : List Item) :
    ∃ q, feed (Input.ofBytes (assemble items)) items (Reader.start (Input.ofBytes (assemble items))) = some q ∧
      q.ICUR = (assemble items).length := feed_putItems items layoutStart_open ⟨rfl, rfl, rfl⟩

/-! ## Streams of several instructions -/

theorem decodeMany_of_feed {d : Bool} {m : Input} {is : List Instr} {r q : Reader}
    (hok : ∀ i ∈ is, i.wf = true ∧ i.isStream = true ∧ i.modeOk d = true) (hf : feed m (is.flatMap encode) r = some q) :
    decodeMany d m is.length r = some is := by
  induction is generalizing r q with
  | nil => rfl
  | cons i is ih =>
    rw [List.flatMap_cons] at hf
    obtain ⟨q1, hi, hrest⟩ := feed_append_split hf
    obtain ⟨hw, hs, hm⟩ := hok i List.mem_cons_self
    obtain ⟨p, hp, hpos⟩ := sameAnswer_got_iff.1 (decode_of_encode hw hs hm hi)
    obtain ⟨q', hrest', -⟩ := feed_congr m _ hpos.symm hrest
    have htail := ih (fun j hj => hok j (List.mem_cons_of_mem i hj)) hrest'
    simp only [List.length_cons, decodeMany, hp, htail, Option.map_some]

namespace Machine

/-! ## The obligations -/

/-- Settles O19: format by format, the reads of the decoder answer what the items hold. -/
theorem decodeReadsBackEncode : Obligations.DecodeReadsBackEncode :=
  fun _ _ _ _ _ hw hs hm hf => sameAnswer_got_iff.1 (decode_of_encode hw hs hm hf)

/-- Settles O20: a decoded instruction is well formed, and each of its reads was delivered as an item of its encoding. -/
theorem decodedItemsAreTheEncoding : Obligations.DecodedItemsAreTheEncoding := by
  intro d i m r p h
  obtain ⟨hw, hs, hm⟩ := decodeWith_got_wf h
  exact ⟨hw, hs, hm, feed_encode_of_decode h⟩

/-- Settles O22: by induction on the items, for a reader that stands where the assembler was. -/
theorem assembledItemsReadBack : Obligations.AssembledItemsReadBack := feed_assemble

/-- Settles O23: the assembled items are delivered in order, and each instruction is decoded from its own. -/
theorem assembledInstructionsDecodeInOrder : Obligations.AssembledInstructionsDecodeInOrder := by
  intro d is hok
  obtain ⟨q, hf, -⟩ := feed_assemble (is.flatMap encode)
  exact decodeMany_of_feed hok hf

/-- Settles O21: the delivered items are the encoding (O20), and R58's counts are those of delivered items. -/
theorem instructionLengthFromItsItems : Obligations.InstructionLengthFromItsItems := by
  intro d i m r p h
  obtain ⟨q, hf, -, hcnt, hcur⟩ := feed_encode_of_decode h
  rw [hcnt, hcur]
  exact feed_length hf

/-- Settles O24: a row that delivers a value is that value's row, and its code is the value's path in the offset tree. -/
theorem offsetRowsDecode : Obligations.OffsetRowsDecode := by
  intro i v m r q hi hf
  obtain rfl := offsetRow_of_offHigh hi
  rw [(offsetRow_spec v).2] at hf
  refine sameAnswer_got_iff.1 ((decodeSym_of_offsetCode hf).andThen_got fun p hp => ?_)
  exact ⟨rfl, hp⟩

/-- Settles O25: after a control bit of 1 DECRYPT is not looked at, and after one of 0 both modes read one byte. -/
theorem decryptSelectsOnlyTheLiteral : Obligations.DecryptSelectsOnlyTheLiteral :=
  fun _ _ _ => ⟨fun _ _ h => decodeWith_got_other_mode h true, fun _ _ h => decodeWith_stop_other_mode h true⟩

/-- Settles O18: by running the decoder on the six streams. -/
theorem writtenOutStreamsDecode : Obligations.WrittenOutStreamsDecode :=
  ⟨⟨_, rfl⟩, ⟨_, rfl⟩, ⟨_, rfl⟩, ⟨_, rfl⟩, ⟨_, rfl⟩, ⟨_, rfl⟩⟩

end Machine

end Sys2Proof
end

section
/-! PROOFS. The statements about executing one instruction whose operands are read: the literals (42_control_and_literal.md
R92 to R94), the copy and the duplications (43_duplication_and_copy.md R100 to R112), the escapes (R103, R110) and the offset
rows (R81). -/

namespace Sys2Proof

namespace Machine

/-! ## Copy's loop in closed form -/

theorem copyLoop_step {n : Nat} {s u : State} (h : copyByte s = .ok u) : copyLoop (n + 1) s = copyLoop n u := by
  rw [copyLoop, h]

theorem copyLoop_raise {n : Nat} {k : ErrKind} {s u : State} (h : copyByte s = .raise k u) :
    copyLoop (n + 1) s = .raise k u := by
  rw [copyLoop, h]

/-- A copy that completes stays within its frame. -/
theorem copyLoop_ok {n : Nat} {s t : State} (hroom : s.OPOS + n ≤ s.OUTCAP) (h : copyLoop n s = .ok t) :
    t.OPOS = s.OPOS + n ∧ CopyFrame s t := by
  obtain ⟨t', ht', hpos, hframe⟩ := (copyLoop_spec n s).1 hroom
  cases h.symm.trans ht'
  exact ⟨hpos, hframe⟩

/-- Each byte copied from distance `d` is, in the end, the byte `d` before it (R107). -/
theorem copyLoop_recurs {n d : Nat} {s t : State} (hd : 1 ≤ d) (hsrc : s.SRC + d = s.OPOS) (hroom : s.OPOS + n ≤ s.OUTCAP)
    (hwritten : ∀ a, s.SRC ≤ a → a < s.OPOS → (Memory.read s.OUT a).isSome = true) (h : copyLoop n s = .ok t) :
    ∀ i, i < n → Memory.read t.OUT (s.OPOS + i) = Memory.read t.OUT (s.SRC + i) := by
  induction n generalizing s with
  | zero => exact fun i hi => absurd hi (Nat.not_lt_zero i)
  | succ n ih =>
    have hstep := copyByte_ok (s := s) (by omega)
    rw [copyLoop_step hstep] at h
    obtain ⟨v, hv⟩ := Option.isSome_iff_exists.1 (hwritten s.SRC (Nat.le_refl _) (by omega))
    rw [readOut_written (by omega) hv] at h
    obtain ⟨-, hframe⟩ := copyLoop_ok (by simp only; omega) h
    rintro (_ | i) hi
    · have hnew := hframe.below s.OPOS (Nat.lt_succ_self _)
      have hold := hframe.below s.SRC (by simp only; omega)
      rw [Memory.read_write_same] at hnew
      rw [Memory.read_write_other _ _ _ _ (by omega), hv] at hold
      exact hnew.trans hold.symm
    · have hnext := ih (by simp only; omega) (by simp only; omega) (fun a hlo hhi => ?_) h i (by omega)
      · simp only at hnext
        rwa [Nat.add_right_comm, Nat.add_right_comm s.SRC] at hnext
      · simp only at hlo hhi ⊢
        by_cases ha : a = s.OPOS
        · rw [ha, Memory.read_write_same]
          rfl
        · rw [Memory.read_write_other _ _ _ _ ha]
          exact hwritten a (by omega) (by omega)

/-- A recurrence with period `d` in closed form (R112). -/
theorem read_of_recurs {M : Memory} {p d n : Nat} (hd : 1 ≤ d) (hdp : d ≤ p)
    (h : ∀ i, i < n → Memory.read M (p + i) = Memory.read M (p - d + i)) :
    ∀ i, i < n → Memory.read M (p + i) = Memory.read M (p - d + i % d) := by
  intro i
  induction i using Nat.strong_induction_on with
  | _ i ih =>
    intro hi
    rcases Nat.lt_or_ge i d with hlt | hge
    · rw [h i hi, Nat.mod_eq_of_lt hlt]
    · calc Memory.read M (p + i) = Memory.read M (p - d + i) := h i hi
        _ = Memory.read M (p + (i - d)) := by rw [show p - d + i = p + (i - d) by omega]
        _ = Memory.read M (p - d + (i - d) % d) := ih (i - d) (by omega) (by omega)
        _ = Memory.read M (p - d + i % d) := by rw [← Nat.mod_eq_sub_mod hge]

/-- A copy from distance `d` repeats the last `d` bytes (R112). -/
theorem copyLoop_repeats {n d : Nat} {s t : State} (hd : 1 ≤ d) (hdp : d ≤ s.OPOS) (hsrc : s.SRC = s.OPOS - d)
    (hroom : s.OPOS + n ≤ s.OUTCAP) (hwritten : OutputWritten s) (h : copyLoop n s = .ok t) :
    ∀ i, i < n → Memory.read t.OUT (s.OPOS + i) = Memory.read s.OUT (s.OPOS - d + i % d) := by
  intro i hi
  obtain ⟨-, hframe⟩ := copyLoop_ok hroom h
  have hrecurs := copyLoop_recurs hd (by omega) hroom (fun a _ ha => hwritten a ha) h
  rw [read_of_recurs hd hdp (hsrc ▸ hrecurs) i hi]
  have hmod : i % d < d := Nat.mod_lt i hd
  exact hframe.below _ (by omega)

/-- A copy from distance 0 writes the next free bytes, one draw each (R109). -/
theorem copyLoop_free {n : Nat} {s t : State} (hsrc : s.SRC = s.OPOS) (hroom : s.OPOS + n ≤ s.OUTCAP)
    (h : copyLoop n s = .ok t) :
    t.draws = s.draws + n ∧ ∀ j, j < n → Memory.read t.OUT (s.OPOS + j) = some (Config.freeByte (s.draws + j)) := by
  induction n generalizing s with
  | zero =>
    cases h
    exact ⟨rfl, fun j hj => absurd hj (Nat.not_lt_zero j)⟩
  | succ n ih =>
    have hstep := copyByte_ok (s := s) (by omega)
    rw [copyLoop_step hstep, readOut_unwritten hsrc.ge] at h
    obtain ⟨-, hframe⟩ := copyLoop_ok (by simp only; omega) h
    obtain ⟨hdraws, hbytes⟩ := ih (by simp only [hsrc]) (by simp only; omega) h
    refine ⟨by simp only at hdraws; omega, ?_⟩
    rintro (_ | j) hj
    · have hnew := hframe.below s.OPOS (Nat.lt_succ_self _)
      rwa [Memory.read_write_same] at hnew
    · have hnext := hbytes j (by omega)
      simp only at hnext
      rwa [Nat.add_right_comm, Nat.add_right_comm s.draws] at hnext

/-- Copy in closed form (R112). -/
theorem copy_repeats {n d : Nat} {s : State} (hd : 1 ≤ d) (hdp : d ≤ s.OPOS) (hroom : s.OPOS + n ≤ s.OUTCAP)
    (hwritten : OutputWritten s) :
    ∃ t, copy n d s = .ok t ∧ t.OPOS = s.OPOS + n ∧ KeepsOutOutside s.OPOS (s.OPOS + n) s t ∧
      ∀ i, i < n → Memory.read t.OUT (s.OPOS + i) = Memory.read s.OUT (s.OPOS - d + i % d) := by
  obtain ⟨t, ht, hpos, hframe⟩ := (copyLoop_spec n { s with SRC := s.OPOS - d, REM := n }).1 hroom
  refine ⟨t, ht, hpos, ?_, copyLoop_repeats (s := { s with SRC := s.OPOS - d, REM := n }) hd hdp rfl hroom hwritten ht⟩
  rintro a (hlo | hhi)
  · exact hframe.below a hlo
  · exact hframe.above a (hpos ▸ hhi)

/-! ## A duplication is its copy -/

/-- The state in which a duplication row starts its copy: the operands are in their registers, and nothing else has changed
(R100 steps a to g, R107). -/
structure CopyReady (i : Instr) (n : Nat) (msb : Sym) (lsb : Byte) (s w : State) : Prop where
  out : w.OUT = s.OUT
  pos : w.OPOS = s.OPOS
  draws : w.draws = s.draws
  src : w.SRC = s.OPOS - distance msb lsb
  count : w.CC.toNat = n
  high : w.MSB = msb
  low : w.LSB = lsb
  offset : w.OFF.toNat = distance msb lsb
  host : KeepsHostSide s w
  position : KeepsPosition s w
  result : KeepsResult s w
  key : w.KEY = s.KEY
  literal : w.EB = s.EB
  escape : ((∀ b, i ≠ .dupx b msb lsb) → w.ESC = s.ESC) ∧ ∀ b, i = .dupx b msb lsb → w.ESC = b

section

variable {i : Instr} {n : Nat} {msb : Sym} {lsb : Byte} {s : State} (hi : dupForm i = some (n, msb, lsb))

include hi

/-- Executing a duplication whose distance passes the check is copying, of at least two bytes. -/
theorem exec_dup_copies (hd : distance msb lsb ≤ s.OPOS) :
    ∃ w, CopyReady i n msb lsb s w ∧ 0 < n ∧ exec i s = settle (copyLoop n w) := by
  obtain ⟨y, c, u, hexec, rfl, hn, hu, hescOther, hescX⟩ := exec_dup hi s
  have hpos : u.OPOS = s.OPOS := by rw [hu]
  refine ⟨_, ?_, by omega, hexec.trans (duplicate_copies y c msb lsb u (hpos ▸ hd))⟩
  exact {
    out := by rw [hu]; rfl
    pos := hpos
    draws := by rw [hu]; rfl
    src := by simp only [hpos]
    count := rfl
    high := rfl
    low := rfl
    offset := assembleOffset_toNat msb lsb
    host := by rw [hu]; exact .refl s
    position := by rw [hu]; exact ⟨rfl, rfl, rfl, rfl⟩
    result := by rw [hu]; exact ⟨rfl, rfl, rfl⟩
    key := by rw [hu]; rfl
    literal := by rw [hu]; rfl
    escape := ⟨hescOther, hescX⟩ }

/-- A duplication that passes the check with room for its bytes completes its copy (R107). -/
theorem exec_dup_room (hd : distance msb lsb ≤ s.OPOS) (hroom : s.OPOS + n ≤ s.OUTCAP) :
    ∃ w t, CopyReady i n msb lsb s w ∧ exec i s = .next t ∧ copyLoop n w = .ok t ∧ t.OPOS = s.OPOS + n ∧ CopyFrame w t := by
  obtain ⟨w, hw, -, hexec⟩ := exec_dup_copies hi hd
  obtain ⟨-, -, -, hcap, -, -⟩ := hw.host
  obtain ⟨t, ht, hpos, hframe⟩ := (copyLoop_spec n w).1 (by rw [hw.pos, hcap]; exact hroom)
  exact ⟨w, t, hw, by rw [hexec, ht, settle_ok], ht, hw.pos ▸ hpos, hframe⟩

/-- A duplication that passes the check without room for its bytes raises OVF (R107, R108); it keeps OUT canonical. -/
theorem exec_dup_full (hd : distance msb lsb ≤ s.OPOS) (hfull : s.OUTCAP < s.OPOS + n) :
    ∃ t, exec i s = .next (abort .ovf t) ∧ KeepsHostSide s t ∧ (Memory.wf s.OUT = true → Memory.wf t.OUT = true) := by
  obtain ⟨w, hw, hn, hexec⟩ := exec_dup_copies hi hd
  obtain ⟨hT, hI, hL, hcap, hD, hS⟩ := hw.host
  obtain ⟨t, ht, hrest, hwf⟩ := (copyLoop_spec n w).2 (by rw [hw.pos, hcap]; exact hfull) hn
  refine ⟨t, by rw [hexec, ht, settle_raise], ?_, fun h => hwf (hw.out ▸ h)⟩
  rw [hrest]
  exact ⟨hT, hI, hL, hcap, hD, hS⟩

/-- What a completed duplication leaves unchanged. -/
theorem exec_dup_frame {t : State} (hd : distance msb lsb ≤ s.OPOS) (hroom : s.OPOS + n ≤ s.OUTCAP) (h : exec i s = .next t) :
    KeepsOutOutside s.OPOS (s.OPOS + n) s t ∧ KeepsHostSide s t ∧ KeepsPosition s t ∧ KeepsResult s t ∧
    t.KEY = s.KEY ∧ t.EB = s.EB ∧ ((∀ b, i ≠ .dupx b msb lsb) → t.ESC = s.ESC) ∧ (∀ b, i = .dupx b msb lsb → t.ESC = b) := by
  obtain ⟨w, t', hw, hexec, -, hpos, hframe⟩ := exec_dup_room hi hd hroom
  cases h.symm.trans hexec
  refine ⟨?_, ?_⟩
  · rintro a (hlo | hhi)
    · rw [hframe.below a (hw.pos ▸ hlo), hw.out]
    · rw [hframe.above a (hpos ▸ hhi), hw.out]
  · rw [hframe.rest]
    exact ⟨hw.host, hw.position, hw.result, hw.key, hw.literal, hw.escape⟩

/-- What a completed duplication has done, but for the bytes it wrote. -/
theorem exec_dup_completes (hd : distance msb lsb ≤ s.OPOS) (hroom : s.OPOS + n ≤ s.OUTCAP) :
    ∃ w t, CopyReady i n msb lsb s w ∧ copyLoop n w = .ok t ∧ exec i s = .next t ∧ t.ST = s.ST ∧ t.ERR = s.ERR ∧
      t.OPOS = s.OPOS + n ∧ t.CC.toNat = n ∧ t.MSB = msb ∧ t.LSB = lsb ∧ t.OFF.toNat = distance msb lsb := by
  obtain ⟨w, t, hw, hexec, hloop, hpos, hframe⟩ := exec_dup_room hi hd hroom
  obtain ⟨hST, hERR, -⟩ := hw.result
  refine ⟨w, t, hw, hloop, hexec, ?_, ?_, hpos, ?_⟩
  · rw [hframe.rest]
    exact hST
  · rw [hframe.rest]
    exact hERR
  · rw [hframe.rest]
    exact ⟨hw.count, hw.high, hw.low, hw.offset⟩

end

/-! ## Rows of one meaning -/

/-- Every offset row has the one meaning of its value (R81, R100 step d; log 13). -/
theorem exec_offsetRow {i : Instr} {v : Sym} (h : i.offHigh = some v) (s : State) : exec i s = .next (latchOffsetHigh v s) := by
  cases i <;> simp only [Instr.offHigh, reduceCtorEq, Option.some.injEq] at h <;> subst h <;> rfl

theorem exec_dupx_reserved {b : Byte} (msb : Sym) (lsb : Byte) (s : State) (h : 0xFD < b.toNat) :
    exec (.dupx b msb lsb) s = .fault .reservedEscape := if_neg (Nat.not_le.2 h)

/-! ## The obligations -/

/-- Settles O27: each byte of the copy is the byte one distance before it, so the last `d` bytes repeat. -/
theorem copyRepeatsThePeriod : Obligations.CopyRepeatsThePeriod := fun _ _ _ => copy_repeats

/-- Settles O34: the row copies at its distance, and a copy repeats the last `distance` bytes. -/
theorem duplicationCopiesItsCount : Obligations.DuplicationCopiesItsCount := by
  intro i n msb lsb s hi hd1 hd hroom hwritten
  obtain ⟨w, t, hw, hloop, hexec, hST, hERR, hpos, hCC, hMSB, hLSB, hOFF⟩ := exec_dup_completes hi hd hroom
  obtain ⟨-, -, -, hcap, -, -⟩ := hw.host
  refine ⟨t, hexec, hST, hERR, hpos, hCC, hMSB, hLSB, hOFF, ?_⟩
  have hbytes := copyLoop_repeats (s := w) (d := distance msb lsb) hd1 (hw.pos ▸ hd) (hw.pos ▸ hw.src)
    (by rw [hw.pos, hcap]; exact hroom) (by rw [OutputWritten, hw.pos, hw.out]; exact hwritten) hloop
  rwa [hw.pos, hw.out] at hbytes

/-- Settles O35: the row copies at distance 0, and such a copy draws a free byte for each byte. -/
theorem duplicationAtDistanceZeroWritesFreeBytes : Obligations.DuplicationAtDistanceZeroWritesFreeBytes := by
  intro i n msb lsb s hi hzero hroom
  obtain ⟨w, t, hw, hloop, hexec, hST, hERR, hpos, -⟩ := exec_dup_completes hi (hzero ▸ Nat.zero_le s.OPOS) hroom
  obtain ⟨-, -, -, hcap, -, -⟩ := hw.host
  obtain ⟨hdraws, hbytes⟩ := copyLoop_free (s := w) (by rw [hw.src, hzero, hw.pos, Nat.sub_zero])
    (by rw [hw.pos, hcap]; exact hroom) hloop
  rw [hw.draws] at hdraws hbytes
  rw [hw.pos] at hbytes
  exact ⟨t, hexec, hST, hERR, hpos, hdraws, hbytes⟩

/-- Settles O36: the row latches its operands and copies, and each has its frame. -/
theorem duplicationFrame : Obligations.DuplicationFrame := 
  fun _ _ _ _ _ _ hi hd hroom h => exec_dup_frame hi hd hroom h

/-- Settles O38: the copy raises OVF at the byte that does not fit. -/
theorem duplicationOverflowEndsTheCall : Obligations.DuplicationOverflowEndsTheCall := by
  intro i n msb lsb s hi hd hfull
  obtain ⟨t, hexec, hhost, -⟩ := exec_dup_full hi hd hfull
  exact hexec ▸ endsInError_abort .ovf hhost

/-- Settles O28: with a cell left LIT writes OUT, OPOS and EB alone. -/
theorem litWritesItsByte : Obligations.LitWritesItsByte := by
  intro e s hroom
  exact ⟨_, exec_lit_ok e hroom, Memory.read_write_same _ _ _, rfl, rfl, keepsOutOutside_write rfl, .refl s,
    ⟨rfl, rfl, rfl, rfl⟩, ⟨rfl, rfl, rfl⟩, ⟨rfl, rfl, rfl, rfl, rfl, rfl, rfl⟩, rfl, rfl, rfl⟩

/-- Settles O29: with a cell left LITX writes OUT, OPOS, EB and KEY alone, and the key is 16 - CNT. -/
theorem litxWritesTheUnmaskedByte : Obligations.LitxWritesTheUnmaskedByte := by
  intro e s hroom
  refine ⟨_, exec_litx_ok e hroom, ?_, rfl, rfl, literalKey_eq s.CNT, keepsOutOutside_write rfl, .refl s, ⟨rfl, rfl, rfl, rfl⟩,
    ⟨rfl, rfl, rfl⟩, ⟨rfl, rfl, rfl, rfl, rfl, rfl, rfl⟩, rfl, rfl⟩
  rw [Memory.read_write_same, literalKey_eq]

/-- Settles O30: both literals end the call in OVF when no cell is left. -/
theorem literalOverflowEndsTheCall : Obligations.LiteralOverflowEndsTheCall :=
  fun e s hfull => ⟨exec_literalRow_full false e (.refl s) hfull, exec_literalRow_full true e (.refl s) hfull⟩

/-- Settles O33: the control bit leaves CNT one higher, or 0 after a reload, and the key is 16 minus it. -/
theorem literalKeyByPosition : Obligations.LiteralKeyByPosition := by
  intro m r q b h
  have hkey := literalKey_toNat q.CNT
  refine ⟨?_, fun hzero => ?_⟩
  · rw [hkey]
    obtain ⟨-, ⟨hne, rfl⟩ | ⟨he, -, rfl⟩⟩ := nextBit_got h
    · have hval : r.CNT.val ≠ 15 := fun hc => hne (Fin.ext hc)
      rw [if_neg hval]
      simp only [Fin.val_add, Fin.val_one]
      omega
    · rw [he]
      rfl
  · have hlt := q.CNT.isLt
    have hpos : 0 < (literalKey q.CNT).toNat := by omega
    rw [hzero] at hpos
    exact absurd hpos (Nat.lt_irrefl 0)

/-- Settles O39: the meaning of DUPX asks for an escape byte of at most 0xFD. -/
theorem reservedEscapeByteStops : Obligations.ReservedEscapeByteStops := fun _ => exec_dupx_reserved

/-- Settles O40: SKIP writes SYM and ESC alone. -/
theorem skipChangesNothingElse : Obligations.SkipChangesNothingElse := fun s =>
  ⟨latchEscape escSkip s, rfl, rfl, rfl, rfl, rfl, .refl s, ⟨rfl, rfl, rfl, rfl⟩, ⟨rfl, rfl, rfl⟩,
    ⟨rfl, rfl, rfl, rfl, rfl, rfl, rfl⟩, rfl, rfl⟩

/-- Settles O43: every offset row writes MSB alone. -/
theorem offsetRowDeliversItsValue : Obligations.OffsetRowDeliversItsValue := fun _ v s hi =>
  ⟨latchOffsetHigh v s, exec_offsetRow hi s, rfl, rfl, rfl, .refl s, ⟨rfl, rfl, rfl, rfl⟩, ⟨rfl, rfl, rfl⟩, rfl, rfl, rfl, rfl,
    rfl, rfl, rfl, rfl, rfl, rfl⟩

end Machine

end Sys2Proof
end

section
/-! PROOFS. The statements about the step: START (R18, R141), the step of a running call (R90, R91, R124), the errors an
instruction ends in (R122, R123), the invariant (R12, R16, R32), and that every run and every call ends (R95). What a step of a
running call can do is said once (`step_running_cases`); the invariant and the termination follow from it. -/

namespace Sys2Proof

namespace Machine

/-! ## START -/

/-- A START within the contract, on a block that is not running, is performed (R18, R141). -/
theorem step_of_start {s : State} (h : s.ST ≠ .run) (hstart : s.START = true) (hcap : 1 ≤ s.OUTCAP)
    (htrees : treesUsable s.trees = true) : step s = startCall s := by
  rw [step_of_not_run h, stepIdle, if_pos hstart, acceptStart_eq hcap htrees]

theorem startCall_loads {s : State} (h : 2 ≤ s.INLEN) : startCall s = .next { s with
    ST := .run, ERR := none, START := false, WIN := (inputOf s).window 0, ICUR := 2, CNT := 0, OPOS := 0 } := by
  obtain ⟨hlt, -⟩ | ⟨-, hnext⟩ := startCall_cases s
  · omega
  · exact hnext

theorem startCall_ended {s : State} (h : s.INLEN < 2) :
    startCall s = .next (abort .eoi { s with ST := .run, ERR := none, START := false }) := by
  obtain ⟨-, hnext⟩ | ⟨hge, -⟩ := startCall_cases s
  · exact hnext
  · omega

/-! ## What executing an instruction can do -/

/-- OUT has been written in order from the old OPOS up to the new one, within the capacity (R12 c and d, R32, R108). -/
structure OutputGrows (s t : State) : Prop where
  pos_le : s.OPOS ≤ t.OPOS
  within : s.OPOS ≤ s.OUTCAP → t.OPOS ≤ s.OUTCAP
  outside : KeepsOutOutside s.OPOS t.OPOS s t
  written : ∀ a, s.OPOS ≤ a → a < t.OPOS → (Memory.read t.OUT a).isSome = true
  canonical : Memory.wf s.OUT = true → Memory.wf t.OUT = true

theorem OutputGrows.of_same {s t : State} (hout : t.OUT = s.OUT) (hpos : t.OPOS = s.OPOS) : OutputGrows s t where
  pos_le := hpos.ge
  within := fun h => hpos ▸ h
  outside := fun _ _ => by rw [hout]
  written := fun a hlo hhi => absurd hhi (by omega)
  canonical := fun h => hout ▸ h

theorem OutputGrows.of_write {s t : State} {v : Byte} (hroom : s.OPOS < s.OUTCAP) (hout : t.OUT = Memory.write s.OUT s.OPOS v)
    (hpos : t.OPOS = s.OPOS + 1) : OutputGrows s t where
  pos_le := by omega
  within := fun _ => by omega
  outside := hpos ▸ keepsOutOutside_write hout
  written := fun a hlo hhi => by
    obtain rfl : a = s.OPOS := by omega
    rw [hout, Memory.read_write_same]
    rfl
  canonical := fun h => hout ▸ Memory.wf_write _ _ h

theorem OutputGrows.outputWritten {s t : State} (h : OutputGrows s t) (hs : OutputWritten s) : OutputWritten t := by
  intro a ha
  rcases Nat.lt_or_ge a s.OPOS with hlt | hge
  · rw [h.outside a (.inl hlt)]
    exact hs a hlt
  · exact h.written a hge ha

/-- The instruction completes and the call goes on. -/
structure Completes (s t : State) : Prop where
  host : KeepsHostSide s t
  position : KeepsPosition s t
  result : KeepsResult s t
  output : OutputGrows s t

/-- The instruction raises an error; of the state after it, only what stays true is said (R124). -/
structure Raises (s t : State) : Prop where
  host : KeepsHostSide s t
  canonical : Memory.wf s.OUT = true → Memory.wf t.OUT = true

theorem Raises.refl (s : State) : Raises s s := ⟨.refl s, id⟩

theorem Raises.trans {s t u : State} (h : Raises s t) (h' : Raises t u) : Raises s u :=
  ⟨h.host.trans h'.host, h'.canonical ∘ h.canonical⟩

/-- The state END leaves (R111). -/
def endState (s : State) : State := { latchEscape escEnd s with BYTECOUNT := s.OPOS, ST := .done }

theorem exec_endMark (s : State) : exec .endMark s = .next (endState s) := rfl

/-- A literal in either mode: the byte is written, or OVF is raised (R92, R93). -/
theorem exec_literalRow (d : Bool) (e : Byte) (s : State) : exec (literalRow d e) s =
    settle (emit (literalByte d e s.CNT) { s with KEY := if d then literalKey s.CNT else s.KEY, EB := e }) := by
  cases d <;> rfl

theorem exec_literalRow_cases (d : Bool) (e : Byte) (s : State) :
    (s.OPOS < s.OUTCAP ∧ ∃ t, exec (literalRow d e) s = .next t ∧ Completes s t ∧ t.OPOS = s.OPOS + 1 ∧ t.draws = s.draws ∧
      t.OUT = Memory.write s.OUT s.OPOS (literalByte d e s.CNT)) ∨
    (s.OUTCAP ≤ s.OPOS ∧ ∃ t, exec (literalRow d e) s = .next (abort .ovf t) ∧ Raises s t ∧ t.draws = s.draws) := by
  rw [exec_literalRow]
  rcases Nat.lt_or_ge s.OPOS s.OUTCAP with hroom | hfull
  · rw [emit_ok _ (s := { s with KEY := if d then literalKey s.CNT else s.KEY, EB := e }) hroom, settle_ok]
    exact .inl ⟨hroom, _, rfl, ⟨.refl s, ⟨rfl, rfl, rfl, rfl⟩, ⟨rfl, rfl, rfl⟩, .of_write hroom rfl rfl⟩, rfl, rfl, rfl⟩
  · rw [emit_full _ (s := { s with KEY := if d then literalKey s.CNT else s.KEY, EB := e }) hfull, settle_raise]
    exact .inr ⟨hfull, _, rfl, ⟨.refl s, id⟩, rfl⟩

section

variable {i : Instr} {n : Nat} {msb : Sym} {lsb : Byte} (hi : dupForm i = some (n, msb, lsb)) (s : State)

include hi

/-- A duplication whose distance exceeds OPOS raises CORRUPT and writes nothing (R106). -/
theorem exec_dup_far (hd : s.OPOS < distance msb lsb) :
    ∃ t, exec i s = .next (abort .corrupt t) ∧ Raises s t ∧ t.draws = s.draws := by
  obtain ⟨y, c, u, hexec, rfl, hn, hu, -, -⟩ := exec_dup hi s
  have hpos : u.OPOS = s.OPOS := by rw [hu]
  have hfar := (duplicate_spec y c msb lsb u (by omega)).1 (hpos ▸ hd)
  refine ⟨_, hexec.trans hfar, ?_, ?_⟩
  · rw [hu]
    exact ⟨.refl s, id⟩
  · rw [hu]
    rfl

/-- A duplication that passes the check with room for its bytes completes (R107). -/
theorem exec_dup_done (hd : distance msb lsb ≤ s.OPOS) (hroom : s.OPOS + n ≤ s.OUTCAP) :
    ∃ t, exec i s = .next t ∧ Completes s t ∧ t.OPOS = s.OPOS + n := by
  obtain ⟨w, t, hw, hexec, -, hpos, hframe⟩ := exec_dup_room hi hd hroom
  obtain ⟨houtside, hhost, hposition, hresult, -⟩ := exec_dup_frame hi hd hroom hexec
  refine ⟨t, hexec, ⟨hhost, hposition, hresult, ?_⟩, hpos⟩
  exact {
    pos_le := by omega
    within := fun _ => hpos ▸ hroom
    outside := hpos ▸ houtside
    written := fun a hlo hhi => hframe.written a (hw.pos ▸ hlo) hhi
    canonical := fun h => hframe.canonical (hw.out ▸ h) }

/-- Everything a duplication can do (R105 to R108). -/
theorem exec_dup_cases :
    (s.OPOS < distance msb lsb ∧ ∃ t, exec i s = .next (abort .corrupt t) ∧ Raises s t) ∨
    (distance msb lsb ≤ s.OPOS ∧ s.OPOS + n ≤ s.OUTCAP ∧ ∃ t, exec i s = .next t ∧ Completes s t ∧ t.OPOS = s.OPOS + n) ∨
    (distance msb lsb ≤ s.OPOS ∧ s.OUTCAP < s.OPOS + n ∧ ∃ t, exec i s = .next (abort .ovf t) ∧ Raises s t) := by
  rcases Nat.lt_or_ge s.OPOS (distance msb lsb) with hd | hd
  · obtain ⟨t, hexec, ht, -⟩ := exec_dup_far hi s hd
    exact .inl ⟨hd, t, hexec, ht⟩
  · rcases Nat.lt_or_ge s.OUTCAP (s.OPOS + n) with hfull | hroom
    · obtain ⟨t, hexec, hhost, hwf⟩ := exec_dup_full hi hd hfull
      exact .inr (.inr ⟨hd, hfull, t, hexec, hhost, hwf⟩)
    · exact .inr (.inl ⟨hd, hroom, exec_dup_done hi s hd hroom⟩)

end

/-- Everything executing a well-formed stream instruction can do: it completes, or it is END, or it raises an error. -/
theorem exec_cases {i : Instr} (hs : i.isStream = true) (hw : i.wf = true) (s : State) :
    (∃ t, exec i s = .next t ∧ Completes s t) ∨ i = .endMark ∨ ∃ k t, exec i s = .next (abort k t) ∧ Raises s t := by
  have hliteral (d : Bool) (e : Byte) : (∃ t, exec (literalRow d e) s = .next t ∧ Completes s t) ∨
      ∃ k t, exec (literalRow d e) s = .next (abort k t) ∧ Raises s t := by
    obtain ⟨-, t, hexec, ht, -⟩ | ⟨-, t, hexec, ht, -⟩ := exec_literalRow_cases d e s
    · exact .inl ⟨t, hexec, ht⟩
    · exact .inr ⟨_, t, hexec, ht⟩
  obtain ⟨e, rfl⟩ | ⟨e, rfl⟩ | rfl | rfl | ⟨n, msb, lsb, hi⟩ := stream_cases hs hw
  · exact (hliteral false e).imp_right .inr
  · exact (hliteral true e).imp_right .inr
  · exact .inl ⟨_, rfl, .refl s, ⟨rfl, rfl, rfl, rfl⟩, ⟨rfl, rfl, rfl⟩, .of_same rfl rfl⟩
  · exact .inr (.inl rfl)
  · obtain ⟨-, t, hexec, ht⟩ | ⟨-, -, t, hexec, ht, -⟩ | ⟨-, -, t, hexec, ht⟩ := exec_dup_cases hi s
    · exact .inr (.inr ⟨_, t, hexec, ht⟩)
    · exact .inl ⟨t, hexec, ht⟩
    · exact .inr (.inr ⟨_, t, hexec, ht⟩)

/-! ## What a step of a running call can do -/

/-- The call goes on: one instruction further in the stream, OUT written in order. -/
structure GoesOn (s t : State) : Prop where
  host : KeepsHostSide s t
  result : KeepsResult s t
  output : OutputGrows s t
  advances : s.ICUR < t.ICUR
  inside : t.ICUR ≤ s.INLEN

/-- Everything a step of a running call without a START can do: the call goes on, ends at an END it fetched, or ends in an
error. -/
theorem step_running_cases {s : State} (hrun : s.ST = .run) (hstart : s.START = false) :
    (∃ t, step s = .next t ∧ GoesOn s t) ∨
    (∃ r, fetch s = .got .endMark (putReader r s) ∧ step s = .next (endState (putReader r s)) ∧ s.ICUR < r.ICUR) ∨
    ∃ k t, step s = .next (abort k t) ∧ Raises s t := by
  rw [step_of_run hrun hstart]
  obtain ⟨i, r, hdec, hfetch⟩ | ⟨e, r, -, hfetch⟩ := fetch_cases s
  · obtain ⟨hlt, hle⟩ := decodeWith_advances hdec
    obtain ⟨hw, hs, -⟩ := decodeWith_got_wf hdec
    have hraises : Raises s (putReader r s) := ⟨keepsHostSide_putReader r s, id⟩
    rw [hfetch]
    obtain ⟨t, hexec, hhost, ⟨-, -, hcur, -⟩, hresult, hgrows⟩ | rfl | ⟨k, t, hexec, ht⟩ := exec_cases hs hw (putReader r s)
    · refine .inl ⟨t, hexec, hraises.host.trans hhost, hresult, ?_, hcur ▸ hlt, hcur ▸ hle⟩
      exact ⟨hgrows.pos_le, hgrows.within, hgrows.outside, hgrows.written, hgrows.canonical⟩
    · exact .inr (.inl ⟨r, rfl, exec_endMark _, hlt⟩)
    · exact .inr (.inr ⟨k, t, hexec, hraises.trans ht⟩)
  · rw [hfetch]
    exact .inr (.inr ⟨_, _, rfl, keepsHostSide_putReader r s, id⟩)

/-- The same, for a step known to answer a next state: then no START was pending. -/
theorem step_running_next {s t : State} (hrun : s.ST = .run) (h : step s = .next t) :
    s.START = false ∧ (GoesOn s t ∨
      (∃ r, fetch s = .got .endMark (putReader r s) ∧ t = endState (putReader r s) ∧ s.ICUR < r.ICUR) ∨
      ∃ k u, t = abort k u ∧ Raises s u) := by
  have hstart : s.START = false := by
    obtain ⟨-, hstart, -⟩ | ⟨hne, -⟩ | ⟨hne, -⟩ := step_cases h
    · exact hstart
    · exact absurd hrun hne
    · exact absurd hrun hne
  refine ⟨hstart, ?_⟩
  obtain ⟨u, hu, hgo⟩ | ⟨r, hfetch, hu, hlt⟩ | ⟨k, u, hu, hr⟩ := step_running_cases hrun hstart
  · cases hu.symm.trans h
    exact .inl hgo
  · cases hu.symm.trans h
    exact .inr (.inl ⟨r, hfetch, rfl, hlt⟩)
  · cases hu.symm.trans h
    exact .inr (.inr ⟨k, u, rfl, hr⟩)

/-! ## The invariant -/

theorem invariant_powerOn {T : Trees} (h : treesUsable T = true) : Invariant (State.powerOn T) :=
  ⟨h, rfl, rfl, by simp, nofun, nofun⟩

/-- A state with an error taken meets the invariant if the trees and the memories do. -/
theorem invariant_abort {k : ErrKind} {s : State} (htrees : treesUsable s.trees = true) (hin : Memory.wf s.IN = true)
    (hout : Memory.wf s.OUT = true) : Invariant (abort k s) :=
  ⟨htrees, hin, hout, by simp, nofun, nofun⟩

theorem invariant_startCall {s t : State} (hs : Invariant s) (h : startCall s = .next t) : Invariant t := by
  obtain ⟨htrees, hin, hout, -⟩ := hs
  rcases Nat.lt_or_ge s.INLEN 2 with hshort | hlong
  · cases (startCall_ended hshort).symm.trans h
    exact invariant_abort htrees hin hout
  · cases (startCall_loads hlong).symm.trans h
    exact ⟨htrees, hin, hout, by simp,
      fun _ => ⟨Nat.le_refl 2, hlong, Nat.zero_le _, fun a ha => absurd ha (Nat.not_lt_zero a)⟩, nofun⟩

theorem invariant_running_step {s t : State} (hs : Invariant s) (hrun : s.ST = .run) (h : step s = .next t) : Invariant t := by
  obtain ⟨htrees, hin, hout, herr, hsession, -⟩ := hs
  obtain ⟨hlo, hhi, hcap, hwritten⟩ := hsession hrun
  have hnone : s.ERR = none := herr.2 (by simp [hrun])
  obtain ⟨-, hgo | ⟨r, -, rfl, -⟩ | ⟨k, u, rfl, ⟨hT, hI, -⟩, hwf⟩⟩ := step_running_next hrun h
  · obtain ⟨⟨hT, hI, hL, hC, -, -⟩, ⟨hST, hERR, -⟩, hgrows, hlt, hle⟩ := hgo
    have hSTrun : t.ST = .run := hST.trans hrun
    refine ⟨hT ▸ htrees, hI ▸ hin, hgrows.canonical hout, ?_, fun _ => ?_, fun hdone => ?_⟩
    · simp [hERR, hnone, hSTrun]
    · exact ⟨by omega, hL ▸ hle, hC ▸ hgrows.within hcap, hgrows.outputWritten hwritten⟩
    · cases hSTrun.symm.trans hdone
  · exact ⟨htrees, hin, hout, by simpa [endState] using hnone, nofun, fun _ => ⟨rfl, hwritten⟩⟩
  · exact invariant_abort (hT ▸ htrees) (hI ▸ hin) (hwf hout)

theorem invariant_step {s t : State} (hs : Invariant s) (h : step s = .next t) : Invariant t := by
  obtain ⟨hrun, -⟩ | ⟨-, -, rfl⟩ | ⟨-, -, -, -, hcall⟩ := step_cases h
  · exact invariant_running_step hs hrun h
  · exact hs
  · exact invariant_startCall hs hcall

theorem invariant_hostLoad {s : State} (bytes : List Byte) (outcap : Nat) (d : Bool) (hidle : s.ST ≠ .run) (hs : Invariant s) :
    Invariant (hostLoad bytes outcap d s) := by
  obtain ⟨htrees, -, hout, herr, -, hdone⟩ := hs
  exact ⟨htrees, Memory.wf_ofBytes 0 bytes, hout, herr, fun hrun => absurd hrun hidle, hdone⟩

theorem invariant_hostStart {s : State} (hs : Invariant s) : Invariant (hostStart s) := hs

/-! ## Every run ends -/

/-- The call has ended, well or in an error. -/
abbrev Ended (s : State) : Prop := s.ST = .done ∨ s.ST = .err

theorem runSteps_ended (k : Nat) {s : State} (h : Ended s) (hstart : s.START = false) : runSteps k s = .next s := by
  refine runSteps_quiescent k ?_ hstart
  obtain h | h := h <;> simp [h]

/-- A running call ends within one step more than bytes are left: each step that goes on consumes at least one (R95). -/
theorem runSteps_ends (k : Nat) {s : State} (hinv : Invariant s) (hrun : s.ST = .run) (hstart : s.START = false)
    (hk : s.INLEN < s.ICUR + k) : ∃ t, runSteps k s = .next t ∧ Ended t ∧ Invariant t := by
  induction k generalizing s with
  | zero =>
    obtain ⟨-, -, -, -, hsession, -⟩ := hinv
    obtain ⟨-, hhi, -⟩ := hsession hrun
    omega
  | succ k ih =>
    have hended {t : State} (hnext : step s = .next t) (ht : Ended t) (htstart : t.START = false) :
        ∃ t, runSteps (k + 1) s = .next t ∧ Ended t ∧ Invariant t :=
      ⟨t, by rw [runSteps_succ k hnext, runSteps_ended k ht htstart], ht, invariant_step hinv hnext⟩
    obtain ⟨t, hnext, hgo⟩ | ⟨r, -, hnext, -⟩ | ⟨e, t, hnext, hr⟩ := step_running_cases hrun hstart
    · obtain ⟨⟨-, -, hL, -, -, hS⟩, ⟨hST, -⟩, -, hlt, -⟩ := hgo
      rw [runSteps_succ k hnext]
      exact ih (invariant_step hinv hnext) (hST.trans hrun) (hS.trans hstart) (by omega)
    · exact hended hnext (.inl rfl) hstart
    · obtain ⟨-, -, -, -, -, hS⟩ := hr.host
      exact hended hnext (.inr rfl) (hS.trans hstart)

/-- After a START within the contract the call ends within its bytes' steps. -/
theorem runSteps_start_ends {s : State} (hinv : Invariant s) (hidle : s.ST ≠ .run) (hstart : s.START = true)
    (hcap : 1 ≤ s.OUTCAP) : ∃ t, runSteps (1 + 8 * s.INLEN) s = .next t ∧ Ended t ∧ Invariant t := by
  have hcall := step_of_start hidle hstart hcap hinv.1
  rw [Nat.add_comm]
  rcases Nat.lt_or_ge s.INLEN 2 with hshort | hlong
  · have hnext := hcall.trans (startCall_ended hshort)
    rw [runSteps_succ _ hnext]
    exact ⟨_, runSteps_ended _ (.inr rfl) rfl, .inr rfl, invariant_step hinv hnext⟩
  · have hnext := hcall.trans (startCall_loads hlong)
    rw [runSteps_succ _ hnext]
    exact runSteps_ends _ (invariant_step hinv hnext) rfl rfl (by simp only; omega)

/-! ## The error of an executed instruction -/

theorem exec_literalRow_err {d : Bool} {e : Byte} {s t : State} (h : exec (literalRow d e) s = .next t) :
    t.ERR = if s.OPOS < s.OUTCAP then s.ERR else some .ovf := by
  obtain ⟨hroom, u, hu, hdone, -⟩ | ⟨hfull, u, hu, -⟩ := exec_literalRow_cases d e s
  · cases hu.symm.trans h
    obtain ⟨-, hERR, -⟩ := hdone.result
    rw [if_pos hroom, hERR]
  · cases hu.symm.trans h
    rw [if_neg hfull.not_gt, abort_ERR]

theorem exec_dup_err {i : Instr} {n : Nat} {msb : Sym} {lsb : Byte} {s t : State} (hi : dupForm i = some (n, msb, lsb))
    (h : exec i s = .next t) : t.ERR =
      if s.OPOS < distance msb lsb then some .corrupt else if s.OUTCAP < s.OPOS + n then some .ovf else s.ERR := by
  obtain ⟨hd, u, hu, -⟩ | ⟨hd, hroom, u, hu, hdone, -⟩ | ⟨hd, hfull, u, hu, -⟩ := exec_dup_cases hi s
  · cases hu.symm.trans h
    rw [if_pos hd, abort_ERR]
  · cases hu.symm.trans h
    obtain ⟨-, hERR, -⟩ := hdone.result
    rw [if_neg hd.not_gt, if_neg hroom.not_gt, hERR]
  · cases hu.symm.trans h
    rw [if_neg hd.not_gt, if_pos hfull, abort_ERR]

/-! ## The obligations -/

/-- Settles O51: a step of a running call keeps the invariant in each of the three things it can do, and so does START. -/
theorem everyStepKeepsTheInvariant : Obligations.EveryStepKeepsTheInvariant := fun _ _ => invariant_step

/-- Settles O55: each step that goes on consumes a byte, and at most INLEN - 2 are left. -/
theorem everyRunEnds : Obligations.EveryRunEnds := by
  intro s hinv hrun hstart
  obtain ⟨-, -, -, -, hsession, -⟩ := id hinv
  obtain ⟨hlo, hhi, -⟩ := hsession hrun
  obtain ⟨t, ht, hended, -⟩ := runSteps_ends (8 * s.INLEN) hinv hrun hstart (by omega)
  exact ⟨t, ht, hended⟩

/-- Settles O56: the host's moves keep the invariant, and the call that START begins ends. -/
theorem everyCallEnds : Obligations.EveryCallEnds := fun _ bytes outcap d hidle hinv hcap =>
  runSteps_start_ends (invariant_hostStart (invariant_hostLoad bytes outcap d hidle hinv)) hidle rfl hcap

/-- Settles O47: each of the three things a step of a running call can do answers a next state. -/
theorem runningCallAlwaysSteps : Obligations.RunningCallAlwaysSteps := by
  intro s hrun hstart
  obtain ⟨t, hnext, hgo⟩ | ⟨r, -, hnext, -⟩ | ⟨k, t, hnext, -⟩ := step_running_cases hrun hstart
  · obtain ⟨hST, -⟩ := hgo.result
    exact ⟨t, hnext, by simp [hST, hrun]⟩
  · exact ⟨_, hnext, by simp [endState]⟩
  · exact ⟨_, hnext, by simp⟩

/-- Settles O48: by the error each kind of instruction leaves in ERR. -/
theorem errorsOfTheFetchedInstruction : Obligations.ErrorsOfTheFetchedInstruction := by
  intro s q t i hrun hstart hnone hfetch hstep
  rw [step_of_run hrun hstart, hfetch] at hstep
  obtain ⟨r, -, rfl⟩ := fetch_got hfetch
  refine ⟨fun e he => ?_, fun he => ?_, fun n msb lsb hi => ?_⟩
  · have herr : t.ERR = if s.OPOS < s.OUTCAP then none else some .ovf := by
      rw [← hnone]
      obtain rfl | rfl := he
      · exact exec_literalRow_err (d := false) (s := { s with toReader := r }) hstep
      · exact exec_literalRow_err (d := true) (s := { s with toReader := r }) hstep
    rw [herr]
    split <;> simp <;> omega
  · obtain rfl | rfl := he
    · cases hstep
      exact ⟨hnone, by simp [hrun]⟩
    · cases hstep
      exact ⟨hnone, nofun⟩
  · have herr := exec_dup_err hi hstep
    simp only [hnone] at herr
    rw [herr]
    split
    · simp
      omega
    · split <;> simp <;> omega

/-- Settles O49: of the three things a step of a running call can do, only END ends it well. -/
theorem onlyEndEndsWell : Obligations.OnlyEndEndsWell := by
  intro s t hinv hrun hstep hdone
  obtain ⟨-, -, -, -, hsession, -⟩ := hinv
  obtain ⟨-, -, hcap, hwritten⟩ := hsession hrun
  obtain ⟨-, hgo | ⟨r, hfetch, rfl, -⟩ | ⟨k, u, rfl, -⟩⟩ := step_running_next hrun hstep
  · obtain ⟨hST, -⟩ := hgo.result
    cases (hST.trans hrun).symm.trans hdone
  · exact ⟨⟨_, hfetch⟩, rfl, hcap, hostView_of_done rfl, hwritten⟩
  · cases hdone

/-- Settles O54: a call that goes on writes OUT in order, and END writes nothing. -/
theorem outputIsWrittenOnceInOrder : Obligations.OutputIsWrittenOnceInOrder := by
  intro s t hrun hstep hne
  obtain ⟨-, hgo | ⟨r, -, rfl, hlt⟩ | ⟨k, u, rfl, -⟩⟩ := step_running_next hrun hstep
  · exact ⟨hgo.advances.le, hgo.output.pos_le, hgo.output.outside, hgo.output.written⟩
  · have hsame : OutputGrows s (endState (putReader r s)) := .of_same rfl rfl
    exact ⟨hlt.le, hsame.pos_le, hsame.outside, hsame.written⟩
  · exact absurd rfl hne

/-- Settles O3: a START within the contract is performed, and Init has its two outcomes. -/
theorem startCreatesTheSession : Obligations.StartCreatesTheSession := by
  intro s hidle hstart hcap htrees
  have hcall := step_of_start hidle hstart hcap htrees
  constructor
  · intro hlong
    exact ⟨_, hcall.trans (startCall_loads hlong), rfl, rfl, rfl, rfl, rfl, rfl, rfl, rfl, ⟨rfl, rfl, rfl, rfl, rfl, rfl⟩⟩
  · intro hshort
    exact ⟨_, hcall.trans (startCall_ended hshort), rfl, rfl, rfl, ⟨rfl, rfl, rfl, rfl, rfl, rfl⟩⟩

/-- Settles O4: by the three tests a START has to pass. -/
theorem startOutsideTheContractIsRefused : Obligations.StartOutsideTheContractIsRefused := by
  intro s hstart
  refine ⟨fun hrun => ?_, fun hidle hcap => ?_, fun hidle hcap htrees => ?_⟩
  · simp [step, hrun, stepRun, hstart]
  · rw [step_of_not_run hidle, stepIdle, if_pos hstart, acceptStart, if_pos hcap]
  · rw [step_of_not_run hidle, stepIdle, if_pos hstart, acceptStart, if_neg (by omega), if_neg (by simp [htrees])]

/-- Settles O5: without a START the idle branch answers the state itself. -/
theorem blockIsQuiescentUntilStart : Obligations.BlockIsQuiescentUntilStart := by
  intro s hidle hstart
  rw [step_of_not_run hidle, stepIdle, if_neg (by simp [hstart])]

/-- Settles O44: fetching puts the decoder's reader into the state, and the step executes what was fetched. -/
theorem stepRunsTheDecodedInstruction : Obligations.StepRunsTheDecodedInstruction :=
  fun _ _ _ hrun hstart hdec => step_of_decode_got hrun hstart hdec

/-- Settles O45: fetching an `off` item puts the decoder's reader into the state, and the row fetched is executed. -/
theorem offsetItemRunsTheDecodedRow : Obligations.OffsetItemRunsTheDecodedRow := by
  intro s i r hdec
  have hfetch : fetchOffset s = .got i (putReader r s) := by simp [fetchOffset, hdec]
  rw [runOffsetItem, hfetch]
  rfl

/-- Settles O46: the rejection of a read is taken as an error of its kind. -/
theorem failedReadEndsTheCall : Obligations.FailedReadEndsTheCall := by
  refine ⟨fun s e r hrun hstart hdec => ?_, fun k s => endsInError_abort k (.refl s), rfl, rfl⟩
  have hends := step_of_decode_stop hrun hstart hdec
  exact ⟨fun he => by rwa [he] at hends, fun he => by rwa [he] at hends⟩

/-- Settles O50: at power-on both memories are empty and no call has begun. -/
theorem powerOnMeetsTheInvariant : Obligations.PowerOnMeetsTheInvariant :=
  ⟨invariant_powerOn defaultTrees_usable, fun _ => invariant_powerOn⟩

/-- Settles O52: a placed region is canonical, and neither move touches what the invariant says of a block that is not
running. -/
theorem hostMovesKeepTheInvariant : Obligations.HostMovesKeepTheInvariant :=
  fun _ bytes outcap d hidle hs => ⟨invariant_hostLoad bytes outcap d hidle hs, invariant_hostStart hs⟩

end Machine

end Sys2Proof
end

section
/-! PROOFS. The statements that relate two blocks (10_state.md R13, R14, R19, R23; 70_reset_and_hazards.md R143): what DECRYPT,
the bytes of OUT, the free values and the transient registers cannot influence, and what START forgets. Each is a relation that
two steps keep; two states of one session are two states under the same control that hold the same data. -/

namespace Sys2Proof

namespace Machine

/-! ## START in two blocks -/

/-- START depends on the call before it alone (R23). -/
theorem startCall_sameSession {s t s' : State} (h : SameCall s t) (hs : startCall s = .next s') :
    ∃ t', startCall t = .next t' ∧ SameSession s' t' := by
  obtain ⟨hT, hI, hL, hC, hD, hN⟩ := h
  rcases Nat.lt_or_ge s.INLEN 2 with hshort | hlong
  · cases (startCall_ended hshort).symm.trans hs
    refine ⟨_, startCall_ended (hL ▸ hshort), ⟨hT, hI, hL, hC, hD, hN⟩, rfl, rfl, rfl, ?_, nofun⟩
    simp
  · cases (startCall_loads hlong).symm.trans hs
    have hwin : (inputOf t).window 0 = (inputOf s).window 0 := by rw [inputOf, inputOf, hI, hL]
    exact ⟨_, startCall_loads (hL ▸ hlong), ⟨hT, hI, hL, hC, hD, hN⟩, rfl, rfl, rfl,
      fun _ => ⟨hwin, rfl, rfl, rfl, fun a ha => absurd ha (Nat.not_lt_zero a)⟩, nofun⟩

/-- Whatever DECRYPT, OUT and the free values are, START leaves two blocks with one input under the same control. -/
theorem startCall_sameControl {s t s' : State} (h : SameControl s t) (hs : startCall s = .next s') :
    ∃ t', startCall t = .next t' ∧ SameControl s' t' := by
  obtain ⟨hT, hI, hL, hC, -⟩ := h
  rcases Nat.lt_or_ge s.INLEN 2 with hshort | hlong
  · cases (startCall_ended hshort).symm.trans hs
    refine ⟨_, startCall_ended (hL ▸ hshort), hT, hI, hL, hC, rfl, rfl, rfl, ?_, nofun⟩
    simp
  · cases (startCall_loads hlong).symm.trans hs
    have hwin : (inputOf t).window 0 = (inputOf s).window 0 := by rw [inputOf, inputOf, hI, hL]
    exact ⟨_, startCall_loads (hL ▸ hlong), hT, hI, hL, hC, rfl, rfl, rfl, fun _ => ⟨hwin, rfl, rfl, rfl⟩, nofun⟩

/-! ## Executing under the same control -/

section

variable {s t : State} (h : SameControl s t)

include h

theorem sameControl_abort {u v : State} (k : ErrKind) (hu : KeepsHostSide s u) (hv : KeepsHostSide t v) :
    SameControl (abort k u) (abort k v) := by
  obtain ⟨hT, hI, hL, hC, hS, -⟩ := h
  obtain ⟨uT, uI, uL, uC, -, uS⟩ := hu
  obtain ⟨vT, vI, vL, vC, -, vS⟩ := hv
  refine ⟨?_, ?_, ?_, ?_, ?_, rfl, rfl, ?_, nofun⟩
  · simp only [abort_trees, uT, vT, hT]
  · simp only [abort_IN, uI, vI, hI]
  · simp only [abort_INLEN, uL, vL, hL]
  · simp only [abort_OUTCAP, uC, vC, hC]
  · simp only [abort_START, uS, vS, hS]
  · simp

variable (hrun : s.ST = .run)

include hrun

theorem sameControl_pos : t.OUTCAP = s.OUTCAP ∧ t.CNT = s.CNT ∧ t.OPOS = s.OPOS := by
  obtain ⟨-, -, -, hC, -, -, -, hsession, -⟩ := h
  obtain ⟨-, hcnt, -, hpos⟩ := hsession (.inl hrun)
  exact ⟨hC, hcnt, hpos⟩

theorem sameControl_completes {u v : State} (hu : Completes s u) (hv : Completes t v) (hpos : v.OPOS = u.OPOS) :
    SameControl u v := by
  obtain ⟨hT, hI, hL, hC, hS, hST, hERR, hsession, -⟩ := h
  obtain ⟨hwin, hcnt, hcur, -⟩ := hsession (.inl hrun)
  obtain ⟨⟨uT, uI, uL, uC, -, uS⟩, ⟨uwin, ucnt, ucur, -⟩, ⟨uST, uERR, -⟩, -⟩ := hu
  obtain ⟨⟨vT, vI, vL, vC, -, vS⟩, ⟨vwin, vcnt, vcur, -⟩, ⟨vST, vERR, -⟩, -⟩ := hv
  refine ⟨?_, ?_, ?_, ?_, ?_, ?_, ?_, fun _ => ⟨?_, ?_, ?_, hpos⟩, fun hdone => ?_⟩
  · rw [uT, vT, hT]
  · rw [uI, vI, hI]
  · rw [uL, vL, hL]
  · rw [uC, vC, hC]
  · rw [uS, vS, hS]
  · rw [uST, vST, hST]
  · rw [uERR, vERR, hERR]
  · rw [uwin, vwin, hwin]
  · rw [ucnt, vcnt, hcnt]
  · rw [ucur, vcur, hcur]
  · rw [uST, hrun] at hdone
    cases hdone

/-- The two modes of a literal write one cell each, or raise OVF both (R92, R93). -/
theorem exec_literalRow_sameControl {d : Bool} {e : Byte} {s' : State} (d' : Bool) (hs : exec (literalRow d e) s = .next s') :
    ∃ t', exec (literalRow d' e) t = .next t' ∧ SameControl s' t' := by
  obtain ⟨hcap, -, hpos⟩ := sameControl_pos h hrun
  obtain ⟨hroom, u, hu, hdone, hupos, -⟩ | ⟨hfull, u, hu, hraise, -⟩ := exec_literalRow_cases d e s
  · cases hu.symm.trans hs
    obtain ⟨-, v, hv, hvdone, hvpos, -⟩ | ⟨hfull, -⟩ := exec_literalRow_cases d' e t
    · exact ⟨v, hv, sameControl_completes h hrun hdone hvdone (by omega)⟩
    · omega
  · cases hu.symm.trans hs
    obtain ⟨hroom, -⟩ | ⟨-, v, hv, hvraise, -⟩ := exec_literalRow_cases d' e t
    · omega
    · exact ⟨_, hv, sameControl_abort h .ovf hraise.host hvraise.host⟩

/-- A duplication's three outcomes depend on OPOS and OUTCAP alone. -/
theorem exec_dup_sameControl {i : Instr} {n : Nat} {msb : Sym} {lsb : Byte} {s' : State} (hi : dupForm i = some (n, msb, lsb))
    (hs : exec i s = .next s') : ∃ t', exec i t = .next t' ∧ SameControl s' t' := by
  obtain ⟨hcap, -, hpos⟩ := sameControl_pos h hrun
  obtain ⟨hd, u, hu, hraise⟩ | ⟨hd, hroom, u, hu, hdone, hupos⟩ | ⟨hd, hfull, u, hu, hraise⟩ := exec_dup_cases hi s
  all_goals cases hu.symm.trans hs
  · obtain ⟨v, hv, hvraise, -⟩ := exec_dup_far hi t (hpos ▸ hd)
    exact ⟨_, hv, sameControl_abort h .corrupt hraise.host hvraise.host⟩
  · obtain ⟨v, hv, hvdone, hvpos⟩ := exec_dup_done hi t (hpos ▸ hd) (by omega)
    exact ⟨v, hv, sameControl_completes h hrun hdone hvdone (by omega)⟩
  · obtain ⟨v, hv, hvhost, -⟩ := exec_dup_full hi (s := t) (hpos ▸ hd) (by omega)
    exact ⟨_, hv, sameControl_abort h .ovf hraise.host hvhost⟩

theorem exec_endMark_sameControl : SameControl (endState s) (endState t) := by
  obtain ⟨hT, hI, hL, hC, hS, -, hERR, hsession, -⟩ := h
  obtain ⟨hwin, hcnt, hcur, hpos⟩ := hsession (.inl hrun)
  exact ⟨hT, hI, hL, hC, hS, rfl, hERR, fun _ => ⟨hwin, hcnt, hcur, hpos⟩, fun _ => hpos⟩

/-- The same instruction, executed under the same control, leaves the same control. -/
theorem exec_sameControl {i : Instr} {s' : State} (hstream : i.isStream = true) (hw : i.wf = true) (hs : exec i s = .next s') :
    ∃ t', exec i t = .next t' ∧ SameControl s' t' := by
  obtain ⟨e, rfl⟩ | ⟨e, rfl⟩ | rfl | rfl | ⟨n, msb, lsb, hi⟩ := stream_cases hstream hw
  · exact exec_literalRow_sameControl h hrun (d := false) false hs
  · exact exec_literalRow_sameControl h hrun (d := true) true hs
  · cases hs
    exact ⟨_, rfl, h⟩
  · cases hs
    exact ⟨_, rfl, exec_endMark_sameControl h hrun⟩
  · exact exec_dup_sameControl h hrun hi hs

end

/-! ## A step under the same control -/

/-- Two readers at one position, put into states under the same control. -/
theorem sameControl_putReader {s t : State} {r p : Reader} (h : SameControl s t) (hrun : s.ST = .run)
    (hpos : p.samePosition r) : SameControl (putReader r s) (putReader p t) := by
  obtain ⟨hT, hI, hL, hC, hS, hST, hERR, hsession, hcount⟩ := h
  obtain ⟨-, -, -, hO⟩ := hsession (.inl hrun)
  obtain ⟨hwin, hcnt, hcur⟩ := hpos
  exact ⟨hT, hI, hL, hC, hS, hST, hERR, fun _ => ⟨hwin, hcnt, hcur, hO⟩, hcount⟩

/-- Under the same control the decoder answers alike in both blocks, for one DECRYPT. -/
theorem decodeWith_sameControl {s t : State} (h : SameControl s t) (hrun : s.ST = .run) (d : Bool) :
    SameAnswer (decodeWith s.trees d (inputOf s) s.toReader) (decodeWith t.trees d (inputOf t) t.toReader) := by
  obtain ⟨hT, hI, hL, -, -, -, -, hsession, -⟩ := h
  obtain ⟨hwin, hcnt, hcur, -⟩ := hsession (.inl hrun)
  rw [inputOf, inputOf, hT, hI, hL]
  exact decodeWith_congr _ _ _ ⟨hwin.symm, hcnt.symm, hcur.symm⟩

theorem running_step_sameControl {s t s' : State} (h : SameControl s t) (hrun : s.ST = .run) (hstart : s.START = false)
    (hs : step s = .next s') : ∃ t', step t = .next t' ∧ SameControl s' t' := by
  obtain ⟨-, -, -, -, hS, hST, -⟩ := id h
  have hrun' : t.ST = .run := hST.trans hrun
  have hstart' : t.START = false := hS.trans hstart
  have hsame := decodeWith_sameControl h hrun t.DECRYPT
  cases hdec : decodeWith s.trees s.DECRYPT (inputOf s) s.toReader with
  | got i r =>
    rw [step_of_decode_got hrun hstart hdec] at hs
    obtain ⟨hw, hstream, -⟩ := decodeWith_got_wf hdec
    obtain ⟨j, q, hother, hpos, hij⟩ := decodeWith_got_other_mode hdec t.DECRYPT
    rw [hother] at hsame
    obtain ⟨p, hp, hpos'⟩ := hsame.got_left
    have hcontrol := sameControl_putReader h hrun (hpos'.symm.trans hpos)
    rw [step_of_decode_got hrun' hstart' hp]
    obtain ⟨e, rfl, rfl⟩ | ⟨rfl, -⟩ := hij
    · exact exec_literalRow_sameControl hcontrol hrun _ hs
    · exact exec_sameControl hcontrol hrun hstream hw hs
  | stop e r =>
    obtain ⟨q, hother, -⟩ := decodeWith_stop_other_mode hdec t.DECRYPT
    rw [hother] at hsame
    obtain ⟨p, hp, -⟩ := hsame.stop_left
    rw [step_of_run hrun hstart, fetch_of_stop hdec] at hs
    rw [step_of_run hrun' hstart', fetch_of_stop hp]
    cases hs
    exact ⟨_, rfl, sameControl_abort h _ (keepsHostSide_putReader r s) (keepsHostSide_putReader p t)⟩

theorem step_sameControl {s t s' : State} (h : SameControl s t) (hs : step s = .next s') :
    ∃ t', step t = .next t' ∧ SameControl s' t' := by
  obtain ⟨hT, -, -, hC, hS, hST, -⟩ := id h
  obtain ⟨hrun, hstart, -⟩ | ⟨hidle, hstart, rfl⟩ | ⟨hidle, hstart, hcap, htrees, hcall⟩ := step_cases hs
  · exact running_step_sameControl h hrun hstart hs
  · refine ⟨t, ?_, h⟩
    rw [step_of_not_run (hST ▸ hidle), stepIdle, if_neg (by simp [hS, hstart])]
  · rw [step_of_start (hST ▸ hidle) (hS.trans hstart) (hC ▸ hcap) (hT ▸ htrees)]
    exact startCall_sameControl h hcall

/-! ## The same data -/

/-- The two states hold the same data: one DECRYPT, the same free values to come, and, while a call runs or after it ended well,
the same output. -/
structure SameData (s t : State) : Prop where
  decrypt : t.DECRYPT = s.DECRYPT
  draws : t.draws = s.draws
  out : s.ST = .run ∨ s.ST = .done → ∀ a, a < s.OPOS → Memory.read t.OUT a = Memory.read s.OUT a

/-- The same point of the same call: the same control and the same data. -/
theorem sameSession_iff (s t : State) : SameSession s t ↔ SameControl s t ∧ SameData s t := by
  constructor
  · rintro ⟨⟨hT, hI, hL, hC, hD, hN⟩, hS, hST, hERR, hsession, hcount⟩
    refine ⟨⟨hT, hI, hL, hC, hS, hST, hERR, fun hlive => ?_, hcount⟩, hD, hN, fun hlive => ?_⟩
    · obtain ⟨hwin, hcnt, hcur, hpos, -⟩ := hsession hlive
      exact ⟨hwin, hcnt, hcur, hpos⟩
    · obtain ⟨-, -, -, -, hout⟩ := hsession hlive
      exact hout
  · rintro ⟨⟨hT, hI, hL, hC, hS, hST, hERR, hsession, hcount⟩, hD, hN, hout⟩
    refine ⟨⟨hT, hI, hL, hC, hD, hN⟩, hS, hST, hERR, fun hlive => ?_, hcount⟩
    obtain ⟨hwin, hcnt, hcur, hpos⟩ := hsession hlive
    exact ⟨hwin, hcnt, hcur, hpos, hout hlive⟩

/-- Two states about to copy the same bytes. -/
structure CopyAgree (s t : State) : Prop where
  pos : t.OPOS = s.OPOS
  cap : t.OUTCAP = s.OUTCAP
  src : t.SRC = s.SRC
  draws : t.draws = s.draws
  below : ∀ a, a < s.OPOS → Memory.read t.OUT a = Memory.read s.OUT a

/-- A read of OUT depends on what was written below OPOS and on the free values to come (R107, R109). -/
theorem readOut_agree {s t : State} (h : CopyAgree s t) (a : Nat) :
    (readOut a t).1 = (readOut a s).1 ∧ (readOut a t).2.draws = (readOut a s).2.draws := by
  obtain ⟨hpos, -, -, hdraws, hbelow⟩ := h
  unfold readOut
  rw [hpos, hdraws]
  by_cases ha : a < s.OPOS
  · rw [if_pos ha, if_pos ha, hbelow a ha]
    cases Memory.read s.OUT a with
    | none => exact ⟨rfl, rfl⟩
    | some v => exact ⟨rfl, hdraws⟩
  · rw [if_neg ha, if_neg ha]
    exact ⟨rfl, rfl⟩

/-- Writing one byte at OPOS in both states keeps the output below the new OPOS the same. -/
theorem read_write_agree {s t : State} (hpos : t.OPOS = s.OPOS) (v : Byte)
    (h : ∀ a, a < s.OPOS → Memory.read t.OUT a = Memory.read s.OUT a) :
    ∀ a, a < s.OPOS + 1 → Memory.read (Memory.write t.OUT t.OPOS v) a = Memory.read (Memory.write s.OUT s.OPOS v) a := by
  intro a ha
  rw [hpos]
  by_cases he : a = s.OPOS
  · rw [he, Memory.read_write_same, Memory.read_write_same]
  · rw [Memory.read_write_other _ _ _ _ he, Memory.read_write_other _ _ _ _ he]
    exact h a (by omega)

/-- Two states that agree copy the same bytes, or raise OVF after the same draws. -/
theorem copyLoop_agree (n : Nat) {s t : State} (h : CopyAgree s t) :
    (∃ s' t', copyLoop n s = .ok s' ∧ copyLoop n t = .ok t' ∧ CopyAgree s' t') ∨
    ∃ s' t', copyLoop n s = .raise .ovf s' ∧ copyLoop n t = .raise .ovf t' ∧ t'.draws = s'.draws := by
  induction n generalizing s t with
  | zero => exact .inl ⟨s, t, rfl, rfl, h⟩
  | succ n ih =>
    obtain ⟨hbyte, hread⟩ := readOut_agree h s.SRC
    obtain ⟨hpos, hcap, hsrc, hdraws, hbelow⟩ := h
    rcases Nat.lt_or_ge s.OPOS s.OUTCAP with hroom | hfull
    · have hs := copyByte_ok hroom
      have ht := copyByte_ok (s := t) (by omega)
      rw [hsrc, hbyte, hread] at ht
      rw [copyLoop_step hs, copyLoop_step ht]
      exact ih ⟨by simp only [hpos], hcap, rfl, rfl, read_write_agree hpos _ hbelow⟩
    · have hs := copyByte_full hfull
      have ht := copyByte_full (s := t) (by omega)
      rw [hsrc, hread] at ht
      exact .inr ⟨_, _, copyLoop_raise hs, copyLoop_raise ht, rfl⟩

section

variable {s t : State} (hc : SameControl s t) (hrun : s.ST = .run) (hd : SameData s t)

include hc hrun hd

/-- A literal writes the same byte in both states (R92, R93). -/
theorem exec_literalRow_sameData {d : Bool} {e : Byte} {s' t' : State} (hs : exec (literalRow d e) s = .next s')
    (ht : exec (literalRow d e) t = .next t') :
    t'.draws = s'.draws ∧ (s'.ST ≠ .err → ∀ a, a < s'.OPOS → Memory.read t'.OUT a = Memory.read s'.OUT a) := by
  obtain ⟨hcap, hcnt, hpos⟩ := sameControl_pos hc hrun
  obtain ⟨hroom, u, hu, -, hupos, hudraws, huout⟩ | ⟨hfull, u, hu, -, hudraws⟩ := exec_literalRow_cases d e s
  · cases hu.symm.trans hs
    obtain ⟨-, v, hv, -, -, hvdraws, hvout⟩ | ⟨hfull, -⟩ := exec_literalRow_cases d e t
    · cases hv.symm.trans ht
      refine ⟨by rw [hvdraws, hudraws, hd.draws], fun _ => ?_⟩
      rw [hupos, huout, hvout, hcnt]
      exact read_write_agree hpos _ (hd.out (.inl hrun))
    · omega
  · cases hu.symm.trans hs
    obtain ⟨hroom, -⟩ | ⟨-, v, hv, -, hvdraws⟩ := exec_literalRow_cases d e t
    · omega
    · cases hv.symm.trans ht
      exact ⟨by rw [abort_draws, abort_draws, hvdraws, hudraws, hd.draws], fun hne => absurd rfl hne⟩

/-- A duplication copies the same bytes in both states. -/
theorem exec_dup_sameData {i : Instr} {n : Nat} {msb : Sym} {lsb : Byte} {s' t' : State} (hi : dupForm i = some (n, msb, lsb))
    (hs : exec i s = .next s') (ht : exec i t = .next t') :
    t'.draws = s'.draws ∧ (s'.ST ≠ .err → ∀ a, a < s'.OPOS → Memory.read t'.OUT a = Memory.read s'.OUT a) := by
  obtain ⟨hcap, -, hpos⟩ := sameControl_pos hc hrun
  rcases Nat.lt_or_ge s.OPOS (distance msb lsb) with hfar | hnear
  · obtain ⟨u, hu, -, hudraws⟩ := exec_dup_far hi s hfar
    obtain ⟨v, hv, -, hvdraws⟩ := exec_dup_far hi t (hpos ▸ hfar)
    cases hu.symm.trans hs
    cases hv.symm.trans ht
    exact ⟨by rw [abort_draws, abort_draws, hvdraws, hudraws, hd.draws], fun hne => absurd rfl hne⟩
  · obtain ⟨w, hw, -, hexec⟩ := exec_dup_copies hi hnear
    obtain ⟨x, hx, -, hexec'⟩ := exec_dup_copies hi (s := t) (hpos ▸ hnear)
    obtain ⟨-, -, -, hwcap, -, -⟩ := hw.host
    obtain ⟨-, -, -, hxcap, -, -⟩ := hx.host
    have hagree : CopyAgree w x := by
      refine ⟨by rw [hx.pos, hw.pos, hpos], by rw [hxcap, hwcap, hcap], by rw [hx.src, hw.src, hpos],
        by rw [hx.draws, hw.draws, hd.draws], ?_⟩
      rw [hw.pos, hx.out, hw.out]
      exact hd.out (.inl hrun)
    obtain ⟨u, v, hu, hv, huv⟩ | ⟨u, v, hu, hv, hdraws⟩ := copyLoop_agree n hagree
    · rw [hexec, hu] at hs
      rw [hexec', hv] at ht
      cases hs
      cases ht
      exact ⟨huv.draws, fun _ => huv.below⟩
    · rw [hexec, hu] at hs
      rw [hexec', hv] at ht
      cases hs
      cases ht
      exact ⟨hdraws, fun hne => absurd rfl hne⟩

/-- The same instruction, executed at the same point of a call, leaves the same data. -/
theorem exec_sameData {i : Instr} {s' t' : State} (hstream : i.isStream = true) (hw : i.wf = true)
    (hs : exec i s = .next s') (ht : exec i t = .next t') : SameData s' t' := by
  obtain ⟨-, -, -, -, hD, -⟩ := exec_keepsHostSide hstream hw hs
  obtain ⟨-, -, -, -, hD', -⟩ := exec_keepsHostSide hstream hw ht
  obtain ⟨hdraws, hout⟩ : t'.draws = s'.draws ∧
      (s'.ST ≠ .err → ∀ a, a < s'.OPOS → Memory.read t'.OUT a = Memory.read s'.OUT a) := by
    obtain ⟨e, rfl⟩ | ⟨e, rfl⟩ | rfl | rfl | ⟨n, msb, lsb, hi⟩ := stream_cases hstream hw
    · exact exec_literalRow_sameData hc hrun hd (d := false) hs ht
    · exact exec_literalRow_sameData hc hrun hd (d := true) hs ht
    · cases hs
      cases ht
      exact ⟨hd.draws, fun _ => hd.out (.inl hrun)⟩
    · cases hs
      cases ht
      exact ⟨hd.draws, fun _ => hd.out (.inl hrun)⟩
    · exact exec_dup_sameData hc hrun hd hi hs ht
  refine ⟨by rw [hD', hD, hd.decrypt], hdraws, fun hlive => hout ?_⟩
  obtain hlive | hlive := hlive <;> simp [hlive]

end

/-- Two steps of one session read the same instruction, or the same rejection. -/
theorem running_step_sameData {s t s' t' : State} (hc : SameControl s t) (hd : SameData s t) (hrun : s.ST = .run)
    (hstart : s.START = false) (hs : step s = .next s') (ht : step t = .next t') : SameData s' t' := by
  obtain ⟨-, -, -, -, hS, hST, -⟩ := id hc
  have hrun' : t.ST = .run := hST.trans hrun
  have hstart' : t.START = false := hS.trans hstart
  have hsame := decodeWith_sameControl hc hrun t.DECRYPT
  cases hdec : decodeWith s.trees s.DECRYPT (inputOf s) s.toReader with
  | got i r =>
    rw [hd.decrypt, hdec] at hsame
    obtain ⟨p, hp, hpos⟩ := hsame.got_left
    rw [← hd.decrypt] at hp
    obtain ⟨hw, hstream, -⟩ := decodeWith_got_wf hdec
    rw [step_of_decode_got hrun hstart hdec] at hs
    rw [step_of_decode_got hrun' hstart' hp] at ht
    have hd' : SameData (putReader r s) (putReader p t) := ⟨hd.decrypt, hd.draws, hd.out⟩
    exact exec_sameData (sameControl_putReader hc hrun hpos.symm) hrun hd' hstream hw hs ht
  | stop e r =>
    rw [hd.decrypt, hdec] at hsame
    obtain ⟨p, hp, -⟩ := hsame.stop_left
    rw [← hd.decrypt] at hp
    rw [step_of_run hrun hstart, fetch_of_stop hdec] at hs
    rw [step_of_run hrun' hstart', fetch_of_stop hp] at ht
    cases hs
    cases ht
    exact ⟨hd.decrypt, hd.draws, by simp⟩

theorem step_sameSession {s t s' : State} (h : SameSession s t) (hs : step s = .next s') :
    ∃ t', step t = .next t' ∧ SameSession s' t' := by
  obtain ⟨hc, hd⟩ := (sameSession_iff s t).1 h
  obtain ⟨t', ht, hc'⟩ := step_sameControl hc hs
  obtain ⟨hT, -, -, hC, hS, hST, -⟩ := id hc
  obtain ⟨hrun, hstart, -⟩ | ⟨hidle, hstart, rfl⟩ | ⟨hidle, hstart, hcap, htrees, hcall⟩ := step_cases hs
  · exact ⟨t', ht, (sameSession_iff s' t').2 ⟨hc', running_step_sameData hc hd hrun hstart hs ht⟩⟩
  · refine ⟨t, ?_, h⟩
    rw [step_of_not_run (hST ▸ hidle), stepIdle, if_neg (by simp [hS, hstart])]
  · rw [step_of_start (hST ▸ hidle) (hS.trans hstart) (hC ▸ hcap) (hT ▸ htrees)]
    exact startCall_sameSession h.1 hcall

/-! ## The obligations -/

/-- Settles O57: the decoder answers alike in both modes but for the literal's row, and where an instruction ends depends on
OPOS and OUTCAP alone. -/
theorem controlIsIndependentOfTheData : Obligations.ControlIsIndependentOfTheData := fun _ _ _ => step_sameControl

/-- Settles O58: besides the control (O57), the same data is kept: a copy reads below OPOS and the free values to come. -/
theorem stepDependsOnTheSessionAlone : Obligations.StepDependsOnTheSessionAlone := fun _ _ _ => step_sameSession

/-- Settles O59: Init writes every register of the session, and OPOS is 0 after it. -/
theorem startForgetsEarlierCalls : Obligations.StartForgetsEarlierCalls := by
  intro s t s' hcall hidle hidle' hstart hstart' hs
  obtain ⟨hT, -, -, hC, -, -⟩ := id hcall
  obtain ⟨hrun, -⟩ | ⟨-, hnot, -⟩ | ⟨-, -, hcap, htrees, hs⟩ := step_cases hs
  · exact absurd hrun hidle
  · cases hstart.symm.trans hnot
  · rw [step_of_start hidle' hstart' (hC ▸ hcap) (hT ▸ htrees)]
    exact startCall_sameSession hcall hs

end Machine

end Sys2Proof
end
